-- ==== Sys2Proof/Word.lean ====
section
/-! DEFINITION. The word types of the bus and of the datapath. -/

namespace Sys2Proof

/-- A bus word (00_scope R12: a word is 32 bits, bit 0 the least significant). -/
abbrev Word := BitVec 32

/-- A byte of a sample buffer (20_memory R68). -/
abbrev Byte := BitVec 8

/-- A byte address of the bus (20_memory R60: 20 bits). -/
abbrev Addr := BitVec 20

/-- A number of the datapath (the Num of 00_scope R14), as plain data for any NUMERICS (R11; log 1). -/
inductive Number where
  /-- An IEEE 754 binary32 number by its bits: the reference NUMERICS has these and no others, and every
  NUMERICS has them (46_commands R290: an IN word "is converted exactly"). -/
  | single (w : Word)
  /-- A number of another NUMERICS: n / d, or its negative; an infinity where d = 0 < n, and NaN where
  both are 0. -/
  | wide (neg : Bool) (n d : Nat)
deriving DecidableEq, Repr, Inhabited

end Sys2Proof
end

