-- ==== Sys2Proof/Syntax.lean ====
section
/-! DEFINITION. The instructions: one constructor per row of spec/opcode_table.json. -/

namespace Sys2Proof

/-- The four oscillators of a voice, k = 1..4 (00_scope R7). -/
inductive OscId where
  | k1 | k2 | k3 | k4
deriving DecidableEq, Repr

/-- The waveforms (30_encoding R91). -/
inductive Wave where
  | sine | saw | square | triangle
deriving DecidableEq, Repr

/-- The filter modes (30_encoding R92). -/
inductive FMode where
  | lp | bp | hp
deriving DecidableEq, Repr

/-- The routing topologies (30_encoding R93). -/
inductive Algo where
  | a0 | a1 | a2 | a3 | a4 | a5 | a6 | a7
deriving DecidableEq, Repr

/-- The eight shadow registers of one oscillator block (20_memory R62). -/
inductive OscReg where
  | wave | coarse | fine | gain | attackMs | decayMs | sustainDb | releaseMs
deriving DecidableEq, Repr

/-- The 43 shadow parameter registers (20_memory R62). -/
inductive ShadowReg where
  | algo | filtMode | filtEn | filtCutoff | filtRes | vocEn | vocSmooth
  | fenvAttackMs | fenvDecayMs | fenvSustainPct | fenvReleaseMs
  | osc (k : OscId) (r : OscReg)
deriving DecidableEq, Repr

/-- The instructions. A command is a word written to CMD (30_encoding R96); a selector row is a write
of that code to its selector register (30_encoding R91 to R93), whose higher bits are ignored (R90).
`illegal` carries the whole word, because the fault it raises records it (30_encoding R100). -/
inductive Instr where
  | prepare
  | latch
  | noteOn (vel note : BitVec 7) (voice : BitVec 4)
  | noteOff (vel : BitVec 7) (tail : Bool) (voice : BitVec 4)
  | render (count : BitVec 16)
  | flush
  | filterReset (voice : BitVec 4)
  | waveSine (k : OscId)
  | waveSaw (k : OscId)
  | waveSquare (k : OscId)
  | waveTriangle (k : OscId)
  | fmodeLp
  | fmodeBp
  | fmodeHp
  | fmodeReserved
  | algo0
  | algo1
  | algo2
  | algo3
  | algo4
  | algo5
  | algo6
  | algo7
  | illegal (w : Word)
deriving DecidableEq, Repr

end Sys2Proof
end

