-- ==== Sys2Proof/Decode.lean ====
section
/-! DEFINITION. The register addresses, the decoder of bus writes, and the encoder. -/

namespace Sys2Proof

/-! ### Register addresses (20_memory R61 to R63) -/

/-- The CMD register (20_memory R63). -/
def cmdAddr : Nat := 0x100

/-- The base of an oscillator block: B(n) = 0x040 + 0x20*(n-1) (20_memory R62). -/
def oscBase : OscId → Nat
  | .k1 => 0x040
  | .k2 => 0x060
  | .k3 => 0x080
  | .k4 => 0x0A0

/-- The offset of a register within its oscillator block (20_memory R62). -/
def oscOffset : OscReg → Nat
  | .wave => 0x00
  | .coarse => 0x04
  | .fine => 0x08
  | .gain => 0x0C
  | .attackMs => 0x10
  | .decayMs => 0x14
  | .sustainDb => 0x18
  | .releaseMs => 0x1C

/-- The address of a shadow register (20_memory R62). -/
def shadowAddr : ShadowReg → Nat
  | .algo => 0x000
  | .filtMode => 0x004
  | .filtEn => 0x008
  | .filtCutoff => 0x00C
  | .filtRes => 0x010
  | .vocEn => 0x014
  | .vocSmooth => 0x018
  | .fenvAttackMs => 0x020
  | .fenvDecayMs => 0x024
  | .fenvSustainPct => 0x028
  | .fenvReleaseMs => 0x02C
  | .osc k r => oscBase k + oscOffset r

/-- The eight registers of one oscillator block in ascending address order. -/
def oscRegs (k : OscId) : List ShadowReg :=
  [.osc k .wave, .osc k .coarse, .osc k .fine, .osc k .gain,
   .osc k .attackMs, .osc k .decayMs, .osc k .sustainDb, .osc k .releaseMs]

/-- The 43 shadow registers in ascending address order, the order in which LATCH reads them
(46_commands R272, R276). -/
def shadowRegs : List ShadowReg :=
  [.algo, .filtMode, .filtEn, .filtCutoff, .filtRes, .vocEn, .vocSmooth,
   .fenvAttackMs, .fenvDecayMs, .fenvSustainPct, .fenvReleaseMs]
    ++ oscRegs .k1 ++ oscRegs .k2 ++ oscRegs .k3 ++ oscRegs .k4

/-- The shadow register at a byte address, if there is one (20_memory R61, R62). -/
def shadowAt (a : Nat) : Option ShadowReg :=
  shadowRegs.find? (fun r => shadowAddr r == a)

/-! ### Selector codes (30_encoding R91 to R93) -/

/-- The waveform of a 2-bit code (30_encoding R91). -/
def waveOfCode (c : BitVec 2) : Wave :=
  match c.toNat with
  | 0 => .sine
  | 1 => .saw
  | 2 => .square
  | _ => .triangle

/-- The filter mode of a stored code; code 3 acts as 0, LP (30_encoding R92). -/
def fmodeOfCode (c : BitVec 2) : FMode :=
  match c.toNat with
  | 1 => .bp
  | 2 => .hp
  | _ => .lp

/-- The topology of a 3-bit code (30_encoding R93). -/
def algoOfCode (c : BitVec 3) : Algo :=
  match c.toNat with
  | 0 => .a0
  | 1 => .a1
  | 2 => .a2
  | 3 => .a3
  | 4 => .a4
  | 5 => .a5
  | 6 => .a6
  | _ => .a7

/-! ### Command words (30_encoding R96 to R100) -/

/-- Bits [3:0] of a command word (30_encoding R96). -/
def opcode (w : Word) : BitVec 4 := w.extractLsb' 0 4

/-- RESERVED_MASK of an opcode (46_commands R291; 30_encoding R97). The reserved opcodes 0x0 and 0x8 to
0xF have no format. -/
def reservedMask (op : BitVec 4) : Word :=
  match op.toNat with
  | 1 | 2 | 6 => 0xFFFFFFF0#32
  | 3 => 0xFFC00000#32
  | 4 => 0xFFFF0000#32
  | 5 => 0x0000FFF0#32
  | 7 => 0xFFFFFF00#32
  | _ => 0#32

/-- The illegal command words: a reserved opcode, or a reserved bit of the format set
(30_encoding R100). -/
def isIllegalWord (w : Word) : Bool :=
  opcode w == 0#4 || (8#4).ule (opcode w) || w &&& reservedMask (opcode w) != 0#32

/-- The instruction of a word written to CMD (30_encoding R97 to R100). -/
def decodeCommand (w : Word) : Instr :=
  if isIllegalWord w then .illegal w
  else
    match (opcode w).toNat with
    | 1 => .prepare
    | 2 => .latch
    | 3 => .noteOn (w.extractLsb' 15 7) (w.extractLsb' 8 7) (w.extractLsb' 4 4)
    | 4 => .noteOff (w.extractLsb' 9 7) (w.getLsbD 8) (w.extractLsb' 4 4)
    | 5 => .render (w.extractLsb' 16 16)
    | 6 => .flush
    | 7 => .filterReset (w.extractLsb' 4 4)
    | _ => .illegal w

/-! ### Bus writes -/

/-- A 32-bit bus write: the instructions of this block are all bus writes (30_encoding R96, R102). -/
structure BusWrite where
  addr : Addr
  data : Word
deriving DecidableEq, Repr

/-- Why a bus write is no instruction of the opcode table. -/
inductive DecodeReject where
  /-- A parameter register that selects nothing by code (20_memory R62: bool and binary32 registers). -/
  | plainParameter (r : ShadowReg)
  /-- Neither CMD nor a shadow register: PREP registers, sample buffers, read-only or unmapped
  addresses. -/
  | notInstructionAddress
deriving DecidableEq, Repr

/-- The instruction a write of a word to ALGO is (30_encoding R93; bits [31:3] ignored, R90). -/
def decodeAlgo (w : Word) : Instr :=
  match algoOfCode (w.extractLsb' 0 3) with
  | .a0 => .algo0
  | .a1 => .algo1
  | .a2 => .algo2
  | .a3 => .algo3
  | .a4 => .algo4
  | .a5 => .algo5
  | .a6 => .algo6
  | .a7 => .algo7

/-- The instruction a write of a word to FILT_MODE is (30_encoding R92). -/
def decodeFmode (w : Word) : Instr :=
  match (w.extractLsb' 0 2).toNat with
  | 0 => .fmodeLp
  | 1 => .fmodeBp
  | 2 => .fmodeHp
  | _ => .fmodeReserved

/-- The instruction a write of a word to OSCk_WAVE is (30_encoding R91). -/
def decodeWave (k : OscId) (w : Word) : Instr :=
  match waveOfCode (w.extractLsb' 0 2) with
  | .sine => .waveSine k
  | .saw => .waveSaw k
  | .square => .waveSquare k
  | .triangle => .waveTriangle k

/-- The decoder, total on bus writes; what is no instruction is rejected by name. -/
def decode (b : BusWrite) : Except DecodeReject Instr :=
  if b.addr.toNat = cmdAddr then .ok (decodeCommand b.data)
  else
    match shadowAt b.addr.toNat with
    | some .algo => .ok (decodeAlgo b.data)
    | some .filtMode => .ok (decodeFmode b.data)
    | some (.osc k .wave) => .ok (decodeWave k b.data)
    | some r => .error (.plainParameter r)
    | none => .error .notInstructionAddress

/-! ### The encoder -/

/-- A write of a word to CMD. -/
def cmdWrite (w : Word) : BusWrite := ⟨BitVec.ofNat 20 cmdAddr, w⟩

/-- A write of a code to a selector register. -/
def selectorWrite (r : ShadowReg) (code : Word) : BusWrite := ⟨BitVec.ofNat 20 (shadowAddr r), code⟩

/-- The command word of a command (30_encoding R97: fields high to low); for a selector row, its code. -/
def instrWord : Instr → Word
  | .prepare => 0x00000001#32
  | .latch => 0x00000002#32
  | .noteOn vel note voice => 0#10 ++ vel ++ note ++ voice ++ 3#4
  | .noteOff vel tail voice => 0#16 ++ vel ++ BitVec.ofBool tail ++ voice ++ 4#4
  | .render count => count ++ 0#12 ++ 5#4
  | .flush => 0x00000006#32
  | .filterReset voice => 0#24 ++ voice ++ 7#4
  | .waveSine _ => 0#32
  | .waveSaw _ => 1#32
  | .waveSquare _ => 2#32
  | .waveTriangle _ => 3#32
  | .fmodeLp => 0#32
  | .fmodeBp => 1#32
  | .fmodeHp => 2#32
  | .fmodeReserved => 3#32
  | .algo0 => 0#32
  | .algo1 => 1#32
  | .algo2 => 2#32
  | .algo3 => 3#32
  | .algo4 => 4#32
  | .algo5 => 5#32
  | .algo6 => 6#32
  | .algo7 => 7#32
  | .illegal w => w

/-- The shadow register a selector row writes; `none` for a command, which is written to CMD. -/
def selectorReg : Instr → Option ShadowReg
  | .waveSine k => some (.osc k .wave)
  | .waveSaw k => some (.osc k .wave)
  | .waveSquare k => some (.osc k .wave)
  | .waveTriangle k => some (.osc k .wave)
  | .fmodeLp => some .filtMode
  | .fmodeBp => some .filtMode
  | .fmodeHp => some .filtMode
  | .fmodeReserved => some .filtMode
  | .algo0 => some .algo
  | .algo1 => some .algo
  | .algo2 => some .algo
  | .algo3 => some .algo
  | .algo4 => some .algo
  | .algo5 => some .algo
  | .algo6 => some .algo
  | .algo7 => some .algo
  | .prepare => none
  | .latch => none
  | .noteOn _ _ _ => none
  | .noteOff _ _ _ => none
  | .render _ => none
  | .flush => none
  | .filterReset _ => none
  | .illegal _ => none

/-- The bus write of an instruction. -/
def encode (i : Instr) : BusWrite :=
  match selectorReg i with
  | some r => selectorWrite r (instrWord i)
  | none => cmdWrite (instrWord i)

/-! ### The opcode table's own words -/

/-- The bus write that a word of spec/opcode_table.json stands for. A row of 32 bits is a command word,
written to CMD. A narrower row is a selector code, which the table places at a register the word does
not name; it is read as a write to ALGO, the selector register with the widest code. Log 13. -/
def tableWrite (nbits w : Nat) : BusWrite :=
  if 32 ≤ nbits then cmdWrite (BitVec.ofNat 32 w)
  else selectorWrite .algo (BitVec.ofNat 32 (w % 2 ^ nbits))

/-- The instruction the decoder reads from a word of the opcode table. -/
def decodeTableWord (nbits w : Nat) : Option Instr :=
  (decode (tableWrite nbits w)).toOption

end Sys2Proof
end

