-- ==== Sys2Proof/Config.lean ====
section
/-! DEFINITION. Configuration: the build-time parameters of the block, and the free values (opaque
constants: nothing in Lean can evaluate them, so a claim holds whatever they are). -/

namespace Sys2Proof

/-- The choice of NUMERICS, an open parameter (00_scope R11). -/
inductive Numerics where
  /-- IEEE 754 binary32 with round-to-nearest-even, the reference instance (00_scope R14). -/
  | binary32
  /-- Any other arithmetic: `Config.otherOp` and the constants that follow it. Log 1. -/
  | other
deriving DecidableEq, Repr

/-- The choice of DCB_ALPHA, an open parameter (00_scope R11; 40_oscillator R125). -/
inductive DcbAlpha where
  /-- (fs - TWO_PI * DCB_FC) / fs, the default (90_conflicts C1). -/
  | corrected
  /-- (fs - TWO_PI * DCB_FC) / (TWO_PI * DCB_FC), the source's literal formula (70_reset R350). -/
  | sourceLiteral
  /-- Any other function of fs: `Config.dcbAlphaOther`. -/
  | other
deriving DecidableEq, Repr

/-- The build-time parameters of 00_scope R9 to R11, fixed for one block. NUM_VOICES (R8) is the number
of voices State holds. -/
structure Cfg where
  /-- NUMERICS (R11). -/
  numerics : Numerics
  /-- MAX_BLOCK_HW, legal 1 to 16384 (R10). -/
  maxBlockHw : Nat
  /-- FILTER_RESET_ON_NOTE_ON (R11). -/
  filterResetOnNoteOn : Bool
  /-- DCB_ALPHA (R11). -/
  dcb : DcbAlpha
  modIndex : Number
  vocGain : Number
  trim : Number
  dcbFc : Number
  cutoffMin : Number
  cutoffMax : Number
  fineScale : Number
  a4Freq : Number
  a4Note : Number
  vocBands : Nat
  vocFmin : Number
  vocFmax : Number
  vocQ : Number
deriving DecidableEq, Repr

/-- The arithmetic operations; `store` is the conversion of a Num to a bus word (46_commands R290). -/
inductive NumOp where
  | add | sub | mul | div | fmod | store
deriving DecidableEq, Repr

/-- The functions of NUMERICS that no rule defines (00_scope R15), but for exp10. -/
inductive NumFun where
  | sin | asin | tan | exp2
deriving DecidableEq, Repr

/-! ### Fields the spec leaves unwritten -/

/-- The free word number `slot` of drawing `draw`: a word the spec leaves unspecified (10_state R36, R37,
R39; 93_implementation_defined part 2: "any value"). Log 7 and 8. -/
opaque Config.freeWord (draw slot : Nat) : Word

/-- The free number `slot` of drawing `draw`: a Num the spec leaves unwritten (10_state R22 to R33). Log 6. -/
opaque Config.freeNum (draw slot : Nat) : Number

/-! ### NUMERICS = binary32: what IEEE 754 and 93_implementation_defined part 3 leave open -/

/-- Sign and payload of a NaN result, which no rule gives. Log 3. -/
opaque Config.freeNaN (op : NumOp) (a b : Word) : Word

/-- sin, asin, tan and 2^x before the bounds of 93_implementation_defined part 3 are applied. Log 2. -/
opaque Config.freeFun (f : NumFun) (x : Word) : Word

/-- 10^x before its bounds are applied: a monotone function from the argument's place in the order of
the numbers to a pattern (93_implementation_defined part 3: "monotone"). Log 2. -/
opaque Config.freeExp10 : ℕ →o ℕ

/-- 10^x of NaN. Log 2. -/
opaque Config.freeExp10NaN (x : Word) : Word

/-! ### Another NUMERICS (log 1) -/

/-- A result of `+ - * /`. -/
opaque Config.otherOp (op : NumOp) (a b : Number) : Number

/-- sin, asin, tan and 2^x before their bounds are applied. -/
opaque Config.otherFun (f : NumFun) (x : Number) : Number

/-- 10^x of an argument in [-3, 0] before its bounds are applied: monotone. -/
opaque Config.otherExp10 : ℚ →o ℚ

/-- 10^x of an argument outside [-3, 0], which no rule of the block uses. -/
opaque Config.otherExp10Special (x : Number) : Number

/-- `num(n/d)` of a literal that is no binary32 number. -/
opaque Config.otherNum (n d : Nat) : Number

/-- PI = num(3.14159265358979...) (00_scope R14). -/
opaque Config.otherPi : Number

/-- TWO_PI = num(2*pi) (00_scope R14). -/
opaque Config.otherTwoPi : Number

/-- The rounding to Num of fmin * (fmax / fmin) ^ (b / m) (10_state R38). -/
opaque Config.otherBandFreq (fmin fmax : Number) (m b : Nat) : Number

/-! ### Parameters without a value -/

/-- DCB_ALPHA where it is neither of the two formulas the spec writes (00_scope R11). Log 4. -/
opaque Config.dcbAlphaOther (fs : Number) : Number

/-- The frequency of the one band of VOC_BANDS = 1, whose exponent b / (VOC_BANDS - 1) is 0 / 0
(10_state R38). Log 4. -/
opaque Config.freeBandFreq (fmin fmax : Number) : Number

end Sys2Proof
end

