-- ==== Sys2Proof/Machine/Numerics.lean ====
section
/-! DEFINITION. The reference NUMERICS on 32-bit patterns: binary32 arithmetic with round-to-nearest-even
(00_scope R14, R15), and the functions of the configuration within the properties
93_implementation_defined part 3 gives them. -/

namespace Sys2Proof.Machine

open Sys2Proof

/-! ### Bit patterns

A finite magnitude pattern p stands for `fixOf p * 2^-149`; patterns of one sign are ordered as their
values are. -/

/-- The pattern of +infinity, without its sign. -/
def infPat : Nat := 0x7F800000

/-- The sign bit, bit 31 (20_memory R68). -/
def isNeg (x : Word) : Bool := x.msb

/-- The pattern without its sign bit. -/
def magOf (x : Word) : Nat := x.toNat % 2 ^ 31

/-- The number with the given sign and magnitude pattern. -/
def mkNum (neg : Bool) (p : Nat) : Word := BitVec.ofNat 32 (if neg then p + 2 ^ 31 else p)

/-- Not a number. -/
def isNaN (x : Word) : Bool := infPat < magOf x

/-- An infinity. -/
def isInf (x : Word) : Bool := magOf x == infPat

/-- Neither an infinity nor NaN. -/
def isFinite (x : Word) : Bool := magOf x < infPat

/-- +0.0 or -0.0. -/
def isZero (x : Word) : Bool := magOf x == 0

/-- The value of a finite magnitude pattern in units of 2^-149. -/
def fixOf (p : Nat) : Nat :=
  if p < 2 ^ 23 then p else (p % 2 ^ 23 + 2 ^ 23) * 2 ^ (p / 2 ^ 23 - 1)

/-- The signed value of a finite number in units of 2^-149. -/
def sfixOf (x : Word) : Int :=
  if isNeg x then -(fixOf (magOf x) : Int) else (fixOf (magOf x) : Int)

/-- n / d rounded to the nearest integer, ties to even. -/
def roundNat (n d : Nat) : Nat :=
  if 2 * (n % d) < d then n / d
  else if d < 2 * (n % d) then n / d + 1
  else n / d + n / d % 2

/-- The magnitude pattern of n / d, in units of 2^-149, rounded to nearest even (00_scope R14). A result
beyond the largest finite number is infinity. -/
def roundPat (n d : Nat) : Nat :=
  min ((Nat.log2 (n / d) - 23) * 2 ^ 23 + roundNat n (d * 2 ^ (Nat.log2 (n / d) - 23))) infPat

/-! ### Literals -/

/-- `num(n/d)`: a literal rounded to binary32 (00_scope R14). -/
def num32 (n d : Nat) : Word := mkNum false (roundPat (n * 2 ^ 149) d)

def zero32 : Word := 0x00000000#32
def one32 : Word := 0x3F800000#32

/-- PI (00_scope R14). -/
def pi32 : Word := 0x40490FDB#32

/-- TWO_PI (00_scope R14). -/
def twoPi32 : Word := 0x40C90FDB#32

/-! ### Arithmetic -/

/-- A NaN result: quiet, its sign and payload free (log 3). -/
def nanOf (op : NumOp) (a b : Word) : Word :=
  (Config.freeNaN op a b &&& 0x803FFFFF#32) ||| 0x7FC00000#32

/-- The sign change. -/
def fneg (x : Word) : Word := x ^^^ 0x80000000#32

/-- abs (00_scope R15): the sign bit cleared. -/
def fabs (x : Word) : Word := x &&& 0x7FFFFFFF#32

/-- a + b (00_scope R14). An exact zero sum is +0.0 unless both operands are negative. -/
def fadd (a b : Word) : Word :=
  if isNaN a || isNaN b then nanOf .add a b
  else if isInf a then
    if isInf b && isNeg a != isNeg b then nanOf .add a b else a
  else if isInf b then b
  else if sfixOf a + sfixOf b = 0 then mkNum (isNeg a && isNeg b) 0
  else mkNum (decide (sfixOf a + sfixOf b < 0)) (roundPat (sfixOf a + sfixOf b).natAbs 1)

/-- a - b. -/
def fsub (a b : Word) : Word := fadd a (fneg b)

/-- a * b (00_scope R14). -/
def fmul (a b : Word) : Word :=
  if isNaN a || isNaN b then nanOf .mul a b
  else if isInf a || isInf b then
    if isZero a || isZero b then nanOf .mul a b else mkNum (isNeg a != isNeg b) infPat
  else mkNum (isNeg a != isNeg b) (roundPat (fixOf (magOf a) * fixOf (magOf b)) (2 ^ 149))

/-- a / b (00_scope R14). -/
def fdiv (a b : Word) : Word :=
  if isNaN a || isNaN b then nanOf .div a b
  else if isInf a then
    if isInf b then nanOf .div a b else mkNum (isNeg a != isNeg b) infPat
  else if isInf b then mkNum (isNeg a != isNeg b) 0
  else if isZero b then
    if isZero a then nanOf .div a b else mkNum (isNeg a != isNeg b) infPat
  else mkNum (isNeg a != isNeg b) (roundPat (fixOf (magOf a) * 2 ^ 149) (fixOf (magOf b)))

/-- fmod(x, y) (00_scope R15): the exact remainder with the sign of x; NaN for a non-finite dividend
(93_implementation_defined part 3) and for a zero divisor. -/
def fmod (x y : Word) : Word :=
  if isNaN x || isNaN y || isInf x || isZero y then nanOf .fmod x y
  else if isInf y then x
  else mkNum (isNeg x) (roundPat (fixOf (magOf x) % fixOf (magOf y)) 1)

/-! ### Comparisons: each false when an operand is NaN (00_scope R14) -/

/-- The signed rank of a number that is not NaN; both zeros rank 0. -/
def rank (x : Word) : Int := if isNeg x then -(magOf x : Int) else (magOf x : Int)

/-- a < b. -/
def flt (a b : Word) : Bool := !isNaN a && !isNaN b && decide (rank a < rank b)

/-- a <= b. -/
def fle (a b : Word) : Bool := !isNaN a && !isNaN b && decide (rank a ≤ rank b)

/-! ### The functions of the configuration (00_scope R15; 93_implementation_defined part 3; log 2)

Each is a free value cut to the properties that part 3 states, so that every function with those
properties is allowed. Outside the arguments those properties speak of, any word may result. -/

/-- The number nearest to y of magnitude at most b, keeping its sign. -/
def withinMag (b : Nat) (y : Word) : Word := mkNum (isNeg y) (min (magOf y) b)

/-- sin: 0 at 0, in [-1, 1] for finite arguments. -/
def fsin (x : Word) : Word :=
  if x = zero32 then zero32
  else if isZero x then withinMag 0 (Config.freeFun .sin x)
  else if isFinite x then withinMag 0x3F800000 (Config.freeFun .sin x)
  else Config.freeFun .sin x

/-- asin: 0 at 0, in [-PI/2, PI/2] for arguments in [-1, 1]; PI/2 rounds to 0x3FC90FDB. -/
def fasin (x : Word) : Word :=
  if x = zero32 then zero32
  else if isZero x then withinMag 0 (Config.freeFun .asin x)
  else if magOf x ≤ 0x3F800000 then withinMag 0x3FC90FDB (Config.freeFun .asin x)
  else Config.freeFun .asin x

/-- tan: finite and positive for arguments in (0, pi/2); the largest number below pi/2 is 0x3FC90FDA. -/
def ftan (x : Word) : Word :=
  if !isNeg x && 0 < magOf x && magOf x ≤ 0x3FC90FDA then
    mkNum false (max 1 (min (magOf (Config.freeFun .tan x)) (infPat - 1)))
  else Config.freeFun .tan x

/-- 2^x: exactly 1 at 0 and 2 at 1, positive for arguments of magnitude at most 126. -/
def fexp2 (x : Word) : Word :=
  if isZero x then one32
  else if x = one32 then 0x40000000#32
  else if magOf x ≤ 0x42FC0000 then mkNum false (max 1 (min (magOf (Config.freeFun .exp2 x)) infPat))
  else Config.freeFun .exp2 x

/-- The largest pattern below 0.001; the next one, 0x3A83126F, is the smallest above it. -/
def milliPat : Nat := 0x3A83126E

/-- A lower bound of 10^x by the rank of x: 10^x >= 10^-3 from -3 on, 10^x >= 1 from 0 on (monotone;
exp10(0) = 1; exp10(-3) ≈ 0.001 read as one of the two numbers next to 0.001: DEDUCED, log 2). -/
def exp10Low (r : Int) : Nat :=
  if r < -0x40400000 then 0 else if r < 0 then milliPat else 0x3F800000

/-- An upper bound of 10^x by the rank of x, of the same reading. -/
def exp10High (r : Int) : Nat :=
  if r ≤ -0x40400000 then milliPat + 1 else if r ≤ 0 then 0x3F800000 else infPat

/-- The place of a number that is not NaN in the order of the numbers. -/
def placeOf (x : Word) : Nat := (rank x + 2 ^ 31).toNat

/-- 10^x: exactly 1 at 0, monotone, and at -3 one of the two numbers next to 0.001. -/
def fexp10 (x : Word) : Word :=
  if isZero x then one32
  else if isNaN x then Config.freeExp10NaN x
  else mkNum false
    (max (exp10Low (rank x)) (min (exp10High (rank x)) (Config.freeExp10 (placeOf x))))

/-! ### Roots, for the vocoder centre frequencies (10_state R38) -/

/-- Whether the number midway between the patterns p - 1 and p is at most the real whose m-th power is t
(in units of 2^-(149*m)). -/
def midAtMost (m t p : Nat) : Bool := (fixOf (p - 1) + fixOf p) ^ m ≤ 2 ^ m * t

/-- The greatest pattern below 2^k more than `lo` whose lower midpoint is at most the real, found bit by
bit from bit k - 1 down. -/
def bisectPat (m t : Nat) : Nat → Nat → Nat
  | 0, lo => lo
  | k + 1, lo =>
    if lo + 2 ^ k < infPat && midAtMost m t (lo + 2 ^ k) then bisectPat m t k (lo + 2 ^ k)
    else bisectPat m t k lo

/-- The correctly rounded m-th root of t: ties go to the even pattern. -/
def rootPat (m t : Nat) : Nat :=
  if (fixOf (bisectPat m t 31 0 - 1) + fixOf (bisectPat m t 31 0)) ^ m = 2 ^ m * t
  then bisectPat m t 31 0 - bisectPat m t 31 0 % 2
  else bisectPat m t 31 0

/-! ### The accepted sample rates, as PREP_RATE's words -/

/-- FS_MIN_EXCL = 40000 Hz (00_scope R10). -/
def fsMinExcl : Word := 0x471C4000#32

/-- FS_MAX = 384000 Hz (00_scope R10). -/
def fsMax : Word := 0x48BB8000#32

end Sys2Proof.Machine
end

