-- ==== Sys2Proof/Machine/Num.lean ====
section
/-! DEFINITION. The numbers of the datapath and their arithmetic under either choice of NUMERICS
(00_scope R11, R14, R15), their bus format, and the constants the configuration computes. At binary32
every operation is the one of Machine/Numerics.lean on the patterns; at another NUMERICS it is a free
value, within what R14, R15 and 93_implementation_defined part 3 say of every NUMERICS (log 1). -/

namespace Sys2Proof

open Sys2Proof.Machine

/-! ### Bus format (46_commands R290) -/

/-- The word a Num is stored as: a binary32 number unchanged, another one rounded to nearest even. -/
def Number.toWord : Number → Word
  | .single w => w
  | .wide neg n d =>
    if d = 0 then
      if n = 0 then nanOf .store (BitVec.ofNat 32 neg.toNat) 0#32 else mkNum neg infPat
    else mkNum neg (roundPat (n * 2 ^ 149) d)

/-! ### Values -/

/-- The value of a Num. -/
inductive Value where
  | nan
  | inf (neg : Bool)
  | fin (q : ℚ)
deriving DecidableEq, Repr

/-- The value of a Num. -/
def Number.value : Number → Value
  | .single w =>
    if isNaN w then .nan else if isInf w then .inf (isNeg w) else .fin ((sfixOf w : ℚ) / 2 ^ 149)
  | .wide neg n d =>
    if d = 0 then (if n = 0 then .nan else .inf neg)
    else .fin (if neg then -((n : ℚ) / d) else (n : ℚ) / d)

/-- a < b; false when an operand is NaN (00_scope R14). -/
def Value.lt : Value → Value → Bool
  | .fin p, .fin q => decide (p < q)
  | .fin _, .inf neg => !neg
  | .inf neg, .fin _ => neg
  | .inf m, .inf n => m && !n
  | .nan, _ => false
  | _, .nan => false

/-- a <= b; false when an operand is NaN (00_scope R14). -/
def Value.le (a b : Value) : Bool := a != .nan && b != .nan && !b.lt a

/-- The Num of an exact rational value; `neg` is the sign of a zero. -/
def Number.ofRat (neg : Bool) (q : ℚ) : Number :=
  .wide (decide (q < 0) || (neg && q == 0)) q.num.natAbs q.den

/-- The sign of a Num, a zero's too. -/
def Number.isNegative : Number → Bool
  | .single w => isNeg w
  | .wide neg _ _ => neg

/-- NaN, where NUMERICS is not binary32. -/
def Number.nan : Number := .wide false 0 0

/-- x cut to the values between lo and hi; NaN is cut to lo. -/
def Number.within (lo hi x : Number) : Number :=
  if x.value.le hi.value then (if lo.value.le x.value then x else lo)
  else if x.value = .nan then lo else hi

end Sys2Proof

namespace Sys2Proof.Machine

open Sys2Proof

/-! ### Literals

An integer the block converts is exact in every NUMERICS (00_scope R12), and so is a binary32 number. -/

/-- `num(n)` of an integer (00_scope R12). -/
def numOfNat (n : Nat) : Number := .single (num32 n 1)

def zero : Number := .single 0x00000000#32
def one : Number := .single 0x3F800000#32
def two : Number := .single 0x40000000#32
def three : Number := .single 0x40400000#32
def half : Number := .single 0x3F000000#32
def quarter : Number := .single 0x3E800000#32
def minusOne : Number := .single 0xBF800000#32
def minusSixty : Number := .single 0xC2700000#32

end Sys2Proof.Machine

namespace Sys2Proof

open Sys2Proof.Machine

/-- `num(n/d)` of a literal that may be no binary32 number (00_scope R14). -/
def Numerics.num (nx : Numerics) (n d : Nat) : Number :=
  match nx with
  | .binary32 => .single (num32 n d)
  | .other => if fixOf (magOf (num32 n d)) * d = n * 2 ^ 149 then .single (num32 n d)
      else Config.otherNum n d

/-- PI (00_scope R14). -/
def Numerics.pi (nx : Numerics) : Number :=
  match nx with
  | .binary32 => .single pi32
  | .other => Config.otherPi

/-- TWO_PI (00_scope R14). -/
def Numerics.twoPi (nx : Numerics) : Number :=
  match nx with
  | .binary32 => .single twoPi32
  | .other => Config.otherTwoPi

/-! ### Arithmetic (00_scope R14) -/

/-- a + b. -/
def Numerics.add (nx : Numerics) (a b : Number) : Number :=
  match nx with
  | .binary32 => .single (fadd a.toWord b.toWord)
  | .other => Config.otherOp .add a b

/-- a - b. -/
def Numerics.sub (nx : Numerics) (a b : Number) : Number :=
  match nx with
  | .binary32 => .single (fsub a.toWord b.toWord)
  | .other => Config.otherOp .sub a b

/-- a * b. -/
def Numerics.mul (nx : Numerics) (a b : Number) : Number :=
  match nx with
  | .binary32 => .single (fmul a.toWord b.toWord)
  | .other => Config.otherOp .mul a b

/-- a / b. -/
def Numerics.div (nx : Numerics) (a b : Number) : Number :=
  match nx with
  | .binary32 => .single (fdiv a.toWord b.toWord)
  | .other => Config.otherOp .div a b

/-- The exact remainder of values with the sign of the dividend x; NaN for a non-finite dividend
(00_scope R15; 93_implementation_defined part 3) and for a zero divisor. -/
def fmodExact (x y : Number) : Number :=
  match x.value, y.value with
  | .fin p, .fin q =>
    if q = 0 then .nan
    else .ofRat x.isNegative (p - q * ((if 0 ≤ p / q then (p / q).floor else (p / q).ceil : ℤ) : ℚ))
  | .fin _, .inf _ => x
  | _, _ => .nan

/-- fmod(x, y) (00_scope R15). -/
def Numerics.fmod (nx : Numerics) (x y : Number) : Number :=
  match nx with
  | .binary32 => .single (Machine.fmod x.toWord y.toWord)
  | .other => fmodExact x y

/-- abs(x) (00_scope R15). -/
def Numerics.abs (nx : Numerics) (x : Number) : Number :=
  match nx with
  | .binary32 => .single (fabs x.toWord)
  | .other =>
    match x with
    | .single w => .single (fabs w)
    | .wide _ n d => .wide false n d

/-! ### Comparisons (00_scope R14, R15) -/

/-- a < b. -/
def Numerics.lt (nx : Numerics) (a b : Number) : Bool :=
  match nx with
  | .binary32 => flt a.toWord b.toWord
  | .other => a.value.lt b.value

/-- a <= b. -/
def Numerics.le (nx : Numerics) (a b : Number) : Bool :=
  match nx with
  | .binary32 => fle a.toWord b.toWord
  | .other => a.value.le b.value

/-- min(a, b) = (b < a) ? b : a (00_scope R15). -/
def Numerics.min (nx : Numerics) (a b : Number) : Number := if nx.lt b a then b else a

/-- max(a, b) = (b > a) ? b : a (00_scope R15). -/
def Numerics.max (nx : Numerics) (a b : Number) : Number := if nx.lt a b then b else a

/-- clamp(x, lo, hi) = min(max(x, lo), hi) (00_scope R15). -/
def Numerics.clamp (nx : Numerics) (x lo hi : Number) : Number := nx.min (nx.max x lo) hi

/-! ### The functions of the configuration (00_scope R15; 93_implementation_defined part 3; log 2) -/

/-- A finite value between p and q. -/
def Value.between (p q : ℚ) : Value → Bool
  | .fin x => decide (p ≤ x) && decide (x ≤ q)
  | _ => false

/-- The greatest of the binary32 numbers that tan's property covers at every NUMERICS: below pi/2. -/
def belowHalfPi : Number := .single 0x3FC90FDA#32

/-- sin: 0 at 0, in [-1, 1] for finite arguments. -/
def otherSin (x : Number) : Number :=
  match x.value with
  | .fin q =>
    (Config.otherFun .sin x).within (if q = 0 then zero else minusOne) (if q = 0 then zero else one)
  | _ => Config.otherFun .sin x

/-- asin: 0 at 0, in [-PI/2, PI/2], as rounded outwards to binary32, for arguments in [-1, 1]. -/
def otherAsin (x : Number) : Number :=
  if x.value = .fin 0 then (Config.otherFun .asin x).within zero zero
  else if x.value.between (-1) 1 then
    (Config.otherFun .asin x).within (.single 0xBFC90FDB#32) (.single 0x3FC90FDB#32)
  else Config.otherFun .asin x

/-- tan: finite and positive for arguments in (0, pi/2). -/
def otherTan (x : Number) : Number :=
  if zero.value.lt x.value && x.value.le belowHalfPi.value then
    match (Config.otherFun .tan x).value with
    | .fin q => if 0 < q then Config.otherFun .tan x else one
    | _ => one
  else Config.otherFun .tan x

/-- 2^x: exactly 1 at 0 and 2 at 1, positive. -/
def otherExp2 (x : Number) : Number :=
  match x.value with
  | .fin q =>
    if q = 0 then one
    else if q = 1 then two
    else if zero.value.lt (Config.otherFun .exp2 x).value then Config.otherFun .exp2 x
    else one
  | _ => Config.otherFun .exp2 x

/-- 10^x: exactly 1 at 0, monotone on [-3, 0], and at -3 between the two binary32 numbers next to
0.001. -/
def otherExp10 (x : Number) : Number :=
  match x.value with
  | .fin q =>
    if q = 0 then one
    else if -3 ≤ q && q < 0 then
      .ofRat false
        (max ((fixOf milliPat : ℚ) / 2 ^ 149)
          (min (if q = -3 then (fixOf (milliPat + 1) : ℚ) / 2 ^ 149 else 1) (Config.otherExp10 q)))
    else Config.otherExp10Special x
  | _ => Config.otherExp10Special x

/-- sin(x). -/
def Numerics.sin (nx : Numerics) (x : Number) : Number :=
  match nx with
  | .binary32 => .single (fsin x.toWord)
  | .other => otherSin x

/-- asin(x). -/
def Numerics.asin (nx : Numerics) (x : Number) : Number :=
  match nx with
  | .binary32 => .single (fasin x.toWord)
  | .other => otherAsin x

/-- tan(x). -/
def Numerics.tan (nx : Numerics) (x : Number) : Number :=
  match nx with
  | .binary32 => .single (ftan x.toWord)
  | .other => otherTan x

/-- exp2(x). -/
def Numerics.exp2 (nx : Numerics) (x : Number) : Number :=
  match nx with
  | .binary32 => .single (fexp2 x.toWord)
  | .other => otherExp2 x

/-- exp10(x). -/
def Numerics.exp10 (nx : Numerics) (x : Number) : Number :=
  match nx with
  | .binary32 => .single (fexp10 x.toWord)
  | .other => otherExp10 x

end Sys2Proof

namespace Sys2Proof.Machine

open Sys2Proof

/-! ### The configuration's values -/

/-- DCB_ALPHA(fs) (00_scope R9, R11; 40_oscillator R125; 70_reset R350). -/
def dcbAlpha (cfg : Cfg) (fs : Number) : Number :=
  match cfg.dcb with
  | .corrected =>
    cfg.numerics.div (cfg.numerics.sub fs (cfg.numerics.mul cfg.numerics.twoPi cfg.dcbFc)) fs
  | .sourceLiteral =>
    cfg.numerics.div (cfg.numerics.sub fs (cfg.numerics.mul cfg.numerics.twoPi cfg.dcbFc))
      (cfg.numerics.mul cfg.numerics.twoPi cfg.dcbFc)
  | .other => Config.dcbAlphaOther fs

/-- `num(VOC_FMIN * (VOC_FMAX / VOC_FMIN) ^ (b / (VOC_BANDS - 1)))`, the correctly rounded value of the
exact real (10_state R38; log 20). The exponent of a single band is 0 / 0, and its frequency free. -/
def bandFreq (cfg : Cfg) (b : Nat) : Number :=
  if cfg.vocBands ≤ 1 then Config.freeBandFreq cfg.vocFmin cfg.vocFmax
  else
    match cfg.numerics with
    | .binary32 =>
      .single (mkNum false (rootPat (cfg.vocBands - 1)
        (fixOf (magOf cfg.vocFmin.toWord) ^ (cfg.vocBands - 1 - b)
          * fixOf (magOf cfg.vocFmax.toWord) ^ b)))
    | .other =>
      if b = 0 then cfg.vocFmin
      else if b = cfg.vocBands - 1 then cfg.vocFmax
      else Config.otherBandFreq cfg.vocFmin cfg.vocFmax (cfg.vocBands - 1) b

/-- The reference configuration: the defaults of 00_scope R9 to R11. -/
def referenceCfg : Cfg where
  numerics := .binary32
  maxBlockHw := 4096
  filterResetOnNoteOn := false
  dcb := .corrected
  modIndex := .single 0x3D4CCCCD#32   -- 0.05
  vocGain := .single 0x43480000#32    -- 200
  trim := .single 0x3E4CCCCD#32       -- 0.2
  dcbFc := .single 0x42200000#32      -- 40
  cutoffMin := .single 0x41A00000#32  -- 20
  cutoffMax := .single 0x469C4000#32  -- 20000
  fineScale := .single 0x3A83126F#32  -- 0.001
  a4Freq := .single 0x43DC0000#32     -- 440
  a4Note := .single 0x428A0000#32     -- 69
  vocBands := 24
  vocFmin := .single 0x43480000#32    -- 200
  vocFmax := .single 0x467A0000#32    -- 16000
  vocQ := .single 0x41200000#32       -- 10

end Sys2Proof.Machine
end

