-- ==== Sys2Proof/Machine/State.lean ====
section
/-! DEFINITION. The state of the block as plain data, the ways a step could stop, and the state after
power-on reset. -/

namespace Sys2Proof.Machine

open Sys2Proof

/-! ### Small containers -/

/-- Four things, one for each k = 1..4. -/
structure Four (α : Type) where
  k1 : α
  k2 : α
  k3 : α
  k4 : α
deriving DecidableEq, Repr

/-- A channel, c = 0 or 1. -/
inductive Chan where
  | c0 | c1
deriving DecidableEq, Repr

/-- Two things, one for each channel. -/
structure Two (α : Type) where
  c0 : α
  c1 : α
deriving DecidableEq, Repr

/-! ### Units (10_state R22 to R29) -/

/-- An oscillator (10_state R22). -/
structure Osc where
  wave : Wave
  base : Number
  coarse : Number
  fine : Number
  gain : Number
  phase : Number
  inc : Number
  hp : Number
  prevIn : Number
deriving DecidableEq, Repr

/-- The stage of an envelope (10_state R24). -/
inductive Stage where
  | idle | attack | decay | sustain | release
deriving DecidableEq, Repr

/-- The per-sample step of a stage: the token INSTANT or a Num (10_state R24). -/
inductive Rate where
  | instant
  | step (x : Number)
deriving DecidableEq, Repr

/-- An envelope generator (10_state R24). -/
structure Env where
  a : Number
  d : Number
  s : Number
  r : Number
  stage : Stage
  level : Number
  rate : Rate
deriving DecidableEq, Repr

/-- A filter of one channel (10_state R26); the vocoder's filters are the same unit (R29). -/
structure Filt where
  mode : FMode
  fc : Number
  res : Number
  g : Number
  r2 : Number
  h : Number
  s1 : Number
  s2 : Number
deriving DecidableEq, Repr

/-- The state machine of a voice (10_state R27). -/
inductive VState where
  | idle | sounding | releasing
deriving DecidableEq, Repr

/-- A voice (10_state R27). -/
structure Voice where
  osc : Four Osc
  env : Four Env
  envF : Env
  filt : Filt
  vstate : VState
  freq : Number
deriving DecidableEq, Repr

/-- A vocoder band: one modulator filter and two carrier filters (10_state R29; 45_vocoder R251). -/
structure Band where
  fc : Number
  sm : Number
  fm : Filt
  fcar : Two Filt
deriving DecidableEq, Repr

/-! ### Control (10_state R31, R33) -/

/-- The control fields (10_state R31). -/
structure Ctl where
  prepared : Bool
  latched : Bool
  fs : Number
  maxBlock : BitVec 16
  pos : BitVec 16
  faulted : Bool
  faultCode : BitVec 8
  faultInfo : Word
  monLen : BitVec 16
  monFreq : Number
deriving DecidableEq, Repr

/-- The latched oscillator parameters of one k (10_state R33). -/
structure OscParams where
  wave : Wave
  coarse : Number
  fine : Number
  gain : Number
deriving DecidableEq, Repr

/-- The latched envelope parameters, in seconds and linear level (10_state R33). -/
structure EnvParams where
  a : Number
  d : Number
  s : Number
  r : Number
deriving DecidableEq, Repr

/-- The latched snapshot ctl.P (10_state R33). -/
structure Snapshot where
  algo : Algo
  filtMode : FMode
  filtEn : Bool
  filtCutoff : Number
  filtRes : Number
  vocEn : Bool
  vocSmooth : Number
  fenv : EnvParams
  osc : Four OscParams
  env : Four EnvParams
deriving DecidableEq, Repr

/-! ### Shadow parameter registers (10_state R40; 20_memory R62) -/

/-- A shadow register: its word and its written flag (10_state R40). -/
structure ShadowCell where
  value : Word
  written : Bool
deriving DecidableEq, Repr

/-- The eight shadow registers of one oscillator block (20_memory R62). -/
structure OscShadow where
  wave : ShadowCell
  coarse : ShadowCell
  fine : ShadowCell
  gain : ShadowCell
  attackMs : ShadowCell
  decayMs : ShadowCell
  sustainDb : ShadowCell
  releaseMs : ShadowCell
deriving DecidableEq, Repr

/-- The 43 shadow registers (20_memory R62). -/
structure Shadow where
  algo : ShadowCell
  filtMode : ShadowCell
  filtEn : ShadowCell
  filtCutoff : ShadowCell
  filtRes : ShadowCell
  vocEn : ShadowCell
  vocSmooth : ShadowCell
  fenvAttackMs : ShadowCell
  fenvDecayMs : ShadowCell
  fenvSustainPct : ShadowCell
  fenvReleaseMs : ShadowCell
  osc : Four OscShadow
deriving DecidableEq, Repr

/-! ### The host's accesses: the model's own inputs (log 10, 11) -/

/-- A bus access of the host (46_commands R296, R297); `bits` is its width (20_memory R69). -/
inductive Access where
  | read (bits : Nat) (addr : Addr)
  | write (bits : Nat) (addr : Addr) (data : Word)
  /-- A HOST_CTRL write to a shadow register that overlaps the next LATCH of the script: it lands after
  that LATCH has made `after` of its 43 register reads (46_commands R276; 70_reset R341). -/
  | overlap (after : Nat) (reg : ShadowReg) (data : Word)
deriving DecidableEq, Repr

/-- A HOST_CTRL write to a shadow register that lands during a LATCH, after that LATCH has made `after`
of its 43 register reads (46_commands R276). -/
structure CtrlWrite where
  after : Nat
  reg : ShadowReg
  data : Word
deriving DecidableEq, Repr

/-! ### The state -/

/-- The sample buffers' bytes by bus address, in one canonical form (`Memory.wf`). -/
abbrev Memory := List Host.Cell

/-- Everything the spec gives the block (10_state R20 to R40), the configuration the step reads
(10_state R21), and, last, the model's own fields. -/
structure State where
  /-- The build-time parameters (00_scope R9 to R11); no step changes them. -/
  cfg : Cfg
  /-- The voices; NUM_VOICES is their number (00_scope R8; 10_state R27). -/
  voices : List Voice
  /-- The vocoder bands, b = 0..VOC_BANDS-1 (10_state R29; 00_scope R9). -/
  bands : List Band
  /-- The control fields (10_state R31). -/
  ctl : Ctl
  /-- The latched snapshot ctl.P (10_state R33). -/
  snap : Snapshot
  /-- The shadow parameter registers (10_state R40). -/
  shadow : Shadow
  /-- PREP_RATE (20_memory R63). -/
  prepRate : Word
  /-- PREP_MAXBLOCK (20_memory R63). -/
  prepMaxBlock : BitVec 16
  /-- The bytes of IN, OUT and MON (20_memory R61, R64). -/
  mem : Memory
  /-- The written flags inW[c][n] (10_state R36), those that are set. -/
  inW : Two (List (Nat × Bool))
  /-- The carrier buffer car[c][n] (10_state R35), the elements that are not +0.0. -/
  car : Two (List (Nat × Number))
  /-- MODEL: the accesses the host has issued and the block has not performed, in bus order (log 10). -/
  host : List Access
  /-- MODEL: the HOST_CTRL writes issued so far that land during the next LATCH that reads (log 11). -/
  ctrl : List CtrlWrite
  /-- MODEL: the word the last bus read returned (log 12). -/
  rdata : Word
  /-- MODEL: how many leading elements of OUT a FLUSH has written since PREPARE (log 7). -/
  outLen : Nat
  /-- MODEL: how often the free values have been drawn (log 6, 7). -/
  draw : Nat
deriving DecidableEq, Repr

/-! ### Stops -/

/-- The ways a step could stop with a fault: none. Every fault of the spec is recorded in `ctl` and the
block goes on (60_exceptions R301: "There is no vector, no handler, no saved program counter"), so a
fault of the spec is a next state. Nobody raises one, and a claim that every step answers a next state
would be unsafe if the spec had a stop (log 19); `Tests.step_after` shows that every step answers one. -/
inductive Fault where
deriving DecidableEq, Repr

/-- Refusals. -/
inductive Refusal where
  /-- Raised by an arm of `exec` whose instruction has no meaning yet; no arm raises it. Safe. -/
  | notModelled (mnemonic : String)
deriving DecidableEq, Repr

/-! ### Power-on reset (70_reset R330). Fields the spec leaves unwritten hold zero: DESIGN CHOICE, log 5. -/

def Osc.powerOn : Osc := ⟨.sine, zero, zero, zero, zero, zero, zero, zero, zero⟩

def Env.powerOn : Env := ⟨zero, zero, zero, zero, .idle, zero, .step zero⟩

def Filt.powerOn : Filt := ⟨.lp, zero, zero, zero, zero, zero, zero, zero⟩

def Voice.powerOn : Voice where
  osc := ⟨.powerOn, .powerOn, .powerOn, .powerOn⟩
  env := ⟨.powerOn, .powerOn, .powerOn, .powerOn⟩
  envF := .powerOn
  filt := .powerOn
  vstate := .idle
  freq := zero

def Band.powerOn : Band := ⟨zero, zero, .powerOn, ⟨.powerOn, .powerOn⟩⟩

def Ctl.powerOn : Ctl := ⟨false, false, zero, 0#16, 0#16, false, 0#8, 0#32, 0#16, zero⟩

def EnvParams.powerOn : EnvParams := ⟨zero, zero, zero, zero⟩

def OscParams.powerOn : OscParams := ⟨.sine, zero, zero, zero⟩

def Snapshot.powerOn : Snapshot where
  algo := .a0
  filtMode := .lp
  filtEn := false
  filtCutoff := zero
  filtRes := zero
  vocEn := false
  vocSmooth := zero
  fenv := .powerOn
  osc := ⟨.powerOn, .powerOn, .powerOn, .powerOn⟩
  env := ⟨.powerOn, .powerOn, .powerOn, .powerOn⟩

/-- A register never written: it reads 0 (20_memory R62). -/
def ShadowCell.powerOn : ShadowCell := ⟨0#32, false⟩

def OscShadow.powerOn : OscShadow :=
  ⟨.powerOn, .powerOn, .powerOn, .powerOn, .powerOn, .powerOn, .powerOn, .powerOn⟩

def Shadow.powerOn : Shadow :=
  ⟨.powerOn, .powerOn, .powerOn, .powerOn, .powerOn, .powerOn, .powerOn, .powerOn, .powerOn, .powerOn,
   .powerOn, ⟨.powerOn, .powerOn, .powerOn, .powerOn⟩⟩

/-- The block right after power-on (70_reset R330), with the reference configuration and NUM_VOICES = 1
(00_scope R8 to R11). -/
def State.reset : State where
  cfg := referenceCfg
  voices := [.powerOn]
  bands := List.replicate referenceCfg.vocBands .powerOn
  ctl := .powerOn
  snap := .powerOn
  shadow := .powerOn
  prepRate := 0#32
  prepMaxBlock := 0#16
  mem := []
  inW := ⟨[], []⟩
  car := ⟨[], []⟩
  host := []
  ctrl := []
  rdata := 0#32
  outLen := 0
  draw := 0

end Sys2Proof.Machine
end

