-- ==== Sys2Proof/Machine/Ops.lean ====
section
/-! DEFINITION. The named operations over containers, memory, registers, units and faults. -/

namespace Sys2Proof.Machine

open Sys2Proof

/-! ### Containers -/

/-- The element of k. -/
def Four.get {α : Type} (f : Four α) : OscId → α
  | .k1 => f.k1
  | .k2 => f.k2
  | .k3 => f.k3
  | .k4 => f.k4

/-- The element of k replaced. -/
def Four.set {α : Type} (f : Four α) (k : OscId) (x : α) : Four α :=
  match k with
  | .k1 => { f with k1 := x }
  | .k2 => { f with k2 := x }
  | .k3 => { f with k3 := x }
  | .k4 => { f with k4 := x }

/-- A function applied to each element, k = 1..4. -/
def Four.map {α β : Type} (g : α → β) (f : Four α) : Four β := ⟨g f.k1, g f.k2, g f.k3, g f.k4⟩

/-- Four elements from their k. -/
def Four.build {α : Type} (g : OscId → α) : Four α := ⟨g .k1, g .k2, g .k3, g .k4⟩

/-- The element of c. -/
def Two.get {α : Type} (t : Two α) : Chan → α
  | .c0 => t.c0
  | .c1 => t.c1

/-- The element of c replaced. -/
def Two.set {α : Type} (t : Two α) (c : Chan) (x : α) : Two α :=
  match c with
  | .c0 => { t with c0 := x }
  | .c1 => { t with c1 := x }

/-! ### Sparse arrays: a list of the entries that differ from `d`, keys strictly rising -/

/-- The value at key k: the first entry of k, or `d`. -/
def sparseGet {β : Type} (d : β) : List (Nat × β) → Nat → β
  | [], _ => d
  | (j, v) :: m, k => if j = k then v else sparseGet d m k

/-- The array with v at key k; writing `d` removes the entry, so that equal arrays are equal lists. -/
def sparseSet {β : Type} [DecidableEq β] (d : β) : List (Nat × β) → Nat → β → List (Nat × β)
  | [], k, v => if v = d then [] else [(k, v)]
  | (j, w) :: m, k, v =>
    if k < j then (if v = d then (j, w) :: m else (k, v) :: (j, w) :: m)
    else if k = j then (if v = d then m else (k, v) :: m)
    else (j, w) :: sparseSet d m k v

/-- The canonical form: keys above the bound and strictly rising, no entry equal to `d`. -/
def sparseWfFrom {β : Type} [DecidableEq β] (d : β) : Nat → List (Nat × β) → Bool
  | _, [] => true
  | lo, (j, v) :: m => decide (lo ≤ j) && decide (v ≠ d) && sparseWfFrom d (j + 1) m

/-- The canonical form. -/
def sparseWf {β : Type} [DecidableEq β] (d : β) (m : List (Nat × β)) : Bool := sparseWfFrom d 0 m

/-- The values vs written at the keys k, k + 1, ... in ascending order. -/
def sparseFill {β : Type} [DecidableEq β] (d : β) : List (Nat × β) → Nat → List β → List (Nat × β)
  | m, _, [] => m
  | m, k, v :: vs => sparseFill d (sparseSet d m k v) (k + 1) vs

/-! ### Memory: the sample buffers (20_memory R61, R64, R68) -/

/-- What a byte nothing has written holds: 0 (20_memory R64: IN reads 0; for OUT and MON no bus read
shows it, log 7 and 9). -/
def unlistedByte : Byte := 0#8

/-- The canonical form of the memory. -/
def Memory.wf (m : Memory) : Bool := sparseWf unlistedByte m

/-- One byte. -/
def readByte (m : Memory) (a : Nat) : Byte := sparseGet unlistedByte m a

/-- One byte replaced. -/
def writeByte (m : Memory) (a : Nat) (b : Byte) : Memory := sparseSet unlistedByte m a b

/-- The word at an aligned address: byte a + i holds bits [8i+7:8i] (20_memory R68). -/
def readWord (m : Memory) (a : Nat) : Word :=
  readByte m (a + 3) ++ readByte m (a + 2) ++ readByte m (a + 1) ++ readByte m a

/-- The word at an aligned address replaced (20_memory R68). -/
def writeWord (m : Memory) (a : Nat) (w : Word) : Memory :=
  writeByte
    (writeByte
      (writeByte (writeByte m a (w.extractLsb' 0 8)) (a + 1) (w.extractLsb' 8 8))
      (a + 2) (w.extractLsb' 16 8))
    (a + 3) (w.extractLsb' 24 8)

/-- Words at a, a + 4, a + 8, ... replaced in ascending order. -/
def writeWords : Memory → Nat → List Word → Memory
  | m, _, [] => m
  | m, a, w :: ws => writeWords (writeWord m a w) (a + 4) ws

/-- IN[c][0] (20_memory R61). -/
def inBase : Chan → Nat
  | .c0 => 0x10000
  | .c1 => 0x20000

/-- OUT[c][0] (20_memory R61). -/
def outBase : Chan → Nat
  | .c0 => 0x30000
  | .c1 => 0x40000

/-- MON[0] (20_memory R61). -/
def monBase : Nat := 0x50000

/-- The word of IN[c][n]. -/
def inWord (s : State) (c : Chan) (n : Nat) : Word := readWord s.mem (inBase c + 4 * n)

/-- The sample of IN[c][n], converted exactly (46_commands R290). -/
def inSample (s : State) (c : Chan) (n : Nat) : Number := .single (inWord s c n)

/-- The written flag inW[c][n] (10_state R36). -/
def inWritten (s : State) (c : Chan) (n : Nat) : Bool := sparseGet false (s.inW.get c) n

/-- A host write to IN[c][n]: the word is stored and its written flag set (20_memory R64). -/
def storeIn (c : Chan) (n : Nat) (w : Word) (s : State) : State :=
  { s with
    mem := writeWord s.mem (inBase c + 4 * n) w
    inW := s.inW.set c (sparseSet false (s.inW.get c) n true) }

/-- The carrier element car[c][n] (10_state R35). -/
def carGet (s : State) (c : Chan) (n : Nat) : Number := sparseGet zero (s.car.get c) n

/-! ### Shadow parameter registers (20_memory R62; 10_state R40) -/

/-- A register of an oscillator block. -/
def OscShadow.get (b : OscShadow) : OscReg → ShadowCell
  | .wave => b.wave
  | .coarse => b.coarse
  | .fine => b.fine
  | .gain => b.gain
  | .attackMs => b.attackMs
  | .decayMs => b.decayMs
  | .sustainDb => b.sustainDb
  | .releaseMs => b.releaseMs

/-- A register of an oscillator block replaced. -/
def OscShadow.set (b : OscShadow) (r : OscReg) (x : ShadowCell) : OscShadow :=
  match r with
  | .wave => { b with wave := x }
  | .coarse => { b with coarse := x }
  | .fine => { b with fine := x }
  | .gain => { b with gain := x }
  | .attackMs => { b with attackMs := x }
  | .decayMs => { b with decayMs := x }
  | .sustainDb => { b with sustainDb := x }
  | .releaseMs => { b with releaseMs := x }

/-- A shadow register. -/
def Shadow.get (b : Shadow) : ShadowReg → ShadowCell
  | .algo => b.algo
  | .filtMode => b.filtMode
  | .filtEn => b.filtEn
  | .filtCutoff => b.filtCutoff
  | .filtRes => b.filtRes
  | .vocEn => b.vocEn
  | .vocSmooth => b.vocSmooth
  | .fenvAttackMs => b.fenvAttackMs
  | .fenvDecayMs => b.fenvDecayMs
  | .fenvSustainPct => b.fenvSustainPct
  | .fenvReleaseMs => b.fenvReleaseMs
  | .osc k r => (b.osc.get k).get r

/-- A shadow register replaced. -/
def Shadow.set (b : Shadow) (r : ShadowReg) (x : ShadowCell) : Shadow :=
  match r with
  | .algo => { b with algo := x }
  | .filtMode => { b with filtMode := x }
  | .filtEn => { b with filtEn := x }
  | .filtCutoff => { b with filtCutoff := x }
  | .filtRes => { b with filtRes := x }
  | .vocEn => { b with vocEn := x }
  | .vocSmooth => { b with vocSmooth := x }
  | .fenvAttackMs => { b with fenvAttackMs := x }
  | .fenvDecayMs => { b with fenvDecayMs := x }
  | .fenvSustainPct => { b with fenvSustainPct := x }
  | .fenvReleaseMs => { b with fenvReleaseMs := x }
  | .osc k r => { b with osc := b.osc.set k ((b.osc.get k).set r x) }

/-- The kinds of parameter register (30_encoding R90). -/
inductive RegKind where
  | enum3    -- ALGO[2:0]
  | enum2    -- OSCn_WAVE[1:0]
  | fmode    -- FILT_MODE[1:0], WARL
  | bool     -- bit [0]
  | binary32
deriving DecidableEq, Repr

/-- Which kind a register of an oscillator block is (20_memory R62). -/
def oscRegKind : OscReg → RegKind
  | .wave => .enum2
  | .coarse => .binary32
  | .fine => .binary32
  | .gain => .binary32
  | .attackMs => .binary32
  | .decayMs => .binary32
  | .sustainDb => .binary32
  | .releaseMs => .binary32

/-- Which kind a shadow register is (20_memory R62). -/
def regKind : ShadowReg → RegKind
  | .algo => .enum3
  | .filtMode => .fmode
  | .filtEn => .bool
  | .filtCutoff => .binary32
  | .filtRes => .binary32
  | .vocEn => .bool
  | .vocSmooth => .binary32
  | .fenvAttackMs => .binary32
  | .fenvDecayMs => .binary32
  | .fenvSustainPct => .binary32
  | .fenvReleaseMs => .binary32
  | .osc _ r => oscRegKind r

/-- The word a register stores and reads back for a written word (30_encoding R90, R92, R94, R95). -/
def readBack (k : RegKind) (w : Word) : Word :=
  match k with
  | .enum3 => w &&& 0x7#32
  | .enum2 => w &&& 0x3#32
  | .fmode => if w &&& 0x3#32 = 0x3#32 then 0#32 else w &&& 0x3#32
  | .bool => w &&& 0x1#32
  | .binary32 => w

/-- A write to a shadow register: the word after the read-back rules, and the written flag set
(46_commands R297; 20_memory R71). -/
def Shadow.store (b : Shadow) (r : ShadowReg) (w : Word) : Shadow :=
  b.set r ⟨readBack (regKind r) w, true⟩

/-- A host write to a shadow register. Nothing else changes until LATCH (20_memory R62). -/
def storeShadow (r : ShadowReg) (w : Word) (s : State) : State :=
  { s with shadow := s.shadow.store r w }

/-! ### Voices -/

/-- NUM_VOICES (00_scope R8). -/
def numVoices (s : State) : Nat := s.voices.length

/-- A function applied to voice v of a list. -/
def modifyAt (f : Voice → Voice) : List Voice → Nat → List Voice
  | [], _ => []
  | v :: vs, 0 => f v :: vs
  | v :: vs, n + 1 => v :: modifyAt f vs n

/-- A function applied to voice v. -/
def modifyVoice (v : Nat) (f : Voice → Voice) (s : State) : State :=
  { s with voices := modifyAt f s.voices v }

/-! ### Taking a fault and leaving the faulted state (60_exceptions R300 to R308) -/

/-- The fault codes (60_exceptions R300). -/
inductive FaultCode where
  | illegalCommand | notPrepared | paramUninit | paramNonfinite | badVoice
  | blockOverflow | badPrepare | notLatched | inputUninit | busError
deriving DecidableEq, Repr

/-- The code FAULT_CODE reads (60_exceptions R300). -/
def faultBits : FaultCode → BitVec 8
  | .illegalCommand => 1#8
  | .notPrepared => 2#8
  | .paramUninit => 3#8
  | .paramNonfinite => 4#8
  | .badVoice => 5#8
  | .blockOverflow => 6#8
  | .badPrepare => 7#8
  | .notLatched => 8#8
  | .inputUninit => 9#8
  | .busError => 10#8

/-- `raise Fault(code, info)` (60_exceptions R301) on the state the command started from: its changes are
discarded, and the fault is recorded unless one is recorded already (R307). -/
def raiseFault (code : FaultCode) (info : Word) (s : State) : State :=
  if s.ctl.faulted then s
  else { s with ctl := { s.ctl with faulted := true, faultCode := faultBits code, faultInfo := info } }

/-- The end of the faulted state, which only a successful PREPARE brings (60_exceptions R308). -/
def clearFault (c : Ctl) : Ctl := { c with faulted := false, faultCode := 0#8, faultInfo := 0#32 }

/-- What a command did: its next state, or the fault it raises. -/
abbrev CmdResult := Except (FaultCode × Word) State

/-- The state after a command that started from s (46_commands R295: all its effects or none). -/
def settle (s : State) : CmdResult → State
  | .ok t => t
  | .error (code, info) => raiseFault code info s

/-- The checks every command but PREPARE makes first (46_commands R291; 60_exceptions R304): ignored
while faulted, NOT_PREPARED before the first PREPARE. `t` is the state the command itself leads to. -/
def whenAccepted (w : Word) (s t : State) : State :=
  if s.ctl.faulted then s
  else if s.ctl.prepared then t
  else raiseFault .notPrepared w s

/-! ### Fields that hold no value (10_state: "unwritten"): free values (log 6)

Each PREPARE draws anew; a slot number tells the fields of one drawing apart. -/

/-- The slot of the field f of voice v. -/
def voiceSlot (v f : Nat) : Nat := 0x200000 + 0x100 * v + f

/-- The number of k, for slots. -/
def oscIndex : OscId → Nat
  | .k1 => 0
  | .k2 => 1
  | .k3 => 2
  | .k4 => 3

/-- A free waveform. -/
def freeWave (draw slot : Nat) : Wave := waveOfCode ((Config.freeWord draw slot).extractLsb' 0 2)

/-- A free filter mode. -/
def freeFmode (draw slot : Nat) : FMode := fmodeOfCode ((Config.freeWord draw slot).extractLsb' 0 2)

/-- A free bit. -/
def freeBool (draw slot : Nat) : Bool := (Config.freeWord draw slot).getLsbD 0

/-- Oscillator parameters that hold no value. -/
def freeOscParams (draw slot : Nat) : OscParams where
  wave := freeWave draw slot
  coarse := Config.freeNum draw (slot + 1)
  fine := Config.freeNum draw (slot + 2)
  gain := Config.freeNum draw (slot + 3)

/-- Envelope parameters that hold no value. -/
def freeEnvParams (draw slot : Nat) : EnvParams where
  a := Config.freeNum draw slot
  d := Config.freeNum draw (slot + 1)
  s := Config.freeNum draw (slot + 2)
  r := Config.freeNum draw (slot + 3)

/-- A snapshot that holds no value (10_state R33: "every field of P is unwritten"). -/
def freeSnapshot (draw : Nat) : Snapshot where
  algo := algoOfCode ((Config.freeWord draw 0x300000).extractLsb' 0 3)
  filtMode := freeFmode draw 0x300001
  filtEn := freeBool draw 0x300002
  filtCutoff := Config.freeNum draw 0x300003
  filtRes := Config.freeNum draw 0x300004
  vocEn := freeBool draw 0x300005
  vocSmooth := Config.freeNum draw 0x300006
  fenv := freeEnvParams draw 0x300010
  osc := Four.build fun k => freeOscParams draw (0x300020 + 4 * oscIndex k)
  env := Four.build fun k => freeEnvParams draw (0x300040 + 4 * oscIndex k)

end Sys2Proof.Machine
end

