-- ==== Sys2Proof/Machine/Flags.lean ====
section
/-! DEFINITION. The status views: predicates over the units and the words of the status registers. -/

namespace Sys2Proof.Machine

open Sys2Proof

/-- `env_is_active` (41_envelope R160). -/
def envIsActive (e : Env) : Bool := e.stage != .idle

/-- A voice is active when it is SOUNDING or RELEASING (10_state R28). -/
def voiceIsActive (v : Voice) : Bool := v.vstate != .idle

/-- STATUS (20_memory R66). -/
def statusWord (s : State) : Word :=
  s.ctl.pos ++ 0#13 ++ BitVec.ofBool s.ctl.latched ++ BitVec.ofBool s.ctl.prepared
    ++ BitVec.ofBool s.ctl.faulted

/-- The bits of the voices of a list, the first in bit 0. -/
def activeBits : List Voice → Nat
  | [] => 0
  | v :: vs => (if voiceIsActive v then 1 else 0) + 2 * activeBits vs

/-- VOICE_ACTIVE (20_memory R67). -/
def voiceActiveWord (s : State) : Word := BitVec.ofNat 32 (activeBits s.voices)

/-- FAULT_CODE (20_memory R65). -/
def faultCodeWord (s : State) : Word := 0#24 ++ s.ctl.faultCode

/-- MON_LEN (20_memory R65). -/
def monLenWord (s : State) : Word := 0#16 ++ s.ctl.monLen

/-- CFG_NUM_VOICES (20_memory R65). -/
def cfgNumVoicesWord (s : State) : Word := 0#27 ++ BitVec.ofNat 5 (numVoices s)

/-- CFG_MAX_BLOCK (20_memory R65). -/
def cfgMaxBlockWord (s : State) : Word := 0#17 ++ BitVec.ofNat 15 s.cfg.maxBlockHw

end Sys2Proof.Machine
end

