-- ==== Sys2Proof/Machine/Bus.lean ====
section
/-! DEFINITION. The host's bus accesses (20_memory R60 to R73; 46_commands R296, R297). -/

namespace Sys2Proof.Machine

open Sys2Proof

/-- The read-only status and configuration registers (20_memory R65). -/
inductive StatusReg where
  | status | faultCode | faultInfo | voiceActive | monFreq | monLen | cfgNumVoices | cfgMaxBlock
deriving DecidableEq, Repr

/-- What an address of the map names (20_memory R61). -/
inductive Target where
  | shadow (r : ShadowReg)
  | cmd
  | prepRate
  | prepMaxBlock
  | status (r : StatusReg)
  | input (c : Chan) (n : Nat)
  | output (c : Chan) (n : Nat)
  | monitor (n : Nat)
deriving DecidableEq, Repr

/-- The register at an address below 0x10000 (20_memory R62, R63, R65). -/
def registerAt (a : Nat) : Option Target :=
  if a = cmdAddr then some .cmd
  else if a = 0x104 then some .prepRate
  else if a = 0x108 then some .prepMaxBlock
  else if a = 0x10C then some (.status .status)
  else if a = 0x110 then some (.status .faultCode)
  else if a = 0x114 then some (.status .faultInfo)
  else if a = 0x118 then some (.status .voiceActive)
  else if a = 0x11C then some (.status .monFreq)
  else if a = 0x120 then some (.status .monLen)
  else if a = 0x124 then some (.status .cfgNumVoices)
  else if a = 0x128 then some (.status .cfgMaxBlock)
  else (shadowAt a).map .shadow

/-- The buffer element at an address: the region in bits [19:16], element offset / 4, which must be
below MAX_BLOCK_HW (20_memory R61). -/
def bufferAt (maxBlockHw a : Nat) : Option Target :=
  if a % 0x10000 / 4 < maxBlockHw then
    match a / 0x10000 with
    | 1 => some (.input .c0 (a % 0x10000 / 4))
    | 2 => some (.input .c1 (a % 0x10000 / 4))
    | 3 => some (.output .c0 (a % 0x10000 / 4))
    | 4 => some (.output .c1 (a % 0x10000 / 4))
    | 5 => some (.monitor (a % 0x10000 / 4))
    | _ => none
  else none

/-- What an access of the given width to an address reaches; `none` for a misaligned, non-32-bit or
unmapped access (20_memory R61, R69). -/
def locate (maxBlockHw bits a : Nat) : Option Target :=
  if bits ≠ 32 ∨ a % 4 ≠ 0 then none
  else if a < 0x10000 then registerAt a
  else bufferAt maxBlockHw a

/-- Whether a target takes writes (20_memory R62 to R65). -/
def isWritable : Target → Bool
  | .shadow _ => true
  | .cmd => true
  | .prepRate => true
  | .prepMaxBlock => true
  | .input _ _ => true
  | .status _ => false
  | .output _ _ => false
  | .monitor _ => false

/-- The word of a status or configuration register (20_memory R65 to R67; 46_commands R290). -/
def statusRegWord (s : State) : StatusReg → Word
  | .status => statusWord s
  | .faultCode => faultCodeWord s
  | .faultInfo => s.ctl.faultInfo
  | .voiceActive => voiceActiveWord s
  | .monFreq => s.ctl.monFreq.toWord
  | .monLen => monLenWord s
  | .cfgNumVoices => cfgNumVoicesWord s
  | .cfgMaxBlock => cfgMaxBlockWord s

/-- The word a read of a target returns (46_commands R296). Unspecified, and so a free value, are: an IN
element not written since PREPARE (10_state R36; log 8), an OUT element no FLUSH has written since
PREPARE, and a MON element at MON_LEN or above (20_memory R64; 10_state R37, R39; log 7). -/
def targetWord (s : State) : Target → Word
  | .shadow r => (s.shadow.get r).value
  | .cmd => 0#32
  | .prepRate => s.prepRate
  | .prepMaxBlock => 0#16 ++ s.prepMaxBlock
  | .status r => statusRegWord s r
  | .input c n =>
    if inWritten s c n || !s.ctl.prepared then inWord s c n
    else Config.freeWord s.draw (inBase c + 4 * n)
  | .output c n =>
    if n < s.outLen then readWord s.mem (outBase c + 4 * n)
    else Config.freeWord s.draw (outBase c + 4 * n)
  | .monitor n =>
    if n < s.ctl.monLen.toNat then readWord s.mem (monBase + 4 * n)
    else Config.freeWord s.draw (monBase + 4 * n)

/-- A failed access: BUS_ERROR with the byte address, the first fault kept (60_exceptions R305). -/
def busError (a : Addr) (s : State) : State := raiseFault .busError (a.setWidth 32) s

/-- `MemRead(a, 4)` (46_commands R296): the word the host gets stands in `rdata`; 0 from a failed read. -/
def busRead (bits : Nat) (a : Addr) (s : State) : State :=
  match locate s.cfg.maxBlockHw bits a.toNat with
  | some t => { s with rdata := targetWord s t }
  | none => { busError a s with rdata := 0#32 }

/-- Whether a write of the given width to an address is performed (46_commands R297). -/
def writeAccepted (bits : Nat) (a : Addr) (s : State) : Bool :=
  match locate s.cfg.maxBlockHw bits a.toNat with
  | some t => isWritable t
  | none => false

/-- A performed write that is no instruction of the table: the target takes the word (46_commands R297).
A write to CMD is an instruction and never comes here; read-only targets are not written. -/
def storeTarget (w : Word) (s : State) : Target → State
  | .shadow r => storeShadow r w s
  | .prepRate => { s with prepRate := w }
  | .prepMaxBlock => { s with prepMaxBlock := w.extractLsb' 0 16 }
  | .input c n => storeIn c n w s
  | .cmd => s
  | .status _ => s
  | .output _ _ => s
  | .monitor _ => s

/-- A performed write to a target found by its address. -/
def busStore (a : Addr) (w : Word) (s : State) : State :=
  match locate s.cfg.maxBlockHw 32 a.toNat with
  | some t => storeTarget w s t
  | none => s

end Sys2Proof.Machine
end

