-- ==== Sys2Proof/Machine/Operands.lean ====
section
/-! DEFINITION. Operands: the checks of command fields, the note frequency, and the conversion of
shadow register words into the snapshot. -/

namespace Sys2Proof.Machine

open Sys2Proof

/-! ### Command fields (30_encoding R98, R101) -/

/-- VOICE, checked against NUM_VOICES (30_encoding R101): BAD_VOICE with the command word. -/
def checkVoice (w : Word) (voice : BitVec 4) (s : State) : Except (FaultCode × Word) Nat :=
  if voice.toNat < numVoices s then .ok voice.toNat else .error (.badVoice, w)

/-- NOT_LATCHED with the command word (60_exceptions R300). -/
def checkLatched (w : Word) (s : State) : Except (FaultCode × Word) Unit :=
  if s.ctl.latched then .ok () else .error (.notLatched, w)

/-- `note_freq(n) = A4_FREQ * exp2((num(n) - 69.0) / 12.0)` (46_commands R279). -/
def noteFreq (cfg : Cfg) (note : BitVec 7) : Number :=
  cfg.numerics.mul cfg.a4Freq
    (cfg.numerics.exp2
      (cfg.numerics.div (cfg.numerics.sub (numOfNat note.toNat) cfg.a4Note) (numOfNat 12)))

/-! ### Conversion at LATCH (46_commands R273, R274; 10_state R33) -/

/-- A binary32 register's value after the clamp to [lo, hi] (46_commands R273); the word is converted
exactly. -/
def clampWord (nx : Numerics) (lo hi : Number) (w : Word) : Number := nx.clamp (.single w) lo hi

/-- Milliseconds to seconds, after the clamp to [lo, hi] ms. -/
def msToSec (nx : Numerics) (lo hi : Number) (w : Word) : Number :=
  nx.div (clampWord nx lo hi w) (numOfNat 1000)

/-- Decibels to linear gain, after the clamp to [-60, 0]. -/
def dbToGain (nx : Numerics) (w : Word) : Number :=
  nx.exp10 (nx.div (clampWord nx minusSixty zero w) (numOfNat 20))

/-- Percent to a fraction, after the clamp to [0, 100]. -/
def pctToFrac (nx : Numerics) (w : Word) : Number :=
  nx.div (clampWord nx zero (numOfNat 100) w) (numOfNat 100)

/-- The oscillator parameters of one block of registers. -/
def convertOsc (nx : Numerics) (b : OscShadow) : OscParams where
  wave := waveOfCode (b.wave.value.extractLsb' 0 2)
  coarse := clampWord nx half (numOfNat 16) b.coarse.value
  fine := clampWord nx zero (numOfNat 1000) b.fine.value
  gain := clampWord nx zero one b.gain.value

/-- The amplitude-envelope parameters of one block of registers. -/
def convertEnv (nx : Numerics) (b : OscShadow) : EnvParams where
  a := msToSec nx zero (numOfNat 2000) b.attackMs.value
  d := msToSec nx one (numOfNat 6000) b.decayMs.value
  s := dbToGain nx b.sustainDb.value
  r := msToSec nx one (numOfNat 6000) b.releaseMs.value

/-- The filter-envelope parameters; the range [0, 6000] ms is 92_eei_decisions D6. -/
def convertFenv (nx : Numerics) (b : Shadow) : EnvParams where
  a := msToSec nx zero (numOfNat 6000) b.fenvAttackMs.value
  d := msToSec nx zero (numOfNat 6000) b.fenvDecayMs.value
  s := pctToFrac nx b.fenvSustainPct.value
  r := msToSec nx zero (numOfNat 6000) b.fenvReleaseMs.value

/-- `convert(w)`: the snapshot of a local copy of the shadow registers (46_commands R272 to R274).
FILT_CUTOFF is clamped to [20, 20000] as the table of 10_state R33 prints it, also where the build-time
CUTOFF_MIN and CUTOFF_MAX differ, which 42_filter R181 applies at the filter: DESIGN CHOICE, log 24. -/
def convert (nx : Numerics) (b : Shadow) : Snapshot where
  algo := algoOfCode (b.algo.value.extractLsb' 0 3)
  filtMode := fmodeOfCode (b.filtMode.value.extractLsb' 0 2)
  filtEn := b.filtEn.value.getLsbD 0
  filtCutoff := clampWord nx (numOfNat 20) (numOfNat 20000) b.filtCutoff.value
  filtRes := clampWord nx one (numOfNat 10) b.filtRes.value
  vocEn := b.vocEn.value.getLsbD 0
  vocSmooth := clampWord nx (nx.num 1 100) half b.vocSmooth.value
  fenv := convertFenv nx b
  osc := b.osc.map (convertOsc nx)
  env := b.osc.map (convertEnv nx)

/-- A binary32 register whose word is NaN or an infinity (30_encoding R95). -/
def isNonfiniteReg (b : Shadow) (r : ShadowReg) : Bool :=
  regKind r == .binary32 && !isFinite (b.get r).value

/-- The checks of LATCH on its local copy, lowest address first (46_commands R272 steps 2 and 3). -/
def checkParams (b : Shadow) : Except (FaultCode × Word) Unit :=
  match shadowRegs.find? (fun r => !(b.get r).written) with
  | some r => .error (.paramUninit, BitVec.ofNat 32 (shadowAddr r))
  | none =>
    match shadowRegs.find? (isNonfiniteReg b) with
    | some r => .error (.paramNonfinite, BitVec.ofNat 32 (shadowAddr r))
    | none => .ok ()

/-! ### The reads of a LATCH (46_commands R276) -/

/-- The HOST_CTRL writes that land before the LATCH has made n + 1 reads, in the order they were issued
(20_memory R75 (a)), and those still to come. -/
def landBefore (n : Nat) : List CtrlWrite → Shadow → Shadow × List CtrlWrite
  | [], b => (b, [])
  | c :: cs, b => if c.after ≤ n then landBefore n cs (b.store c.reg c.data) else (b, c :: cs)

/-- The HOST_CTRL writes that land after the last read. -/
def landRest : List CtrlWrite → Shadow → Shadow
  | [], b => b
  | c :: cs, b => landRest cs (b.store c.reg c.data)

/-- The reads of the registers rs, the first of them read number n, into the local copy; the HOST_CTRL
writes land between them. Answers the local copy and the registers after the LATCH. -/
def latchReads : List ShadowReg → Nat → List CtrlWrite → Shadow → Shadow → Shadow × Shadow
  | [], _, cs, b, copy => (copy, landRest cs b)
  | r :: rs, n, cs, b, copy =>
    latchReads rs (n + 1) (landBefore n cs b).2 (landBefore n cs b).1
      (copy.set r ((landBefore n cs b).1.get r))

end Sys2Proof.Machine
end

