-- ==== Sys2Proof/Machine/Filter.lean ====
section
/-! DEFINITION. The state-variable filter (42_filter), one channel per filter. -/

namespace Sys2Proof.Machine

open Sys2Proof

/-- The cutoff in force: base + ev * (CUTOFF_MAX - base), clamped (42_filter R181). -/
def cutoffOf (cfg : Cfg) (base ev : Number) : Number :=
  cfg.numerics.clamp
    (cfg.numerics.add base (cfg.numerics.mul ev (cfg.numerics.sub cfg.cutoffMax base)))
    cfg.cutoffMin cfg.cutoffMax

/-- The coefficient g (42_filter R182). -/
def coefG (nx : Numerics) (fs fc : Number) : Number := nx.tan (nx.div (nx.mul nx.pi fc) fs)

/-- The coefficient R2 (42_filter R182). -/
def coefR2 (nx : Numerics) (res : Number) : Number := nx.div one res

/-- The coefficient h (42_filter R182). -/
def coefH (nx : Numerics) (g r2 : Number) : Number :=
  nx.div one (nx.add (nx.add one (nx.mul r2 g)) (nx.mul g g))

/-- The filter's coefficients computed from its fc and res (42_filter R182). -/
def filtCoefs (nx : Numerics) (fs : Number) (f : Filt) : Filt :=
  { f with
    g := coefG nx fs f.fc
    r2 := coefR2 nx f.res
    h := coefH nx (coefG nx fs f.fc) (coefR2 nx f.res) }

/-- `filt_update(f, mode, base, res, ev)` (42_filter R181): the integrators are unchanged. -/
def filtUpdate (cfg : Cfg) (fs : Number) (mode : FMode) (base res ev : Number) (f : Filt) : Filt :=
  filtCoefs cfg.numerics fs
    { f with
      mode := mode
      fc := cutoffOf cfg base ev
      res := cfg.numerics.clamp res one (numOfNat 10) }

/-- The high-pass output of one sample (42_filter R183). -/
def filtHP (nx : Numerics) (f : Filt) (x : Number) : Number :=
  nx.mul f.h (nx.sub (nx.sub x (nx.mul f.s1 (nx.add f.g f.r2))) f.s2)

/-- The band-pass output of one sample (42_filter R183). -/
def filtBP (nx : Numerics) (f : Filt) (x : Number) : Number := nx.add (nx.mul (filtHP nx f x) f.g) f.s1

/-- The low-pass output of one sample (42_filter R183). -/
def filtLP (nx : Numerics) (f : Filt) (x : Number) : Number := nx.add (nx.mul (filtBP nx f x) f.g) f.s2

/-- The filter after one sample: both integrators, in every mode alike (42_filter R183, R184). -/
def filtAdvance (nx : Numerics) (f : Filt) (x : Number) : Filt :=
  { f with
    s1 := nx.add (nx.mul (filtHP nx f x) f.g) (filtBP nx f x)
    s2 := nx.add (nx.mul (filtBP nx f x) f.g) (filtLP nx f x) }

/-- The output the mode selects (42_filter R184). -/
def filtOut (nx : Numerics) (f : Filt) (x : Number) : Number :=
  match f.mode with
  | .lp => filtLP nx f x
  | .bp => filtBP nx f x
  | .hp => filtHP nx f x

/-- `filt_process(f, c, x)` (42_filter R183): the filter after the sample, and its output. -/
def filtProcess (nx : Numerics) (f : Filt) (x : Number) : Filt × Number :=
  (filtAdvance nx f x, filtOut nx f x)

/-- The block path (42_filter R187): the filter after the samples, in ascending order. -/
def filtRun (nx : Numerics) : Filt → List Number → Filt
  | f, [] => f
  | f, x :: xs => filtRun nx (filtAdvance nx f x) xs

/-- The block path's outputs, in ascending order (42_filter R187). -/
def filtOutputs (nx : Numerics) : Filt → List Number → List Number
  | _, [] => []
  | f, x :: xs => filtOut nx f x :: filtOutputs nx (filtAdvance nx f x) xs

/-- `filt_reset(f)` (42_filter R185): the coefficients and the mode are unchanged. -/
def filtReset (f : Filt) : Filt := { f with s1 := zero, s2 := zero }

/-- A voice filter after PREPARE: the integrators 0, the rest unwritten (10_state R26; 46_commands
R271; log 6). -/
def filtPrepared (draw slot : Nat) : Filt where
  mode := freeFmode draw slot
  fc := Config.freeNum draw (slot + 1)
  res := Config.freeNum draw (slot + 2)
  g := Config.freeNum draw (slot + 3)
  r2 := Config.freeNum draw (slot + 4)
  h := Config.freeNum draw (slot + 5)
  s1 := zero
  s2 := zero

end Sys2Proof.Machine
end

