-- ==== Sys2Proof/Machine/Vocoder.lean ====
section
/-! DEFINITION. The vocoder (45_vocoder). -/

namespace Sys2Proof.Machine

open Sys2Proof

/-- A band filter after PREPARE: BP at the band's frequency, resonance VOC_Q, integrators 0
(45_vocoder R251; 46_commands R271). -/
def bandFilter (cfg : Cfg) (fs fc : Number) : Filt :=
  filtReset (filtUpdate cfg fs .bp fc cfg.vocQ zero Filt.powerOn)

/-- Band b after PREPARE (10_state R29, R38; 46_commands R271). -/
def bandPrepared (cfg : Cfg) (fs : Number) (b : Nat) : Band where
  fc := bandFreq cfg b
  sm := zero
  fm := bandFilter cfg fs (bandFreq cfg b)
  fcar := ⟨bandFilter cfg fs (bandFreq cfg b), bandFilter cfg fs (bandFreq cfg b)⟩

/-- The ascending sum of absolute values, from 0.0 (45_vocoder R252). -/
def sumAbs (nx : Numerics) (xs : List Number) : Number := xs.foldl (fun acc y => nx.add acc (nx.abs y)) zero

/-- The raw band envelope: the mean absolute value of the modulator through the band's filter
(45_vocoder R252). -/
def bandRaw (nx : Numerics) (f : Filt) (modulator : List Number) : Number :=
  nx.div (sumAbs nx (filtOutputs nx f modulator)) (numOfNat modulator.length)

/-- The smoothed band envelope: f * previous + (1 - f) * raw (45_vocoder R252, R261). -/
def smooth (nx : Numerics) (f previous raw : Number) : Number :=
  nx.add (nx.mul f previous) (nx.mul (nx.sub one f) raw)

/-- A band after a block (45_vocoder R252): its envelope, and its three filters run. -/
def bandAdvance (nx : Numerics) (f : Number) (modulator : List Number) (car : Two (List Number)) (b : Band) :
    Band :=
  { b with
    sm := smooth nx f b.sm (bandRaw nx b.fm modulator)
    fm := filtRun nx b.fm modulator
    fcar := ⟨filtRun nx b.fcar.c0 car.c0, filtRun nx b.fcar.c1 car.c1⟩ }

/-- The band gain of a block: the new smoothed envelope times VOC_GAIN (45_vocoder R252). -/
def bandGain (cfg : Cfg) (f : Number) (modulator : List Number) (b : Band) : Number :=
  cfg.numerics.mul (smooth cfg.numerics f b.sm (bandRaw cfg.numerics b.fm modulator)) cfg.vocGain

/-- An element of OUT with a contribution added: OUT holds a binary32 word, which is converted exactly
when read and rounded when stored (45_vocoder R252; 46_commands R290; log 25). -/
def addToOut (nx : Numerics) (out : Word) (y : Number) : Word := (nx.add (.single out) y).toWord

/-- A channel's output with a band's contribution added: its carrier filter's output times the gain
(45_vocoder R252). -/
def addBand (nx : Numerics) (gain : Number) (f : Filt) (car : List Number) (out : List Word) : List Word :=
  List.zipWith (fun o y => addToOut nx o (nx.mul y gain)) out (filtOutputs nx f car)

/-- The bands in ascending order, each adding its contribution to both channels (45_vocoder R252). -/
def vocOut (cfg : Cfg) (f : Number) (modulator : List Number) (car : Two (List Number)) :
    List Band → Two (List Word) → Two (List Word)
  | [], out => out
  | b :: bs, out =>
    vocOut cfg f modulator car bs
      ⟨addBand cfg.numerics (bandGain cfg f modulator b) b.fcar.c0 car.c0 out.c0,
       addBand cfg.numerics (bandGain cfg f modulator b) b.fcar.c1 car.c1 out.c1⟩

/-- `voc_process(N)` (45_vocoder R252): the bands after the block. -/
def vocBands (nx : Numerics) (f : Number) (modulator : List Number) (car : Two (List Number))
    (bands : List Band) : List Band :=
  bands.map (bandAdvance nx f modulator car)

/-- `voc_process(N)` (45_vocoder R252): the words of the two output channels, summed from a cleared
buffer. -/
def vocProcess (cfg : Cfg) (f : Number) (modulator : List Number) (car : Two (List Number))
    (bands : List Band) : Two (List Word) :=
  vocOut cfg f modulator car bands
    ⟨List.replicate modulator.length 0#32, List.replicate modulator.length 0#32⟩

end Sys2Proof.Machine
end

