-- ==== Sys2Proof/Machine/Envelope.lean ====
section
/-! DEFINITION. The envelope generator (41_envelope). -/

namespace Sys2Proof.Machine

open Sys2Proof

/-- `env_rate(dist, t)` (41_envelope R151). -/
def envRate (nx : Numerics) (fs dist t : Number) : Rate :=
  if nx.lt zero t then .step (nx.div dist (nx.mul t fs)) else .instant

/-- `env_update(e, A, D, S, R)` (41_envelope R152): stage, level and rate are unchanged. -/
def envUpdate (p : EnvParams) (e : Env) : Env := { e with a := p.a, d := p.d, s := p.s, r := p.r }

/-- `env_note_on(e)` (41_envelope R153): the level is kept. -/
def envNoteOn (nx : Numerics) (fs : Number) (e : Env) : Env :=
  { e with stage := .attack, rate := envRate nx fs one e.a }

/-- `env_note_off(e)` (41_envelope R154). -/
def envNoteOff (nx : Numerics) (fs : Number) (e : Env) : Env :=
  if e.stage = .idle then e
  else { e with stage := .release, rate := envRate nx fs e.level e.r }

/-- The level one step above: at once, or by the rate. -/
def stepUp (nx : Numerics) (target : Number) (e : Env) : Number :=
  match e.rate with
  | .instant => target
  | .step x => nx.add e.level x

/-- The level one step below: at once, or by the rate. -/
def stepDown (nx : Numerics) (target : Number) (e : Env) : Number :=
  match e.rate with
  | .instant => target
  | .step x => nx.sub e.level x

/-- The ATTACK step (41_envelope R156); its end enters DECAY. -/
def attackStep (nx : Numerics) (fs : Number) (e : Env) : Env :=
  if nx.le one (stepUp nx one e) then
    { e with level := one, stage := .decay, rate := envRate nx fs (nx.sub one e.s) e.d }
  else { e with level := stepUp nx one e }

/-- The DECAY step (41_envelope R157). -/
def decayStep (nx : Numerics) (e : Env) : Env :=
  if nx.le (stepDown nx e.s e) e.s then { e with level := e.s, stage := .sustain }
  else { e with level := stepDown nx e.s e }

/-- The SUSTAIN step (41_envelope R158). -/
def sustainStep (e : Env) : Env := { e with level := e.s }

/-- The RELEASE step (41_envelope R159). -/
def releaseStep (nx : Numerics) (e : Env) : Env :=
  if nx.le (stepDown nx zero e) zero then { e with level := zero, stage := .idle }
  else { e with level := stepDown nx zero e }

/-- `env_next(e)` (41_envelope R155): the envelope after one sample. -/
def envNext (nx : Numerics) (fs : Number) (e : Env) : Env :=
  match e.stage with
  | .idle => e
  | .attack => attackStep nx fs e
  | .decay => decayStep nx e
  | .sustain => sustainStep e
  | .release => releaseStep nx e

/-- The value `env_next` returns for an envelope that was in stage `before` and is now e: the new
level, or 0.0 in IDLE (41_envelope R155, R161). -/
def envOut (before : Stage) (e : Env) : Number := if before = .idle then zero else e.level

/-- An envelope after PREPARE (10_state R24; 46_commands R271). -/
def envPrepared (p : EnvParams) : Env where
  a := p.a
  d := p.d
  s := p.s
  r := p.r
  stage := .idle
  level := zero
  rate := .step zero

end Sys2Proof.Machine
end

