-- ==== Sys2Proof/Machine/Oscillator.lean ====
section
/-! DEFINITION. The oscillator (40_oscillator). -/

namespace Sys2Proof.Machine

open Sys2Proof

/-- `osc_set_freq(o)` (40_oscillator R121): the increment recomputed; the phase and the modulation
history are unchanged. -/
def oscSetFreq (cfg : Cfg) (fs : Number) (o : Osc) : Osc :=
  { o with
    inc := cfg.numerics.mul
      (cfg.numerics.div
        (cfg.numerics.mul o.base (cfg.numerics.add o.coarse (cfg.numerics.mul o.fine cfg.fineScale)))
        fs)
      cfg.numerics.twoPi }

/-- `osc_note_on(o, f)` (40_oscillator R122). -/
def oscNoteOn (cfg : Cfg) (fs f : Number) (o : Osc) : Osc :=
  { oscSetFreq cfg fs { o with base := f } with phase := zero, hp := zero, prevIn := zero }

/-- The third line of `wrap`: the guard of 92_eei_decisions D9. -/
def wrapGuard (nx : Numerics) (r : Number) : Number := if nx.le nx.twoPi r then zero else r

/-- `wrap(p)` (40_oscillator R124). -/
def wrap (nx : Numerics) (p : Number) : Number :=
  let r := nx.fmod p nx.twoPi
  wrapGuard nx (if nx.lt r zero then nx.add r nx.twoPi else r)

/-- SINE (40_oscillator R126). -/
def waveSineAt (nx : Numerics) (p : Number) : Number := nx.sin p

/-- SAW (40_oscillator R127). -/
def waveSawAt (nx : Numerics) (p : Number) : Number := nx.sub one (nx.mul two (nx.div p nx.twoPi))

/-- SQUARE (40_oscillator R128). -/
def waveSquareAt (nx : Numerics) (p : Number) : Number := if nx.lt p nx.pi then one else minusOne

/-- TRIANGLE (40_oscillator R129). -/
def waveTriangleAt (nx : Numerics) (p : Number) : Number := nx.mul (nx.div two nx.pi) (nx.asin (nx.sin p))

/-- `wave(w, p)` (40_oscillator R126 to R129). -/
def waveAt (nx : Numerics) (w : Wave) (p : Number) : Number :=
  match w with
  | .sine => waveSineAt nx p
  | .saw => waveSawAt nx p
  | .square => waveSquareAt nx p
  | .triangle => waveTriangleAt nx p

/-- Steps 1 to 3 of `osc_render` (40_oscillator R123): the DC blocker, and the phase advanced by the
increment and the frequency-modulation term, then wrapped. -/
def oscAdvance (cfg : Cfg) (fs m : Number) (o : Osc) : Osc :=
  let nx := cfg.numerics
  let hp := nx.mul (dcbAlpha cfg fs) (nx.sub (nx.add o.hp m) o.prevIn)
  { o with
    hp := hp
    prevIn := m
    phase := wrap nx (nx.add o.phase (nx.add o.inc (nx.mul hp cfg.modIndex))) }

/-- Steps 4 and 5 of `osc_render`: the waveform at the phase, scaled by gain and envelope. -/
def oscOutput (nx : Numerics) (e : Number) (o : Osc) : Number :=
  nx.mul (nx.mul (waveAt nx o.wave o.phase) o.gain) e

/-- `osc_render(o, m, e)` (40_oscillator R123): the oscillator after one sample, and its output. -/
def oscRender (cfg : Cfg) (fs m e : Number) (o : Osc) : Osc × Number :=
  (oscAdvance cfg fs m o, oscOutput cfg.numerics e (oscAdvance cfg fs m o))

/-- The parameters LATCH writes into an oscillator, and its new increment (46_commands R275;
40_oscillator R131). -/
def oscApply (cfg : Cfg) (fs : Number) (p : OscParams) (o : Osc) : Osc :=
  oscSetFreq cfg fs { o with wave := p.wave, coarse := p.coarse, fine := p.fine, gain := p.gain }

/-- An oscillator after PREPARE (10_state R22; 46_commands R271). -/
def oscPrepared (p : OscParams) : Osc where
  wave := p.wave
  base := zero
  coarse := p.coarse
  fine := p.fine
  gain := p.gain
  phase := zero
  inc := zero
  hp := zero
  prevIn := zero

end Sys2Proof.Machine
end

