-- ==== Sys2Proof/Machine/Router.lean ====
section
/-! DEFINITION. The algorithm router (43_router). -/

namespace Sys2Proof.Machine

open Sys2Proof

/-- The modulation input of oscillator 3 (43_router R202 to R209: m3), from o4. -/
def mod3 (a : Algo) (o4 : Number) : Number :=
  match a with
  | .a0 => o4
  | .a1 => zero
  | .a2 => o4
  | .a3 => o4
  | .a4 => zero
  | .a5 => o4
  | .a6 => zero
  | .a7 => zero

/-- The modulation input of oscillator 2 (43_router R202 to R209: m2), from o4 and o3. -/
def mod2 (nx : Numerics) (a : Algo) (o4 o3 : Number) : Number :=
  match a with
  | .a0 => o3
  | .a1 => nx.add o4 o3
  | .a2 => o4
  | .a3 => o3
  | .a4 => zero
  | .a5 => o4
  | .a6 => nx.add o4 o3
  | .a7 => zero

/-- The modulation input of oscillator 1 (43_router R202 to R209: m1), from o4, o3 and o2. -/
def mod1 (nx : Numerics) (a : Algo) (o4 o3 o2 : Number) : Number :=
  match a with
  | .a0 => o2
  | .a1 => o2
  | .a2 => nx.add o3 o2
  | .a3 => o3
  | .a4 => nx.add (nx.add o4 o3) o2
  | .a5 => o4
  | .a6 => nx.add o4 o3
  | .a7 => zero

/-- The combination of the outputs (43_router R202 to R209, R211). -/
def combine (nx : Numerics) (a : Algo) (o4 o3 o2 o1 : Number) : Number :=
  match a with
  | .a0 => o1
  | .a1 => o1
  | .a2 => o1
  | .a3 => nx.div (nx.add o2 o1) two
  | .a4 => o1
  | .a5 => nx.div (nx.add (nx.add o3 o2) o1) three
  | .a6 => nx.div (nx.add o2 o1) two
  | .a7 => nx.mul (nx.add (nx.add (nx.add o4 o3) o2) o1) quarter

/-- `route(v, a, e1..e4)` (43_router R200, R201): oscillators 4, 3, 2, 1 each rendered once, in that
order, and the combination of their outputs. Oscillator 4 has modulation input 0.0 in every row. -/
def route (cfg : Cfg) (fs : Number) (a : Algo) (e : Four Number) (o : Four Osc) : Four Osc × Number :=
  let r4 := oscRender cfg fs zero e.k4 o.k4
  let r3 := oscRender cfg fs (mod3 a r4.2) e.k3 o.k3
  let r2 := oscRender cfg fs (mod2 cfg.numerics a r4.2 r3.2) e.k2 o.k2
  let r1 := oscRender cfg fs (mod1 cfg.numerics a r4.2 r3.2 r2.2) e.k1 o.k1
  (⟨r1.1, r2.1, r3.1, r4.1⟩, combine cfg.numerics a r4.2 r3.2 r2.2 r1.2)

end Sys2Proof.Machine
end

