-- ==== Sys2Proof/Machine/Voice.lean ====
section
/-! DEFINITION. The voice (44_voice). -/

namespace Sys2Proof.Machine

open Sys2Proof

/-- `voice_note_on(v, f)` (44_voice R222, R223). -/
def voiceNoteOn (cfg : Cfg) (fs f : Number) (v : Voice) : Voice where
  freq := f
  osc := v.osc.map (oscNoteOn cfg fs f)
  filt := if cfg.filterResetOnNoteOn then filtReset v.filt else v.filt
  env := v.env.map (envNoteOn cfg.numerics fs)
  envF := envNoteOn cfg.numerics fs v.envF
  vstate := .sounding

/-- `voice_note_off(v, tail)` (44_voice R224 to R226): RELEASING with a tail, IDLE at once without; no
effect on an idle voice. -/
def voiceNoteOff (nx : Numerics) (fs : Number) (tail : Bool) (v : Voice) : Voice :=
  if v.vstate = .idle then v
  else
    { v with
      env := v.env.map (envNoteOff nx fs)
      envF := envNoteOff nx fs v.envF
      vstate := if tail then .releasing else .idle }

/-- The four amplitude-envelope values of a sample, given the envelopes before and after it. -/
def envValues (before after : Four Env) : Four Number :=
  Four.build fun k => envOut (before.get k).stage (after.get k)

/-- The filter of a rendered sample with input r: updated, then run, when the snapshot enables it
(44_voice R229; 42_filter R188). -/
def voiceFilter (cfg : Cfg) (fs : Number) (p : Snapshot) (ef r : Number) (f : Filt) : Filt × Number :=
  if p.filtEn then
    filtProcess cfg.numerics (filtUpdate cfg fs p.filtMode p.filtCutoff p.filtRes ef f) r
  else (f, r)

/-- `voice_render(v)` (44_voice R229 to R232): the voice after one sample, and the sample. -/
def voiceRender (cfg : Cfg) (fs : Number) (p : Snapshot) (v : Voice) : Voice × Number :=
  let env := v.env.map (envNext cfg.numerics fs)
  let envF := envNext cfg.numerics fs v.envF
  let routed := route cfg fs p.algo (envValues v.env env) v.osc
  let filtered := voiceFilter cfg fs p (envOut v.envF.stage envF) routed.2 v.filt
  ({ v with
      env := env
      envF := envF
      osc := routed.1
      filt := filtered.1
      vstate := if env.k1.stage = .idle then .idle else v.vstate },
    cfg.numerics.mul cfg.trim filtered.2)

/-- One sample of all voices (46_commands R283): idle voices are skipped, the others rendered in
ascending index, each adding its sample to both carrier sums. -/
def mixVoices (cfg : Cfg) (fs : Number) (p : Snapshot) : List Voice → Two Number → List Voice × Two Number
  | [], acc => ([], acc)
  | v :: vs, acc =>
    if voiceIsActive v then
      let r := voiceRender cfg fs p v
      let rest := mixVoices cfg fs p vs ⟨cfg.numerics.add acc.c0 r.2, cfg.numerics.add acc.c1 r.2⟩
      (r.1 :: rest.1, rest.2)
    else
      let rest := mixVoices cfg fs p vs acc
      (v :: rest.1, rest.2)

/-- `apply_to_voices()` for one voice (46_commands R275). -/
def voiceApply (cfg : Cfg) (fs : Number) (p : Snapshot) (v : Voice) : Voice :=
  { v with
    osc := Four.build fun k => oscApply cfg fs (p.osc.get k) (v.osc.get k)
    env := Four.build fun k => envUpdate (p.env.get k) (v.env.get k)
    envF := envUpdate p.fenv v.envF }

/-- Voice number v after PREPARE (10_state R22 to R27; 46_commands R271; log 6). -/
def voicePrepared (draw v : Nat) : Voice where
  osc := Four.build fun k => oscPrepared (freeOscParams draw (voiceSlot v (4 * oscIndex k)))
  env := Four.build fun k => envPrepared (freeEnvParams draw (voiceSlot v (0x20 + 4 * oscIndex k)))
  envF := envPrepared (freeEnvParams draw (voiceSlot v 0x40))
  filt := filtPrepared draw (voiceSlot v 0x50)
  vstate := .idle
  freq := zero

end Sys2Proof.Machine
end

