-- ==== Sys2Proof/Machine/Commands.lean ====
section
/-! DEFINITION. The commands (46_commands): one meaning for each, over the units' operations. A fault is
a next state in which it is recorded (60_exceptions R301). -/

namespace Sys2Proof.Machine

open Sys2Proof

/-- The outcome of an instruction: every one of this block answers a next state. -/
abbrev Result := Host.Outcome State Fault Refusal

/-! ### PREPARE -/

/-- The check of PREPARE (46_commands R270): false for a NaN rate. -/
def prepareOk (s : State) : Bool :=
  flt fsMinExcl s.prepRate && fle s.prepRate fsMax
    && decide (1 ≤ s.prepMaxBlock.toNat) && decide (s.prepMaxBlock.toNat ≤ s.cfg.maxBlockHw)

/-- The control fields after PREPARE (46_commands R270, R271). -/
def ctlPrepared (s : State) : Ctl :=
  clearFault
    { s.ctl with
      fs := .single s.prepRate
      maxBlock := s.prepMaxBlock
      prepared := true
      latched := false
      pos := 0#16
      monLen := 0#16
      monFreq := zero }

/-- The state after a successful PREPARE (46_commands R270, R271; 70_reset R331). The shadow registers,
PREP_RATE, PREP_MAXBLOCK and the stored words of IN, OUT and MON are not changed; what a read of IN
then returns is free (10_state R36; `targetWord`). -/
def prepareState (s : State) : State :=
  { s with
    ctl := ctlPrepared s
    voices := (List.range (numVoices s)).map (voicePrepared s.draw)
    bands := (List.range s.cfg.vocBands).map (bandPrepared s.cfg (.single s.prepRate))
    snap := freeSnapshot s.draw
    inW := ⟨[], []⟩
    car := ⟨[], []⟩
    outLen := 0
    draw := s.draw + 1 }

/-- PREPARE (46_commands R270); the one command accepted while faulted (60_exceptions R302). -/
def execPrepare (s : State) : Result :=
  .next (settle s
    (if prepareOk s then .ok (prepareState s) else .error (.badPrepare, instrWord .prepare)))

/-! ### LATCH -/

/-- The local copy a LATCH reads, and the registers after it (46_commands R272, R276). -/
def latchCopy (s : State) : Shadow × Shadow := latchReads shadowRegs 0 s.ctrl s.shadow s.shadow

/-- The state with the HOST_CTRL writes that overlap the LATCH landed. They are no changes of the
command's, so a fault does not discard them (60_exceptions R301). -/
def latchLanded (s : State) : State := { s with shadow := (latchCopy s).2, ctrl := [] }

/-- The state after a LATCH that succeeds with the snapshot p (46_commands R272, R275). -/
def latchState (p : Snapshot) (s : State) : State :=
  { s with
    snap := p
    voices := s.voices.map (voiceApply s.cfg s.ctl.fs p)
    ctl := { s.ctl with latched := true } }

/-- The checks and effects of LATCH on its local copy (46_commands R272). -/
def latchBody (copy : Shadow) (s : State) : CmdResult :=
  match checkParams copy with
  | .error e => .error e
  | .ok _ => .ok (latchState (convert s.cfg.numerics copy) s)

/-- LATCH (46_commands R272). -/
def execLatch (s : State) : Result :=
  .next (whenAccepted (instrWord .latch) s
    (settle (latchLanded s) (latchBody (latchCopy s).1 (latchLanded s))))

/-! ### Notes and filter reset -/

/-- A command on one voice: BAD_VOICE, then NOT_LATCHED, then its effect (46_commands R278, R280, R281). -/
def voiceCommand (w : Word) (voice : BitVec 4) (s : State) (effect : Nat → State) : CmdResult :=
  match checkVoice w voice s with
  | .error e => .error e
  | .ok v =>
    match checkLatched w s with
    | .error e => .error e
    | .ok _ => .ok (effect v)

/-- The state after NOTE_ON of voice v at frequency f (46_commands R278). -/
def noteOnState (v : Nat) (f : Number) (s : State) : State :=
  { modifyVoice v (voiceNoteOn s.cfg s.ctl.fs f) s with ctl := { s.ctl with monFreq := f } }

/-- NOTE_ON (46_commands R278). VEL is decoded and ignored. -/
def execNoteOn (vel note : BitVec 7) (voice : BitVec 4) (s : State) : Result :=
  let w := instrWord (.noteOn vel note voice)
  .next (whenAccepted w s
    (settle s (voiceCommand w voice s fun v => noteOnState v (noteFreq s.cfg note) s)))

/-- NOTE_OFF (46_commands R280). VEL is decoded and ignored. -/
def execNoteOff (vel : BitVec 7) (tail : Bool) (voice : BitVec 4) (s : State) : Result :=
  let w := instrWord (.noteOff vel tail voice)
  .next (whenAccepted w s
    (settle s (voiceCommand w voice s fun v => modifyVoice v (voiceNoteOff s.cfg.numerics s.ctl.fs tail) s)))

/-- FILTER_RESET (46_commands R281). -/
def execFilterReset (voice : BitVec 4) (s : State) : Result :=
  let w := instrWord (.filterReset voice)
  .next (whenAccepted w s
    (settle s (voiceCommand w voice s fun v =>
      modifyVoice v (fun x => { x with filt := filtReset x.filt }) s)))

/-! ### RENDER -/

/-- One sample of `render_loop` at block index i (46_commands R283). -/
def renderSample (i : Nat) (s : State) : State :=
  let r := mixVoices s.cfg s.ctl.fs s.snap s.voices ⟨carGet s .c0 i, carGet s .c1 i⟩
  { s with
    voices := r.1
    car := ⟨sparseSet zero s.car.c0 i r.2.c0, sparseSet zero s.car.c1 i r.2.c1⟩ }

/-- `render_loop(k)` from block index i on (46_commands R283). -/
def renderLoop : Nat → Nat → State → State
  | 0, _, s => s
  | k + 1, i, s => renderLoop k (i + 1) (renderSample i s)

/-- The state after RENDER of k samples (46_commands R282 to R284). -/
def renderState (count : BitVec 16) (s : State) : State :=
  let t := renderLoop count.toNat s.ctl.pos.toNat s
  { t with ctl := { t.ctl with pos := s.ctl.pos + count } }

/-- The checks and effects of RENDER (46_commands R282): integers are exact (00_scope R12). -/
def renderBody (w : Word) (count : BitVec 16) (s : State) : CmdResult :=
  match checkLatched w s with
  | .error e => .error e
  | .ok _ =>
    if s.ctl.maxBlock.toNat < s.ctl.pos.toNat + count.toNat then .error (.blockOverflow, w)
    else .ok (renderState count s)

/-- RENDER (46_commands R282). -/
def execRender (count : BitVec 16) (s : State) : Result :=
  .next (whenAccepted (instrWord (.render count)) s
    (settle s (renderBody (instrWord (.render count)) count s)))

/-! ### FLUSH -/

/-- N, the block length of a FLUSH (46_commands R285). -/
def blockLen (s : State) : Nat := s.ctl.pos.toNat

/-- The modulator of the block: IN[0][0..N-1] (45_vocoder R252). -/
def modulatorOf (s : State) : List Number := (List.range (blockLen s)).map (inSample s .c0)

/-- The carrier of the block on both channels: car[c][0..N-1]. -/
def carrierOf (s : State) : Two (List Number) :=
  ⟨(List.range (blockLen s)).map (carGet s .c0), (List.range (blockLen s)).map (carGet s .c1)⟩

/-- The output of the block as stored (46_commands R286, R290): the vocoder's, or the carrier copied
through. -/
def blockOut (s : State) : Two (List Word) :=
  if s.snap.vocEn then vocProcess s.cfg s.snap.vocSmooth (modulatorOf s) (carrierOf s) s.bands
  else ⟨(carrierOf s).c0.map Number.toWord, (carrierOf s).c1.map Number.toWord⟩

/-- The bands after the block: unchanged while the vocoder is disabled (45_vocoder R256). -/
def blockBands (s : State) : List Band :=
  if s.snap.vocEn then
    vocBands s.cfg.numerics s.snap.vocSmooth (modulatorOf s) (carrierOf s) s.bands
  else s.bands

/-- OUT[0], OUT[1] and MON written with the block's output (46_commands R286, R287). -/
def blockMem (s : State) : Memory :=
  writeWords
    (writeWords (writeWords s.mem (outBase .c0) (blockOut s).c0) (outBase .c1) (blockOut s).c1)
    monBase (blockOut s).c0

/-- One channel of the carrier with elements 0..N-1 cleared (46_commands R288). -/
def clearCarrier (n : Nat) (car : List (Nat × Number)) : List (Nat × Number) :=
  sparseFill zero car 0 (List.replicate n zero)

/-- The state after a FLUSH (46_commands R286 to R288). An empty block changes nothing
(45_vocoder R255). -/
def flushState (s : State) : State :=
  if blockLen s = 0 then s
  else
    { s with
      bands := blockBands s
      mem := blockMem s
      car := ⟨clearCarrier (blockLen s) s.car.c0, clearCarrier (blockLen s) s.car.c1⟩
      ctl := { s.ctl with pos := 0#16, monLen := s.ctl.pos }
      outLen := max s.outLen (blockLen s)
      draw := s.draw + 1 }

/-- The lowest n < N with inW[0][n] false (46_commands R285). -/
def firstUnwritten (s : State) : Option Nat :=
  (List.range (blockLen s)).find? (fun n => !inWritten s .c0 n)

/-- The checks and effects of FLUSH (46_commands R285). -/
def flushBody (w : Word) (s : State) : CmdResult :=
  match checkLatched w s with
  | .error e => .error e
  | .ok _ =>
    if s.snap.vocEn then
      match firstUnwritten s with
      | some n => .error (.inputUninit, BitVec.ofNat 32 (inBase .c0 + 4 * n))
      | none => .ok (flushState s)
    else .ok (flushState s)

/-- FLUSH (46_commands R285). -/
def execFlush (s : State) : Result :=
  .next (whenAccepted (instrWord .flush) s (settle s (flushBody (instrWord .flush) s)))

/-! ### Illegal words -/

/-- An illegal command word (30_encoding R100; 60_exceptions R304): ignored while faulted, else
ILLEGAL_COMMAND with the word, before any other check. -/
def execIllegal (w : Word) (s : State) : Result := .next (raiseFault .illegalCommand w s)

end Sys2Proof.Machine
end

