-- ==== Sys2Proof/Machine/Selectors.lean ====
section
/-! DEFINITION. The selector rows: a write of a code to its selector register (30_encoding R91 to R93).
Each stores the code and sets the written flag; the datapath sees it at the next LATCH (20_memory R62),
where it selects the waveform (40_oscillator R126 to R129), the filter output (42_filter R184) or the
topology (43_router R202 to R209). -/

namespace Sys2Proof.Machine

open Sys2Proof

/-- WAVE.SINE (30_encoding R91; 40_oscillator R126). -/
def execWaveSine (k : OscId) (s : State) : Result := .next (storeShadow (.osc k .wave) 0#32 s)

/-- WAVE.SAW (30_encoding R91; 40_oscillator R127). -/
def execWaveSaw (k : OscId) (s : State) : Result := .next (storeShadow (.osc k .wave) 1#32 s)

/-- WAVE.SQUARE (30_encoding R91; 40_oscillator R128). -/
def execWaveSquare (k : OscId) (s : State) : Result := .next (storeShadow (.osc k .wave) 2#32 s)

/-- WAVE.TRIANGLE (30_encoding R91; 40_oscillator R129). -/
def execWaveTriangle (k : OscId) (s : State) : Result := .next (storeShadow (.osc k .wave) 3#32 s)

/-- FMODE.LP (30_encoding R92; 42_filter R184). -/
def execFmodeLp (s : State) : Result := .next (storeShadow .filtMode 0#32 s)

/-- FMODE.BP (30_encoding R92; 42_filter R184). -/
def execFmodeBp (s : State) : Result := .next (storeShadow .filtMode 1#32 s)

/-- FMODE.HP (30_encoding R92; 42_filter R184). -/
def execFmodeHp (s : State) : Result := .next (storeShadow .filtMode 2#32 s)

/-- FMODE.RESERVED_WARL (30_encoding R92): stored and read back as 0, LP. -/
def execFmodeReserved (s : State) : Result := .next (storeShadow .filtMode 3#32 s)

/-- ALGO.0 (30_encoding R93; 43_router R202). -/
def execAlgo0 (s : State) : Result := .next (storeShadow .algo 0#32 s)

/-- ALGO.1 (30_encoding R93; 43_router R203). -/
def execAlgo1 (s : State) : Result := .next (storeShadow .algo 1#32 s)

/-- ALGO.2 (30_encoding R93; 43_router R204). -/
def execAlgo2 (s : State) : Result := .next (storeShadow .algo 2#32 s)

/-- ALGO.3 (30_encoding R93; 43_router R205). -/
def execAlgo3 (s : State) : Result := .next (storeShadow .algo 3#32 s)

/-- ALGO.4 (30_encoding R93; 43_router R206). -/
def execAlgo4 (s : State) : Result := .next (storeShadow .algo 4#32 s)

/-- ALGO.5 (30_encoding R93; 43_router R207). -/
def execAlgo5 (s : State) : Result := .next (storeShadow .algo 5#32 s)

/-- ALGO.6 (30_encoding R93; 43_router R208). -/
def execAlgo6 (s : State) : Result := .next (storeShadow .algo 6#32 s)

/-- ALGO.7 (30_encoding R93; 43_router R209). -/
def execAlgo7 (s : State) : Result := .next (storeShadow .algo 7#32 s)

end Sys2Proof.Machine
end

