-- ==== Sys2Proof/Machine/Dispatch.lean ====
section
/-! DEFINITION. The dispatch of an instruction to its meaning. -/

namespace Sys2Proof.Machine

open Sys2Proof

def exec (i : Instr) (s : State) : Host.Outcome State Fault Refusal :=
  match i with
  | .prepare => Sys2Proof.Machine.execPrepare s
  | .latch => Sys2Proof.Machine.execLatch s
  | .noteOn vel note voice => Sys2Proof.Machine.execNoteOn vel note voice s
  | .noteOff vel tail voice => Sys2Proof.Machine.execNoteOff vel tail voice s
  | .render count => Sys2Proof.Machine.execRender count s
  | .flush => Sys2Proof.Machine.execFlush s
  | .filterReset voice => Sys2Proof.Machine.execFilterReset voice s
  | .waveSine k => Sys2Proof.Machine.execWaveSine k s
  | .waveSaw k => Sys2Proof.Machine.execWaveSaw k s
  | .waveSquare k => Sys2Proof.Machine.execWaveSquare k s
  | .waveTriangle k => Sys2Proof.Machine.execWaveTriangle k s
  | .fmodeLp => Sys2Proof.Machine.execFmodeLp s
  | .fmodeBp => Sys2Proof.Machine.execFmodeBp s
  | .fmodeHp => Sys2Proof.Machine.execFmodeHp s
  | .fmodeReserved => Sys2Proof.Machine.execFmodeReserved s
  | .algo0 => Sys2Proof.Machine.execAlgo0 s
  | .algo1 => Sys2Proof.Machine.execAlgo1 s
  | .algo2 => Sys2Proof.Machine.execAlgo2 s
  | .algo3 => Sys2Proof.Machine.execAlgo3 s
  | .algo4 => Sys2Proof.Machine.execAlgo4 s
  | .algo5 => Sys2Proof.Machine.execAlgo5 s
  | .algo6 => Sys2Proof.Machine.execAlgo6 s
  | .algo7 => Sys2Proof.Machine.execAlgo7 s
  | .illegal w => Sys2Proof.Machine.execIllegal w s

end Sys2Proof.Machine
end

