-- ==== Sys2Proof/Machine/Step.lean ====
section
/-! DEFINITION. The step: the next bus access of the host (log 10). -/

namespace Sys2Proof.Machine

open Sys2Proof

/-- A host write (46_commands R297): refused with BUS_ERROR, an instruction of the table, or a plain
write. -/
def stepWrite (bits : Nat) (a : Addr) (w : Word) (s : State) : Host.Outcome State Fault Refusal :=
  if writeAccepted bits a s then
    match decode ⟨a, w⟩ with
    | .ok i => exec i s
    | .error _ => .next (busStore a w s)
  else .next (busError a s)

/-- One step performs the next access of the script; with none, the block is idle (60_exceptions R319).
A HOST_CTRL write that overlaps a LATCH joins those that wait for it (46_commands R276; log 11). -/
def step (s : State) : Host.Outcome State Fault Refusal :=
  match s.host with
  | [] => .next s
  | .read bits a :: rest => .next (busRead bits a { s with host := rest })
  | .write bits a w :: rest => stepWrite bits a w { s with host := rest }
  | .overlap after reg data :: rest =>
    .next { s with host := rest, ctrl := s.ctrl ++ [⟨after, reg, data⟩] }

/-- The state whose next access is the bus write a word of the opcode table stands for (log 10, 13). -/
def State.withFetchWord (s : State) (nbits w : Nat) : State :=
  { s with host := .write 32 (tableWrite nbits w).addr (tableWrite nbits w).data :: s.host }

end Sys2Proof.Machine
end

