-- ==== Sys2Proof/Safety.lean ====
section
/-! DEFINITION. What counts as a good state: the invariants the spec gives the machine, in the terms the
statements use. -/

namespace Sys2Proof.Machine

open Sys2Proof

/-- The range of a level: 0 <= level <= 1 (10_state R25). -/
def inUnit (x : Number) : Bool := fle 0x00000000#32 x.toWord && fle x.toWord 0x3F800000#32

/-- The oscillator invariant of 10_state R23, as binary32 lets it be said: the phase is in
[0, TWO_PI), or it is NaN, which only a non-finite argument of `wrap` makes (40_oscillator R124). -/
def phaseOk (p : Number) : Bool :=
  isNaN p.toWord || (fle 0x00000000#32 p.toWord && flt p.toWord 0x40C90FDB#32)

/-- A rate is INSTANT or a Num that is not negative and not NaN (10_state R24). -/
def rateOk : Rate → Bool
  | .instant => true
  | .step x => fle 0x00000000#32 x.toWord

/-- The envelope invariant (10_state R24, R25): level 0.0 in IDLE, and IDLE before a LATCH; at binary32
also 0 <= level <= 1, rate >= 0, and the sustain level in [0, 1] once latched. Another NUMERICS is any
arithmetic, of which no order of results is known (log 1). -/
structure EnvOk (nx : Numerics) (latched : Bool) (e : Env) : Prop where
  level : nx = .binary32 → inUnit e.level = true
  rate : nx = .binary32 → rateOk e.rate = true
  idle : e.stage = .idle → e.level = zero
  sustain : nx = .binary32 → latched = true → inUnit e.s = true
  unlatched : latched = false → e.stage = .idle

/-- The voice invariant: its oscillators' and envelopes' (10_state R23, R25), an active voice's first
envelope not IDLE (44_voice R227), and no voice active before a LATCH (60_exceptions R300). -/
structure VoiceOk (nx : Numerics) (latched : Bool) (v : Voice) : Prop where
  phases : nx = .binary32 → ∀ k, phaseOk (v.osc.get k).phase = true
  envs : ∀ k, EnvOk nx latched (v.env.get k)
  filterEnv : EnvOk nx latched v.envF
  active : voiceIsActive v = true → v.env.k1.stage ≠ .idle
  unlatched : latched = false → voiceIsActive v = false

/-- The control invariant: the block position within the block (10_state R32), the accepted PREPARE
arguments (46_commands R270), LATCH after PREPARE, and the fault record (60_exceptions R300, R301). -/
structure CtlOk (maxBlockHw : Nat) (c : Ctl) : Prop where
  pos : c.pos.toNat ≤ c.maxBlock.toNat
  maxBlock : c.maxBlock.toNat ≤ maxBlockHw
  rate : c.prepared = true → flt fsMinExcl c.fs.toWord = true ∧ fle c.fs.toWord fsMax = true
  latched : c.latched = true → c.prepared = true
  noFault : c.faulted = false → c.faultCode = 0#8 ∧ c.faultInfo = 0#32
  fault : c.faulted = true → 1 ≤ c.faultCode.toNat ∧ c.faultCode.toNat ≤ 10

/-- The machine's invariant. -/
structure State.Inv (s : State) : Prop where
  /-- 1 <= NUM_VOICES <= 16 (00_scope R8). -/
  voiceCount : 1 ≤ numVoices s ∧ numVoices s ≤ 16
  /-- VOC_BANDS vocoder bands (00_scope R9). -/
  bandCount : s.bands.length = s.cfg.vocBands
  /-- 1 <= MAX_BLOCK_HW <= 16384 (00_scope R10). -/
  blockHw : 1 ≤ s.cfg.maxBlockHw ∧ s.cfg.maxBlockHw ≤ 16384
  ctl : CtlOk s.cfg.maxBlockHw s.ctl
  voices : ∀ v ∈ s.voices, VoiceOk s.cfg.numerics s.ctl.latched v
  /-- The buffers' canonical forms. -/
  mem : s.mem.wf = true
  inW : ∀ c, sparseWf false (s.inW.get c) = true
  car : ∀ c, sparseWf zero (s.car.get c) = true
  /-- Nothing stands in the carrier at or beyond the block position (10_state R35, R32). -/
  carClear : ∀ c n, s.ctl.pos.toNat ≤ n → carGet s c n = zero
  /-- OUT has been written no further than the buffer goes. -/
  outLen : s.outLen ≤ s.cfg.maxBlockHw
  /-- The monitor window lies in what FLUSH has written since PREPARE (46_commands R287). -/
  monLen : s.ctl.monLen.toNat ≤ s.outLen

/-- Ready for notes and blocks: no fault, prepared and latched (70_reset R332). -/
structure State.Ready (s : State) : Prop where
  unfaulted : s.ctl.faulted = false
  prepared : s.ctl.prepared = true
  latched : s.ctl.latched = true

/-! ### The words the statements use -/

/-- The state with a fault recorded and nothing else changed (60_exceptions R301). -/
def withFault (code : BitVec 8) (info : Word) (s : State) : State :=
  { s with ctl := { s.ctl with faulted := true, faultCode := code, faultInfo := info } }

/-- A command word with a reserved opcode or a reserved bit of its format set, bit by bit
(30_encoding R97, R99, R100). -/
def ReservedWord (w : Word) : Prop :=
  w.toNat % 16 = 0 ∨ 8 ≤ w.toNat % 16 ∨
    ∃ b, b < 32 ∧ w.getLsbD b = true ∧
      ((w.toNat % 16 = 1 ∧ 4 ≤ b) ∨ (w.toNat % 16 = 2 ∧ 4 ≤ b) ∨ (w.toNat % 16 = 3 ∧ 22 ≤ b) ∨
       (w.toNat % 16 = 4 ∧ 16 ≤ b) ∨ (w.toNat % 16 = 5 ∧ 4 ≤ b ∧ b ≤ 15) ∨
       (w.toNat % 16 = 6 ∧ 4 ≤ b) ∨ (w.toNat % 16 = 7 ∧ 8 ≤ b))

/-- An aligned address the map names, for buffers of hw elements (20_memory R61 to R65). -/
def Mapped (hw a : Nat) : Prop :=
  a % 4 = 0 ∧
    (a ≤ 0x018 ∨ (0x020 ≤ a ∧ a ≤ 0x02C) ∨ (0x040 ≤ a ∧ a ≤ 0x0BC) ∨ (0x100 ≤ a ∧ a ≤ 0x128) ∨
     (0x10000 ≤ a ∧ a < 0x10000 + 4 * hw) ∨ (0x20000 ≤ a ∧ a < 0x20000 + 4 * hw) ∨
     (0x30000 ≤ a ∧ a < 0x30000 + 4 * hw) ∨ (0x40000 ≤ a ∧ a < 0x40000 + 4 * hw) ∨
     (0x50000 ≤ a ∧ a < 0x50000 + 4 * hw))

/-- An address whose register or element the host may not write (20_memory R61: RO). -/
def ReadOnly (a : Nat) : Prop := (0x10C ≤ a ∧ a ≤ 0x128) ∨ 0x30000 ≤ a

/-- A LATCH would succeed, and no HOST_CTRL write overlaps it (46_commands R272, R276). -/
structure State.LatchReady (s : State) : Prop where
  unfaulted : s.ctl.faulted = false
  prepared : s.ctl.prepared = true
  quiet : s.ctrl = []
  written : ∀ r, (s.shadow.get r).written = true
  finite : ∀ r, regKind r = .binary32 → isFinite (s.shadow.get r).value = true

/-- Voice u is voice v after `apply_to_voices()` with the snapshot p (46_commands R275): the parameters and
the increments are written, and no other field changes. -/
structure VoiceTakes (cfg : Cfg) (fs : Number) (p : Snapshot) (v u : Voice) : Prop where
  rest : u = { v with osc := u.osc, env := u.env, envF := u.envF }
  osc : ∀ k, u.osc.get k = { v.osc.get k with
    wave := (p.osc.get k).wave
    coarse := (p.osc.get k).coarse
    fine := (p.osc.get k).fine
    gain := (p.osc.get k).gain
    inc := cfg.numerics.mul
      (cfg.numerics.div
        (cfg.numerics.mul (v.osc.get k).base
          (cfg.numerics.add (p.osc.get k).coarse (cfg.numerics.mul (p.osc.get k).fine cfg.fineScale)))
        fs)
      cfg.numerics.twoPi }
  env : ∀ k, u.env.get k = { v.env.get k with
    a := (p.env.get k).a, d := (p.env.get k).d, s := (p.env.get k).s, r := (p.env.get k).r }
  envF : u.envF = { v.envF with a := p.fenv.a, d := p.fenv.d, s := p.fenv.s, r := p.fenv.r }

/-- w is the binary32 number nearest to n / d, in units of 2^-149, in round-to-nearest-even (00_scope R14): no
finite number q is nearer, a tie goes to the even pattern, and from (2^25 - 1) * 2^103, the midpoint beyond
the largest number, on it is the infinity of the sign of n / d. -/
structure NearestEven (w : Word) (n d : Int) : Prop where
  finite : isFinite w = true ↔ n.natAbs < (2 ^ 25 - 1) * 2 ^ 252 * d.natAbs
  nearest : isFinite w = true → ∀ q : Word, isFinite q = true →
    (sfixOf w * d - n).natAbs ≤ (sfixOf q * d - n).natAbs
  even : isFinite w = true → ∀ q : Word, isFinite q = true → sfixOf q ≠ sfixOf w →
    (sfixOf w * d - n).natAbs = (sfixOf q * d - n).natAbs → magOf w % 2 = 0
  overflow : isFinite w = false → isInf w = true ∧ (isNeg w = true ↔ n * d < 0)

/-- An envelope as PREPARE leaves it (46_commands R271). -/
structure EnvReset (e : Env) : Prop where
  stage : e.stage = .idle
  level : e.level = zero
  rate : e.rate = .step zero

/-- A voice as PREPARE leaves it (46_commands R271); the fields it leaves unwritten are not named. -/
structure VoiceReset (v : Voice) : Prop where
  vstate : v.vstate = .idle
  freq : v.freq = zero
  osc : ∀ k, (v.osc.get k).base = zero ∧ (v.osc.get k).inc = zero ∧ (v.osc.get k).phase = zero
    ∧ (v.osc.get k).hp = zero ∧ (v.osc.get k).prevIn = zero
  env : ∀ k, EnvReset (v.env.get k)
  envF : EnvReset v.envF
  integrators : v.filt.s1 = zero ∧ v.filt.s2 = zero

/-- A band filter set up by `filt_update(f, BP, fc, VOC_Q, 0.0)` with cleared integrators
(45_vocoder R251; 42_filter R181, R182). -/
structure BandFilterReset (cfg : Cfg) (fs fc : Number) (f : Filt) : Prop where
  mode : f.mode = .bp
  fc : f.fc = cfg.numerics.clamp
    (cfg.numerics.add fc (cfg.numerics.mul zero (cfg.numerics.sub cfg.cutoffMax fc)))
    cfg.cutoffMin cfg.cutoffMax
  res : f.res = cfg.numerics.clamp cfg.vocQ (.single 0x3F800000#32) (.single 0x41200000#32)
  g : f.g = cfg.numerics.tan (cfg.numerics.div (cfg.numerics.mul cfg.numerics.pi f.fc) fs)
  r2 : f.r2 = cfg.numerics.div (.single 0x3F800000#32) f.res
  h : f.h = cfg.numerics.div (.single 0x3F800000#32)
    (cfg.numerics.add
      (cfg.numerics.add (.single 0x3F800000#32) (cfg.numerics.mul f.r2 f.g))
      (cfg.numerics.mul f.g f.g))
  integrators : f.s1 = zero ∧ f.s2 = zero

/-- A vocoder band as PREPARE leaves it (46_commands R271). -/
structure BandReset (cfg : Cfg) (fs : Number) (b : Nat) (x : Band) : Prop where
  fc : x.fc = bandFreq cfg b
  sm : x.sm = zero
  fm : BandFilterReset cfg fs (bandFreq cfg b) x.fm
  fcar : ∀ c, BandFilterReset cfg fs (bandFreq cfg b) (x.fcar.get c)

/-- The units and buffers as `reset_units()` leaves them (46_commands R271). -/
structure UnitsReset (s t : State) : Prop where
  voiceCount : t.voices.length = s.voices.length
  voices : ∀ v ∈ t.voices, VoiceReset v
  bandCount : t.bands.length = s.cfg.vocBands
  bands : ∀ b x, t.bands[b]? = some x → BandReset s.cfg (.single s.prepRate) b x
  block : t.ctl.pos = 0#16 ∧ t.ctl.monLen = 0#16 ∧ t.ctl.monFreq = zero
  carrier : ∀ c n, carGet t c n = zero
  inW : ∀ c n, inWritten t c n = false

/-- Byte a lies in OUT[0], OUT[1] or MON, elements 0 to n - 1 (20_memory R61). -/
def InBlock (n a : Nat) : Prop :=
  (0x30000 ≤ a ∧ a < 0x30000 + 4 * n) ∨ (0x40000 ≤ a ∧ a < 0x40000 + 4 * n) ∨
    (0x50000 ≤ a ∧ a < 0x50000 + 4 * n)

/-- Two states that differ at most in what the host has written to IN[1]. -/
structure EqualOffIn1 (s t : State) : Prop where
  rest : t = { s with mem := t.mem, inW := ⟨s.inW.c0, t.inW.c1⟩ }
  bytes : ∀ a, a < 0x20000 ∨ 0x30000 ≤ a → readByte t.mem a = readByte s.mem a

/-- The two carrier channels and the two carrier filters of every band agree (45_vocoder R254). -/
structure StereoEqual (s : State) : Prop where
  carrier : s.car.c0 = s.car.c1
  filters : ∀ b ∈ s.bands, b.fcar.c0 = b.fcar.c1

/-- The next access of the host issues a command word. -/
def issues (s : State) (w : Word) : Prop := ∃ rest, s.host = .write 32 0x100#20 w :: rest

end Sys2Proof.Machine
end

