-- ==== Sys2Proof/WellFormed.lean ====
section
/-! DEFINITION. The one check an instruction needs beside the widths of its fields. -/

namespace Sys2Proof

/-- An instruction is well formed when it is the decoding of some bus write. Every operand field has
its width in its type; `illegal` stands only for the words 30_encoding R100 calls illegal. -/
def Instr.wellFormed : Instr → Bool
  | .illegal w => isIllegalWord w
  | .prepare => true
  | .latch => true
  | .noteOn _ _ _ => true
  | .noteOff _ _ _ => true
  | .render _ => true
  | .flush => true
  | .filterReset _ => true
  | .waveSine _ => true
  | .waveSaw _ => true
  | .waveSquare _ => true
  | .waveTriangle _ => true
  | .fmodeLp => true
  | .fmodeBp => true
  | .fmodeHp => true
  | .fmodeReserved => true
  | .algo0 => true
  | .algo1 => true
  | .algo2 => true
  | .algo3 => true
  | .algo4 => true
  | .algo5 => true
  | .algo6 => true
  | .algo7 => true

end Sys2Proof
end

