-- ==== Sys2Proof/Certificates/Slice0/Obligations.lean ====
section
/-! DEFINITION. The statements for the provers. -/

open Sys2Proof Sys2Proof.Machine

/-! ### Encoding -/

/-- Decoding the bus write of a well-formed instruction gives the instruction back, with every operand
at every value its field holds (30_encoding R96 to R98, R91 to R93). -/
def Obligations.DecodeEncodeRoundTrip : Prop :=
  ∀ i : Instr, i.wellFormed = true → decode (encode i) = .ok i

/-- Every word written to CMD is one well-formed instruction, and that instruction encodes to the word:
no bit of a command word is dropped (30_encoding R96, R97, R100). -/
def Obligations.CommandWordsLoseNoBit : Prop :=
  ∀ w : Word, ∃ i : Instr, decode (cmdWrite w) = .ok i ∧ i.wellFormed = true ∧ encode i = cmdWrite w

/-- The example words of 30_encoding R104 decode to the lines they stand for. -/
def Obligations.ExampleWordsDecode : Prop :=
  decode (cmdWrite 0x00000001#32) = .ok .prepare ∧
  decode (cmdWrite 0x00000002#32) = .ok .latch ∧
  decode (cmdWrite 0x00324503#32) = .ok (.noteOn 100#7 69#7 0#4) ∧
  decode (cmdWrite 0x00004503#32) = .ok (.noteOn 0#7 69#7 0#4) ∧
  decode (cmdWrite 0x00000104#32) = .ok (.noteOff 0#7 true 0#4) ∧
  decode (cmdWrite 0x00000004#32) = .ok (.noteOff 0#7 false 0#4) ∧
  decode (cmdWrite 0x00190005#32) = .ok (.render 25#16) ∧
  decode (cmdWrite 0x00400005#32) = .ok (.render 64#16) ∧
  decode (cmdWrite 0x00000006#32) = .ok .flush ∧
  decode (cmdWrite 0x00000007#32) = .ok (.filterReset 0#4)

/-- A command word is illegal exactly when its opcode is reserved or a reserved bit of its format is 1,
the formats written bit by bit; it then raises ILLEGAL_COMMAND, code 1, with info = the word, and has no
other effect (30_encoding R100, R97, R99). -/
def Obligations.ReservedWordsRaiseIllegalCommand : Prop :=
  ∀ w : Word,
    (decode (cmdWrite w) = .ok (.illegal w) ↔ ReservedWord w) ∧
    ∀ s : State, s.ctl.faulted = false → exec (.illegal w) s = .next (withFault 1#8 w s)

/-! ### Steps -/

/-- When the host's next access is a 32-bit write that decodes to an instruction, the step is exec of
that instruction, on the state with that access taken off the script (log 10). -/
def Obligations.StepRunsDecodedInstruction : Prop :=
  ∀ (s : State) (a : Addr) (w : Word) (rest : List Access) (i : Instr),
    s.host = .write 32 a w :: rest → decode ⟨a, w⟩ = .ok i → step s = exec i { s with host := rest }

/-! ### Invariants -/

/-- Every step keeps the machine's invariant: an envelope's level 0.0 in IDLE, and at binary32 in [0, 1]
(R25), at binary32 the phases in [0, TWO_PI) or NaN (R23, R124), 0 <= pos <= maxBlock (R32), no active voice with ENV1 IDLE
(R227), fault codes 1 to 10 (R300), the carrier clear beyond pos (R35), the accepted PREPARE arguments
(R270), and the canonical forms of the buffers. -/
def Obligations.StepKeepsTheMachineInvariant : Prop :=
  ∀ s t : State, s.Inv → step s = .next t → t.Inv

/-- The state after power-on meets the machine's invariant. The unit fields 70_reset R330 leaves unwritten
hold zero in it, and the carrier, which R330 leaves unspecified, holds 0.0 throughout: both are the
model's choices (log 5 and log 15). -/
def Obligations.ResetMeetsTheMachineInvariant : Prop := State.reset.Inv

/-- The configuration and NUM_VOICES never change (10_state R21), and the sample rate changes only at a
PREPARE (10_state R34). -/
def Obligations.ConfigurationNeverChanges : Prop :=
  ∀ s t : State, step s = .next t →
    t.cfg = s.cfg ∧ t.voices.length = s.voices.length ∧
      (t.ctl.fs ≠ s.ctl.fs → issues s 0x00000001#32 ∧ t.ctl.fs = .single s.prepRate)

/-- The status flags are set and cleared only as the table of 10_state R43 says: prepared set by PREPARE
and never cleared, latched set by LATCH and cleared by PREPARE, faulted cleared by PREPARE. -/
def Obligations.StatusFlagsChangeOnlyAsTabled : Prop :=
  ∀ s t : State, step s = .next t →
    (s.ctl.prepared = true → t.ctl.prepared = true) ∧
    (s.ctl.prepared = false → t.ctl.prepared = true → issues s 0x00000001#32) ∧
    (s.ctl.latched = false → t.ctl.latched = true → issues s 0x00000002#32) ∧
    (s.ctl.latched = true → t.ctl.latched = false → issues s 0x00000001#32) ∧
    (s.ctl.faulted = true → t.ctl.faulted = false → issues s 0x00000001#32)

/-- The voice state machine of 44_voice R220: a voice starts or starts again only by a NOTE_ON naming it,
becomes RELEASING only by a NOTE_OFF with a tail naming it, and becomes IDLE only by a NOTE_OFF without
a tail naming it, by a PREPARE, or by a RENDER that leaves its first envelope IDLE. -/
def Obligations.VoicesChangeStateOnlyAsTabled : Prop :=
  ∀ (s t : State) (n : Nat) (v u : Voice), step s = .next t →
    s.voices[n]? = some v → t.voices[n]? = some u → v.vstate ≠ u.vstate →
    (∃ vel note voice, issues s (instrWord (.noteOn vel note voice)) ∧ voice.toNat = n
      ∧ u.vstate = .sounding) ∨
    (∃ vel voice, issues s (instrWord (.noteOff vel true voice)) ∧ voice.toNat = n
      ∧ v.vstate ≠ .idle ∧ u.vstate = .releasing) ∨
    (∃ vel voice, issues s (instrWord (.noteOff vel false voice)) ∧ voice.toNat = n
      ∧ v.vstate ≠ .idle ∧ u.vstate = .idle) ∨
    (issues s 0x00000001#32 ∧ u.vstate = .idle) ∨
    (∃ count, issues s (instrWord (.render count)) ∧ v.vstate ≠ .idle ∧ u.vstate = .idle
      ∧ u.env.k1.stage = .idle)

/-- While a voice stays idle, a LATCH writes its parameters (the oscillators' wave, coarse, fine, gain and
the increment computed from them, the envelopes' A, D, S and R), a FILTER_RESET naming it clears its two
filter integrators, a PREPARE resets it, and nothing else changes any field of it (44_voice R228, R233;
46_commands R275, R281). -/
def Obligations.IdleVoiceIsFrozen : Prop :=
  ∀ (s t : State) (n : Nat) (v u : Voice), step s = .next t →
    s.voices[n]? = some v → t.voices[n]? = some u → v.vstate = .idle → u.vstate = .idle →
    ¬issues s 0x00000001#32 →
    u = { v with osc := u.osc, env := u.env, envF := u.envF, filt := u.filt } ∧
    (¬issues s 0x00000002#32 → u.osc = v.osc ∧ u.env = v.env ∧ u.envF = v.envF) ∧
    (∀ k, u.osc.get k = { v.osc.get k with
      wave := (u.osc.get k).wave
      coarse := (u.osc.get k).coarse
      fine := (u.osc.get k).fine
      gain := (u.osc.get k).gain
      inc := (u.osc.get k).inc }) ∧
    (∀ k, u.env.get k = { v.env.get k with
      a := (u.env.get k).a, d := (u.env.get k).d, s := (u.env.get k).s, r := (u.env.get k).r }) ∧
    u.envF = { v.envF with a := u.envF.a, d := u.envF.d, s := u.envF.s, r := u.envF.r } ∧
    (u.filt = v.filt ∨
      (u.filt = { v.filt with s1 := .single 0#32, s2 := .single 0#32 } ∧
        ∃ voice, issues s (instrWord (.filterReset voice)) ∧ voice.toNat = n))

/-- A byte of the sample buffers changes only by a FLUSH of the block, in OUT and MON below pos, or by a
host write to the IN element it lies in (10_state R36, R37; 20_memory R64). -/
def Obligations.OnlyFlushAndHostWritesStore : Prop :=
  ∀ (s t : State) (a : Nat), s.Inv → step s = .next t → readByte t.mem a ≠ readByte s.mem a →
    (issues s 0x00000006#32 ∧ InBlock s.ctl.pos.toNat a) ∨
    ∃ c n w rest, n < s.cfg.maxBlockHw ∧ inBase c + 4 * n ≤ a ∧ a < inBase c + 4 * n + 4 ∧
      s.host = .write 32 (BitVec.ofNat 20 (inBase c + 4 * n)) w :: rest

/-- MON mirrors OUT[0] below MON_LEN, and every step keeps that (10_state R39; 46_commands R287;
60_exceptions R316). -/
def Obligations.MonitorMirrorsOutputZero : Prop :=
  ∀ s t : State, s.Inv → step s = .next t →
    (∀ n, n < s.ctl.monLen.toNat →
      readWord s.mem (0x50000 + 4 * n) = readWord s.mem (0x30000 + 4 * n)) →
    ∀ n, n < t.ctl.monLen.toNat →
      readWord t.mem (0x50000 + 4 * n) = readWord t.mem (0x30000 + 4 * n)

/-- Equal carrier channels and equal carrier filters stay equal in every step (45_vocoder R254). -/
def Obligations.StereoStaysEqual : Prop :=
  ∀ s t : State, StereoEqual s → step s = .next t → StereoEqual t

/-- IN[1] is never read by the core: from two states that differ only in it, every instruction leads to
two states that differ only in it (10_state R36; 45_vocoder R254). -/
def Obligations.InputOneIsNeverRead : Prop :=
  ∀ (i : Instr) (s s' t : State), s.Inv → s'.Inv → EqualOffIn1 s s' → exec i s = .next t →
    ∃ t', exec i s' = .next t' ∧ EqualOffIn1 t t'

/-! ### Reset -/

/-- The registers right after power-on, as the bus reads them: CMD, PREP_RATE, PREP_MAXBLOCK, STATUS,
FAULT_CODE, FAULT_INFO, VOICE_ACTIVE, MON_FREQ, MON_LEN, every shadow register and every IN element read
0; no shadow register and no IN element is marked written (70_reset R330). Nothing is said of the unit
state, which R330 leaves unwritten. -/
def Obligations.PowerOnRegistersReadZero : Prop :=
  (∀ (a : Addr) (t : State), Mapped 4096 a.toNat →
    (a.toNat < 0x124 ∨ (0x10000 ≤ a.toNat ∧ a.toNat < 0x30000)) →
    step { State.reset with host := [.read 32 a] } = .next t →
      t.rdata = 0#32 ∧ t.ctl.faulted = false) ∧
  (∀ r, (State.reset.shadow.get r).written = false) ∧
  (∀ c n, inWritten State.reset c n = false)

/-! ### Faults -/

/-- While faulted, every command but PREPARE is ignored: nothing at all changes (60_exceptions R302).
Selector writes are no CMD writes and are not ignored. -/
def Obligations.FaultedCommandsAreIgnored : Prop :=
  ∀ (s : State) (i : Instr), s.ctl.faulted = true → selectorReg i = none → i ≠ .prepare →
    exec i s = .next s

/-- Before the first successful PREPARE every command but PREPARE raises NOT_PREPARED, code 2, with
info = the command word, and has no other effect (60_exceptions R300; 46_commands R291). -/
def Obligations.CommandsBeforePrepareRaiseNotPrepared : Prop :=
  ∀ (s : State) (i : Instr), s.ctl.faulted = false → s.ctl.prepared = false →
    selectorReg i = none → i ≠ .prepare → (∀ w, i ≠ .illegal w) →
    exec i s = .next (withFault 2#8 (instrWord i) s)

/-- NOTE_ON, NOTE_OFF and FILTER_RESET raise BAD_VOICE, code 5, for VOICE >= NUM_VOICES, also before any
LATCH, and otherwise NOT_LATCHED, code 8, while not latched; each with the command word
(60_exceptions R300, R304; 46_commands R278, R280, R281). -/
def Obligations.VoiceCommandsCheckVoiceThenLatch : Prop :=
  ∀ (s : State) (i : Instr) (voice : BitVec 4), s.ctl.faulted = false → s.ctl.prepared = true →
    ((∃ vel note, i = .noteOn vel note voice) ∨ (∃ vel tail, i = .noteOff vel tail voice) ∨
      i = .filterReset voice) →
    (s.voices.length ≤ voice.toNat → exec i s = .next (withFault 5#8 (instrWord i) s)) ∧
    (voice.toNat < s.voices.length → s.ctl.latched = false →
      exec i s = .next (withFault 8#8 (instrWord i) s))

/-- RENDER and FLUSH raise NOT_LATCHED, code 8, while not latched; RENDER raises BLOCK_OVERFLOW, code 6,
when pos + COUNT > maxBlock; FLUSH with the vocoder enabled raises INPUT_UNINIT, code 9, with the byte
address of the lowest unwritten IN[0] element below pos (46_commands R282, R285; 60_exceptions R300). -/
def Obligations.BlockCommandsCheckInOrder : Prop :=
  ∀ (s : State) (count : BitVec 16), s.ctl.faulted = false → s.ctl.prepared = true →
    (s.ctl.latched = false →
      exec (.render count) s = .next (withFault 8#8 (instrWord (.render count)) s) ∧
      exec .flush s = .next (withFault 8#8 0x00000006#32 s)) ∧
    (s.ctl.latched = true → s.ctl.maxBlock.toNat < s.ctl.pos.toNat + count.toNat →
      exec (.render count) s = .next (withFault 6#8 (instrWord (.render count)) s)) ∧
    (s.ctl.latched = true → s.snap.vocEn = true → ∀ n, n < s.ctl.pos.toNat →
      inWritten s .c0 n = false → (∀ m, m < n → inWritten s .c0 m = true) →
      exec .flush s = .next (withFault 9#8 (BitVec.ofNat 32 (0x10000 + 4 * n)) s))

/-- A LATCH with a register never written raises PARAM_UNINIT, code 3, with the lowest such address; with
all written and some NaN or infinite binary32 register it raises PARAM_NONFINITE, code 4, with the
lowest such address (46_commands R272; 60_exceptions R300). Stated for a LATCH no HOST_CTRL write
overlaps; `LatchReadsEachRegisterOnce` says what the others see. -/
def Obligations.LatchRefusesTheLowestBadRegister : Prop :=
  ∀ (s : State) (r : ShadowReg), s.ctl.faulted = false → s.ctl.prepared = true → s.ctrl = [] →
    ((s.shadow.get r).written = false →
      (∀ q, shadowAddr q < shadowAddr r → (s.shadow.get q).written = true) →
      exec .latch s = .next (withFault 3#8 (BitVec.ofNat 32 (shadowAddr r)) s)) ∧
    ((∀ q, (s.shadow.get q).written = true) → regKind r = .binary32 →
      isFinite (s.shadow.get r).value = false →
      (∀ q, shadowAddr q < shadowAddr r → regKind q = .binary32 →
        isFinite (s.shadow.get q).value = true) →
      exec .latch s = .next (withFault 4#8 (BitVec.ofNat 32 (shadowAddr r)) s))

/-- A command that raises a fault has no effect besides recording it (46_commands R295; 60_exceptions
R301): everything else is as before, but for the HOST_CTRL writes that land during a LATCH, which are
no effect of the command (log 11). -/
def Obligations.FaultingCommandsHaveNoOtherEffect : Prop :=
  ∀ (i : Instr) (s t : State), exec i s = .next t → s.ctl.faulted = false → t.ctl.faulted = true →
    t = { s with
      ctl := { s.ctl with faulted := true, faultCode := t.ctl.faultCode, faultInfo := t.ctl.faultInfo }
      shadow := t.shadow
      ctrl := t.ctrl } ∧
    (i ≠ .latch ∨ s.ctrl = [] → t.shadow = s.shadow ∧ t.ctrl = s.ctrl)

/-- While faulted no second fault is recorded: a step that stays faulted, be it a PREPARE that fails or a
failed access, keeps the record (60_exceptions R307). Only a successful PREPARE ends the faulted state;
it also resets every unit and clears latched (R308). -/
def Obligations.FaultRecordStaysUntilASuccessfulPrepare : Prop :=
  ∀ s t : State, step s = .next t → s.ctl.faulted = true →
    (t.ctl.faulted = true →
      t.ctl.faultCode = s.ctl.faultCode ∧ t.ctl.faultInfo = s.ctl.faultInfo) ∧
    (t.ctl.faulted = false →
      issues s 0x00000001#32 ∧
      flt 0x471C4000#32 s.prepRate = true ∧ fle s.prepRate 0x48BB8000#32 = true ∧
      1 ≤ s.prepMaxBlock.toNat ∧ s.prepMaxBlock.toNat ≤ s.cfg.maxBlockHw ∧
      UnitsReset s t ∧ t.ctl.latched = false ∧ t.ctl.faultCode = 0#8 ∧ t.ctl.faultInfo = 0#32)

/-! ### PREPARE -/

/-- PREPARE is the word 1 alone. With PREP_RATE in (40000, 384000] and PREP_MAXBLOCK in
[1, MAX_BLOCK_HW] it sets the control fields, faulted or not, and every field `reset_units()` names,
every vocoder band's three filters by `filt_update`; otherwise, a NaN rate included, it raises
BAD_PREPARE, code 7, with the command word (46_commands R270, R271). It leaves the shadow registers, the
PREP registers and every stored byte of the buffers; what a read of IN then returns is free (log 8). The
fields it leaves unwritten are free values (log 6) and are not named. -/
def Obligations.PrepareResetsTheBlock : Prop :=
  (∀ w : Word, decode (cmdWrite w) = .ok .prepare ↔ w = 0x00000001#32) ∧
  ∀ s : State,
    ((flt 0x471C4000#32 s.prepRate = true ∧ fle s.prepRate 0x48BB8000#32 = true ∧
        1 ≤ s.prepMaxBlock.toNat ∧ s.prepMaxBlock.toNat ≤ s.cfg.maxBlockHw) →
      ∃ t, exec .prepare s = .next t ∧
        t.ctl = { prepared := true, latched := false, fs := .single s.prepRate,
                  maxBlock := s.prepMaxBlock, pos := 0#16, faulted := false, faultCode := 0#8,
                  faultInfo := 0#32, monLen := 0#16, monFreq := .single 0#32 } ∧
        UnitsReset s t ∧
        t.shadow = s.shadow ∧ t.prepRate = s.prepRate ∧ t.prepMaxBlock = s.prepMaxBlock ∧
        (∀ a, readByte t.mem a = readByte s.mem a) ∧
        t.cfg = s.cfg ∧ t.host = s.host ∧ t.ctrl = s.ctrl ∧ t.rdata = s.rdata) ∧
    (¬(flt 0x471C4000#32 s.prepRate = true ∧ fle s.prepRate 0x48BB8000#32 = true ∧
        1 ≤ s.prepMaxBlock.toNat ∧ s.prepMaxBlock.toNat ≤ s.cfg.maxBlockHw) →
      exec .prepare s = .next (if s.ctl.faulted then s else withFault 7#8 0x00000001#32 s)) ∧
    (isNaN s.prepRate = true →
      exec .prepare s = .next (if s.ctl.faulted then s else withFault 7#8 0x00000001#32 s))

/-- With the reference constants the centre frequency of band b is the binary32 number nearest to the real
200 * 80^(b/23) of 10_state R38, written with 23rd powers: the midpoints to the numbers next to it
enclose that real. Every band filter is at its band's own frequency, unchanged by the clamp, with
resonance 10, and the bands run from 200 Hz to 16000 Hz (45_vocoder R251, R250). -/
def Obligations.BandFiltersSitAtTheirFrequencies : Prop :=
  ∀ (s t : State) (b : Nat) (x : Band), s.cfg = referenceCfg → exec .prepare s = .next t →
    t.ctl.faulted = false → t.bands[b]? = some x →
    (∀ f, f = x.fm ∨ f = x.fcar.c0 ∨ f = x.fcar.c1 → f.fc = x.fc ∧ f.res = .single 0x41200000#32) ∧
    ∃ w : Word, x.fc = .single w ∧ b < 24 ∧ isFinite w = true ∧ isNeg w = false ∧
      (fixOf (w.toNat - 1) + fixOf w.toNat) ^ 23
        ≤ 2 ^ 23 * (200 ^ (23 - b) * 16000 ^ b * 2 ^ (149 * 23)) ∧
      2 ^ 23 * (200 ^ (23 - b) * 16000 ^ b * 2 ^ (149 * 23))
        ≤ (fixOf w.toNat + fixOf (w.toNat + 1)) ^ 23 ∧
      fle 0x43480000#32 w = true ∧ fle w 0x467A0000#32 = true ∧
      (b = 0 → w = 0x43480000#32) ∧ (b = 23 → w = 0x467A0000#32)

/-! ### LATCH -/

/-- A LATCH that succeeds takes into the snapshot every register's value, clamped to the range of
10_state R33 and converted by 46_commands R274, sets latched, and leaves everything but the snapshot and
the voices. FILT_CUTOFF is clamped to the literal [20, 20000] of R33 (log 24). -/
def Obligations.LatchTakesTheSnapshot : Prop :=
  ∀ (s : State) (nx : Numerics), s.LatchReady → nx = s.cfg.numerics →
    ∃ t, exec .latch s = .next t ∧
      t = { s with snap := t.snap, voices := t.voices, ctl := { s.ctl with latched := true } } ∧
      t.snap.algo = algoOfCode ((s.shadow.get .algo).value.extractLsb' 0 3) ∧
      t.snap.filtMode = fmodeOfCode ((s.shadow.get .filtMode).value.extractLsb' 0 2) ∧
      t.snap.filtEn = (s.shadow.get .filtEn).value.getLsbD 0 ∧
      t.snap.filtCutoff = nx.clamp (.single (s.shadow.get .filtCutoff).value)
        (.single 0x41A00000#32) (.single 0x469C4000#32) ∧
      t.snap.filtRes = nx.clamp (.single (s.shadow.get .filtRes).value)
        (.single 0x3F800000#32) (.single 0x41200000#32) ∧
      t.snap.vocEn = (s.shadow.get .vocEn).value.getLsbD 0 ∧
      t.snap.vocSmooth = nx.clamp (.single (s.shadow.get .vocSmooth).value)
        (nx.num 1 100) (.single 0x3F000000#32) ∧
      (nx = .binary32 → nx.num 1 100 = .single 0x3C23D70A#32) ∧
      t.snap.fenv.a = nx.div (nx.clamp (.single (s.shadow.get .fenvAttackMs).value)
        (.single 0#32) (.single 0x45BB8000#32)) (.single 0x447A0000#32) ∧
      t.snap.fenv.d = nx.div (nx.clamp (.single (s.shadow.get .fenvDecayMs).value)
        (.single 0#32) (.single 0x45BB8000#32)) (.single 0x447A0000#32) ∧
      t.snap.fenv.s = nx.div (nx.clamp (.single (s.shadow.get .fenvSustainPct).value)
        (.single 0#32) (.single 0x42C80000#32)) (.single 0x42C80000#32) ∧
      t.snap.fenv.r = nx.div (nx.clamp (.single (s.shadow.get .fenvReleaseMs).value)
        (.single 0#32) (.single 0x45BB8000#32)) (.single 0x447A0000#32) ∧
      ∀ k,
        (t.snap.osc.get k).wave = waveOfCode ((s.shadow.get (.osc k .wave)).value.extractLsb' 0 2) ∧
        (t.snap.osc.get k).coarse = nx.clamp (.single (s.shadow.get (.osc k .coarse)).value)
          (.single 0x3F000000#32) (.single 0x41800000#32) ∧
        (t.snap.osc.get k).fine = nx.clamp (.single (s.shadow.get (.osc k .fine)).value)
          (.single 0#32) (.single 0x447A0000#32) ∧
        (t.snap.osc.get k).gain = nx.clamp (.single (s.shadow.get (.osc k .gain)).value)
          (.single 0#32) (.single 0x3F800000#32) ∧
        (t.snap.env.get k).a = nx.div (nx.clamp (.single (s.shadow.get (.osc k .attackMs)).value)
          (.single 0#32) (.single 0x44FA0000#32)) (.single 0x447A0000#32) ∧
        (t.snap.env.get k).d = nx.div (nx.clamp (.single (s.shadow.get (.osc k .decayMs)).value)
          (.single 0x3F800000#32) (.single 0x45BB8000#32)) (.single 0x447A0000#32) ∧
        (t.snap.env.get k).s = nx.exp10 (nx.div
          (nx.clamp (.single (s.shadow.get (.osc k .sustainDb)).value)
            (.single 0xC2700000#32) (.single 0#32)) (.single 0x41A00000#32)) ∧
        (t.snap.env.get k).r = nx.div (nx.clamp (.single (s.shadow.get (.osc k .releaseMs)).value)
          (.single 0x3F800000#32) (.single 0x45BB8000#32)) (.single 0x447A0000#32)

/-- A LATCH that succeeds writes the snapshot into every voice, active or idle, recomputes the
increments, and changes no phase, level, stage, rate or filter integrator (46_commands R275). -/
def Obligations.LatchUpdatesEveryVoice : Prop :=
  ∀ s : State, s.LatchReady →
    ∃ t, exec .latch s = .next t ∧ t.voices.length = s.voices.length ∧
      ∀ (n : Nat) (v : Voice), s.voices[n]? = some v → ∃ u, t.voices[n]? = some u ∧
        VoiceTakes s.cfg s.ctl.fs t.snap v u

/-- LATCH reads each register once, in ascending address order: the n-th register is seen with exactly
the HOST_CTRL writes that land before its read. `after` of a write is the number of reads made before it
lands, and a write of the script that overlaps the next LATCH only joins the list of them (log 11; 70_reset
R341). A LATCH that sees an unwritten or a non-finite register raises PARAM_UNINIT, code 3, or
PARAM_NONFINITE, code 4, with the lowest such address of what it saw; otherwise it takes the
snapshot of what it saw, sets latched, writes that snapshot into every voice, where no phase, level, stage,
rate or filter integrator changes (46_commands R275), and changes nothing else. The writes have landed in
the registers afterwards (46_commands R276, R272). -/
def Obligations.LatchReadsEachRegisterOnce : Prop :=
  (shadowRegs.Pairwise (fun r q => shadowAddr r < shadowAddr q) ∧ ∀ r, r ∈ shadowRegs) ∧
  (∀ (s : State) (after : Nat) (reg : ShadowReg) (data : Word) (rest : List Access),
    s.host = .overlap after reg data :: rest →
    step s = .next { s with host := rest, ctrl := s.ctrl ++ [⟨after, reg, data⟩] }) ∧
  ∀ s : State, s.ctl.faulted = false → s.ctl.prepared = true →
    s.ctrl.Pairwise (fun x y => x.after ≤ y.after) →
    ∃ (seen : Shadow) (t : State),
      (∀ n r, shadowRegs[n]? = some r →
        seen.get r = ((s.ctrl.filter (fun c => c.after ≤ n)).foldl
          (fun b c => b.store c.reg c.data) s.shadow).get r) ∧
      exec .latch s = .next t ∧
      t.shadow = s.ctrl.foldl (fun b c => b.store c.reg c.data) s.shadow ∧ t.ctrl = [] ∧
      (((∀ r, (seen.get r).written = true) ∧
          ∀ r, regKind r = .binary32 → isFinite (seen.get r).value = true) →
        t = { s with
          ctl := { s.ctl with latched := true }
          snap := convert s.cfg.numerics seen
          voices := t.voices
          shadow := t.shadow
          ctrl := [] } ∧
        t.voices.length = s.voices.length ∧
        ∀ (n : Nat) (v : Voice), s.voices[n]? = some v → ∃ u, t.voices[n]? = some u ∧
          VoiceTakes s.cfg s.ctl.fs (convert s.cfg.numerics seen) v u) ∧
      (¬((∀ r, (seen.get r).written = true) ∧
          ∀ r, regKind r = .binary32 → isFinite (seen.get r).value = true) →
        t = { s with ctl := t.ctl, shadow := t.shadow, ctrl := [] } ∧ t.ctl.faulted = true) ∧
      (∀ r, (seen.get r).written = false →
        (∀ q, shadowAddr q < shadowAddr r → (seen.get q).written = true) →
        t.ctl = { s.ctl with
          faulted := true, faultCode := 3#8, faultInfo := BitVec.ofNat 32 (shadowAddr r) }) ∧
      (∀ r, (∀ q, (seen.get q).written = true) → regKind r = .binary32 →
        isFinite (seen.get r).value = false →
        (∀ q, shadowAddr q < shadowAddr r → regKind q = .binary32 →
          isFinite (seen.get q).value = true) →
        t.ctl = { s.ctl with
          faulted := true, faultCode := 4#8, faultInfo := BitVec.ofNat 32 (shadowAddr r) })

/-- After a LATCH at binary32 every Num of the snapshot lies in the range the table of 10_state R33 gives, the
times in seconds among them. The sustain levels of the amplitude envelopes lie in [0.001, 1], where the
lower bound is the number next below 0.001: that bound rests on the model's reading of exp10 as monotone
with exp10(-3) one of the two numbers next to 0.001 (log 2, DEDUCED). -/
def Obligations.SnapshotStaysInRange : Prop :=
  ∀ s t : State, s.LatchReady → s.cfg.numerics = .binary32 → exec .latch s = .next t →
    (fle 0x41A00000#32 t.snap.filtCutoff.toWord = true ∧
      fle t.snap.filtCutoff.toWord 0x469C4000#32 = true) ∧
    (fle 0x3F800000#32 t.snap.filtRes.toWord = true ∧
      fle t.snap.filtRes.toWord 0x41200000#32 = true) ∧
    (fle 0x3C23D70A#32 t.snap.vocSmooth.toWord = true ∧
      fle t.snap.vocSmooth.toWord 0x3F000000#32 = true) ∧
    (fle 0#32 t.snap.fenv.a.toWord = true ∧ fle t.snap.fenv.a.toWord 0x40C00000#32 = true) ∧
    (fle 0#32 t.snap.fenv.d.toWord = true ∧ fle t.snap.fenv.d.toWord 0x40C00000#32 = true) ∧
    (fle 0#32 t.snap.fenv.s.toWord = true ∧ fle t.snap.fenv.s.toWord 0x3F800000#32 = true) ∧
    (fle 0#32 t.snap.fenv.r.toWord = true ∧ fle t.snap.fenv.r.toWord 0x40C00000#32 = true) ∧
    (∀ k,
      (fle 0x3F000000#32 (t.snap.osc.get k).coarse.toWord = true
        ∧ fle (t.snap.osc.get k).coarse.toWord 0x41800000#32 = true) ∧
      (fle 0#32 (t.snap.osc.get k).fine.toWord = true
        ∧ fle (t.snap.osc.get k).fine.toWord 0x447A0000#32 = true) ∧
      (fle 0#32 (t.snap.osc.get k).gain.toWord = true
        ∧ fle (t.snap.osc.get k).gain.toWord 0x3F800000#32 = true) ∧
      (fle 0#32 (t.snap.env.get k).a.toWord = true
        ∧ fle (t.snap.env.get k).a.toWord 0x40000000#32 = true) ∧
      (fle 0x3A83126F#32 (t.snap.env.get k).d.toWord = true
        ∧ fle (t.snap.env.get k).d.toWord 0x40C00000#32 = true) ∧
      (fle 0x3A83126E#32 (t.snap.env.get k).s.toWord = true
        ∧ fle (t.snap.env.get k).s.toWord 0x3F800000#32 = true) ∧
      (fle 0x3A83126F#32 (t.snap.env.get k).r.toWord = true
        ∧ fle (t.snap.env.get k).r.toWord 0x40C00000#32 = true))

/-! ### Selector rows and shadow registers -/

/-- A selector row stores its code in its register, FMODE code 3 as 0, and marks it written; every other
register, every byte of memory and everything else is unchanged, faulted or not (30_encoding R91 to R93;
20_memory R62, R71). -/
def Obligations.SelectorRowsStoreTheirCode : Prop :=
  ∀ (k : OscId) (s : State) (i : Instr) (r : ShadowReg) (code : Word),
    (r = .osc k .wave ∧ ((i = .waveSine k ∧ code = 0#32) ∨ (i = .waveSaw k ∧ code = 1#32) ∨
      (i = .waveSquare k ∧ code = 2#32) ∨ (i = .waveTriangle k ∧ code = 3#32))) ∨
    (r = .filtMode ∧ ((i = .fmodeLp ∧ code = 0#32) ∨ (i = .fmodeBp ∧ code = 1#32) ∨
      (i = .fmodeHp ∧ code = 2#32) ∨ (i = .fmodeReserved ∧ code = 0#32))) ∨
    (r = .algo ∧ ((i = .algo0 ∧ code = 0#32) ∨ (i = .algo1 ∧ code = 1#32) ∨
      (i = .algo2 ∧ code = 2#32) ∨ (i = .algo3 ∧ code = 3#32) ∨ (i = .algo4 ∧ code = 4#32) ∨
      (i = .algo5 ∧ code = 5#32) ∨ (i = .algo6 ∧ code = 6#32) ∨ (i = .algo7 ∧ code = 7#32))) →
    ∃ t, exec i s = .next t ∧ t.shadow.get r = ⟨code, true⟩ ∧
      (∀ q, q ≠ r → t.shadow.get q = s.shadow.get q) ∧ t = { s with shadow := t.shadow } ∧
      ∀ a, readByte t.mem a = readByte s.mem a

/-- What a selector row stored reaches the datapath at the next LATCH: the waveform of every voice's
oscillator k, the filter mode (code 3 as LP) and the topology of the snapshot (30_encoding R91 to R93;
46_commands R275). -/
def Obligations.SelectorsReachTheDatapathAtLatch : Prop :=
  ∀ (s : State), s.LatchReady →
    (∀ (k : OscId) (i : Instr) (w : Wave),
      (i = .waveSine k ∧ w = .sine) ∨ (i = .waveSaw k ∧ w = .saw) ∨
        (i = .waveSquare k ∧ w = .square) ∨ (i = .waveTriangle k ∧ w = .triangle) →
      ∃ t u, exec i s = .next t ∧ exec .latch t = .next u ∧ (u.snap.osc.get k).wave = w ∧
        ∀ v ∈ u.voices, (v.osc.get k).wave = w) ∧
    (∀ (i : Instr) (m : FMode),
      (i = .fmodeLp ∧ m = .lp) ∨ (i = .fmodeBp ∧ m = .bp) ∨ (i = .fmodeHp ∧ m = .hp) ∨
        (i = .fmodeReserved ∧ m = .lp) →
      ∃ t u, exec i s = .next t ∧ exec .latch t = .next u ∧ u.snap.filtMode = m) ∧
    (∀ (i : Instr) (a : Algo),
      (i = .algo0 ∧ a = .a0) ∨ (i = .algo1 ∧ a = .a1) ∨ (i = .algo2 ∧ a = .a2) ∨
        (i = .algo3 ∧ a = .a3) ∨ (i = .algo4 ∧ a = .a4) ∨ (i = .algo5 ∧ a = .a5) ∨
        (i = .algo6 ∧ a = .a6) ∨ (i = .algo7 ∧ a = .a7) →
      ∃ t u, exec i s = .next t ∧ exec .latch t = .next u ∧ u.snap.algo = a)

/-- A word written to a shadow register is read back with the bits above its field as 0, FILT_MODE code 3
as 0, and a binary32 register unchanged, faulted or not (30_encoding R90, R92, R94, R95). -/
def Obligations.ShadowRegistersReadBack : Prop :=
  ∀ (s : State) (r : ShadowReg) (w : Word) (rest : List Access),
    s.host = .write 32 (BitVec.ofNat 20 (shadowAddr r)) w ::
      .read 32 (BitVec.ofNat 20 (shadowAddr r)) :: rest →
    ∃ t u, step s = .next t ∧ step t = .next u ∧
      u = { s with host := rest, rdata := u.rdata, shadow := u.shadow } ∧
      (∀ q, q ≠ r → u.shadow.get q = s.shadow.get q) ∧ (u.shadow.get r).written = true ∧
      (r = .algo → u.rdata.toNat = w.toNat % 8) ∧
      (r = .filtMode → u.rdata.toNat = if w.toNat % 4 = 3 then 0 else w.toNat % 4) ∧
      (r = .filtEn ∨ r = .vocEn → u.rdata.toNat = w.toNat % 2) ∧
      ((∃ k, r = .osc k .wave) → u.rdata.toNat = w.toNat % 4) ∧
      (r ≠ .algo → r ≠ .filtMode → r ≠ .filtEn → r ≠ .vocEn → (∀ k, r ≠ .osc k .wave) →
        u.rdata = w)

/-! ### Notes -/

/-- NOTE_ON of an existing voice, latched: the note-on of 44_voice R222 on that voice at the frequency of
46_commands R279, MON_FREQ set, VEL ignored; every other voice and everything else unchanged. -/
def Obligations.NoteOnStartsTheVoice : Prop :=
  ∀ (s : State) (vel note : BitVec 7) (voice : BitVec 4) (v : Voice) (f : Number) (nx : Numerics),
    s.Ready → nx = s.cfg.numerics → s.voices[voice.toNat]? = some v →
    f = nx.mul s.cfg.a4Freq
      (nx.exp2 (nx.div (nx.sub (.single (num32 note.toNat 1)) s.cfg.a4Note) (.single 0x41400000#32))) →
    ∃ t u, exec (.noteOn vel note voice) s = .next t ∧
      t = { s with voices := t.voices, ctl := { s.ctl with monFreq := f } } ∧
      t.voices.length = s.voices.length ∧
      (∀ n, n ≠ voice.toNat → t.voices[n]? = s.voices[n]?) ∧
      t.voices[voice.toNat]? = some u ∧ u.freq = f ∧ u.vstate = .sounding ∧
      (∀ k, u.osc.get k = { v.osc.get k with
        base := f
        inc := nx.mul (nx.div (nx.mul f (nx.add (v.osc.get k).coarse
          (nx.mul (v.osc.get k).fine s.cfg.fineScale))) s.ctl.fs) nx.twoPi
        phase := .single 0#32
        hp := .single 0#32
        prevIn := .single 0#32 }) ∧
      (∀ k, u.env.get k = { v.env.get k with
        stage := .attack
        rate := if nx.lt (.single 0#32) (v.env.get k).a then
            .step (nx.div (.single 0x3F800000#32) (nx.mul (v.env.get k).a s.ctl.fs)) else .instant }) ∧
      u.envF = { v.envF with
        stage := .attack
        rate := if nx.lt (.single 0#32) v.envF.a then
            .step (nx.div (.single 0x3F800000#32) (nx.mul v.envF.a s.ctl.fs)) else .instant } ∧
      u.filt = (if s.cfg.filterResetOnNoteOn then
        { v.filt with s1 := .single 0#32, s2 := .single 0#32 } else v.filt) ∧
      ∀ a, readByte t.mem a = readByte s.mem a

/-- NOTE_OFF of an existing voice, latched: an active voice's envelopes that are not IDLE enter RELEASE
from their levels, and it becomes RELEASING with a tail, IDLE without; an idle voice and everything
else are unchanged; VEL is ignored (44_voice R224 to R226; 41_envelope R154; 46_commands R280). -/
def Obligations.NoteOffReleasesTheVoice : Prop :=
  ∀ (s : State) (vel : BitVec 7) (tail : Bool) (voice : BitVec 4) (v : Voice) (nx : Numerics),
    s.Ready → nx = s.cfg.numerics → s.voices[voice.toNat]? = some v →
    (v.vstate = .idle → exec (.noteOff vel tail voice) s = .next s) ∧
    (v.vstate ≠ .idle → ∃ t u, exec (.noteOff vel tail voice) s = .next t ∧
      t = { s with voices := t.voices } ∧ t.voices.length = s.voices.length ∧
      (∀ n, n ≠ voice.toNat → t.voices[n]? = s.voices[n]?) ∧
      t.voices[voice.toNat]? = some u ∧
      u = { v with env := u.env, envF := u.envF, vstate := if tail then .releasing else .idle } ∧
      (∀ k, u.env.get k = if (v.env.get k).stage = .idle then v.env.get k else
        { v.env.get k with
          stage := .release
          rate := if nx.lt (.single 0#32) (v.env.get k).r then
              .step (nx.div (v.env.get k).level (nx.mul (v.env.get k).r s.ctl.fs)) else .instant }) ∧
      (u.envF = if v.envF.stage = .idle then v.envF else
        { v.envF with
          stage := .release
          rate := if nx.lt (.single 0#32) v.envF.r then
              .step (nx.div v.envF.level (nx.mul v.envF.r s.ctl.fs)) else .instant }) ∧
      ∀ a, readByte t.mem a = readByte s.mem a)

/-- FILTER_RESET of an existing voice, latched: its filter integrators are 0.0; its coefficients and
mode, and everything else, are unchanged, active or idle (46_commands R281; 42_filter R185). -/
def Obligations.FilterResetClearsTheIntegrators : Prop :=
  ∀ (s : State) (voice : BitVec 4) (v : Voice), s.Ready → s.voices[voice.toNat]? = some v →
    ∃ t, exec (.filterReset voice) s = .next t ∧ t = { s with voices := t.voices } ∧
      t.voices.length = s.voices.length ∧
      (∀ n, n ≠ voice.toNat → t.voices[n]? = s.voices[n]?) ∧
      t.voices[voice.toNat]? = some { v with filt :=
        { v.filt with s1 := .single 0#32, s2 := .single 0#32 } } ∧
      ∀ a, readByte t.mem a = readByte s.mem a

/-! ### RENDER -/

/-- RENDER of COUNT samples that fit in the block advances pos by COUNT and changes nothing but the
voices and the carrier elements pos to pos + COUNT - 1 (46_commands R282, R284); COUNT = 0 changes
nothing at all; when every voice is idle it only advances pos (60_exceptions R319). -/
def Obligations.RenderAdvancesTheBlock : Prop :=
  ∀ (s : State) (count : BitVec 16), s.Ready → s.Inv →
    s.ctl.pos.toNat + count.toNat ≤ s.ctl.maxBlock.toNat →
    ∃ t, exec (.render count) s = .next t ∧
      t = { s with voices := t.voices, car := t.car, ctl := { s.ctl with pos := t.ctl.pos } } ∧
      t.ctl.pos.toNat = s.ctl.pos.toNat + count.toNat ∧ t.voices.length = s.voices.length ∧
      (∀ c n, n < s.ctl.pos.toNat ∨ s.ctl.pos.toNat + count.toNat ≤ n →
        carGet t c n = carGet s c n) ∧
      (count = 0#16 → t = s) ∧
      ((∀ v ∈ s.voices, v.vstate = .idle) →
        t = { s with ctl := { s.ctl with pos := s.ctl.pos + count } }) ∧
      ∀ a, readByte t.mem a = readByte s.mem a

/-- RENDER of one sample: every voice that is not IDLE is rendered, in ascending index, and its sample
added to both carrier channels at pos; IDLE voices are untouched (46_commands R283; 44_voice R228). -/
def Obligations.RenderMixesTheActiveVoices : Prop :=
  ∀ s : State, s.Ready → s.Inv → s.ctl.pos.toNat < s.ctl.maxBlock.toNat →
    ∃ t, exec (.render 1#16) s = .next t ∧
      t.voices = s.voices.map (fun v =>
        if v.vstate = .idle then v else (voiceRender s.cfg s.ctl.fs s.snap v).1) ∧
      ∀ c, carGet t c s.ctl.pos.toNat = s.voices.foldl (fun acc v =>
        if v.vstate = .idle then acc else s.cfg.numerics.add acc (voiceRender s.cfg s.ctl.fs s.snap v).2)
        (carGet s c s.ctl.pos.toNat)

/-- One rendered sample of a voice, step by step (44_voice R229 to R232): the five envelopes advance, the
router runs, the filter is updated and run when enabled, the result is trimmed, and the voice becomes
IDLE when its first envelope is. -/
def Obligations.VoiceSampleFollowsItsSteps : Prop :=
  ∀ (cfg : Cfg) (fs : Number) (p : Snapshot) (v : Voice) (e : Four Number) (ef : Number) (env : Four Env)
    (f : Filt) (nx : Numerics), nx = cfg.numerics →
    (∀ k, env.get k = envNext nx fs (v.env.get k)) →
    (∀ k, e.get k = if (v.env.get k).stage = .idle then .single 0#32 else (env.get k).level) →
    ef = (if v.envF.stage = .idle then .single 0#32 else (envNext nx fs v.envF).level) →
    f = filtUpdate cfg fs p.filtMode p.filtCutoff p.filtRes ef v.filt →
    voiceRender cfg fs p v =
      ({ v with
          env := env
          envF := envNext nx fs v.envF
          osc := (route cfg fs p.algo e v.osc).1
          filt := if p.filtEn then (filtProcess nx f (route cfg fs p.algo e v.osc).2).1 else v.filt
          vstate := if env.k1.stage = .idle then .idle else v.vstate },
        nx.mul cfg.trim (if p.filtEn then (filtProcess nx f (route cfg fs p.algo e v.osc).2).2
          else (route cfg fs p.algo e v.osc).2))

/-- Splitting RENDER into two commands gives the same state as one RENDER of their total
(46_commands R289). -/
def Obligations.RenderSplitsIntoParts : Prop :=
  ∀ (s : State) (a b total : BitVec 16), s.Ready → total.toNat = a.toNat + b.toNat →
    s.ctl.pos.toNat + a.toNat + b.toNat ≤ s.ctl.maxBlock.toNat →
    ∃ u t, exec (.render a) s = .next u ∧ exec (.render b) u = .next t ∧
      exec (.render total) s = .next t

/-! ### FLUSH -/

/-- A FLUSH of an empty block changes nothing, with the vocoder enabled or not (45_vocoder R255). -/
def Obligations.FlushOfAnEmptyBlockChangesNothing : Prop :=
  ∀ s : State, s.Ready → s.ctl.pos = 0#16 → exec .flush s = .next s

/-- FLUSH with the vocoder disabled copies the carrier to OUT and its channel 0 to MON, each number as its
bus word (R290), sets MON_LEN,
clears the carrier and pos, and touches no vocoder state, no written flag and nothing else; bytes
outside the block's windows read as before (46_commands R286 to R288; 45_vocoder R256). -/
def Obligations.FlushCopiesTheCarrier : Prop :=
  ∀ s : State, s.Ready → s.Inv → s.snap.vocEn = false → 0 < s.ctl.pos.toNat →
    ∃ t, exec .flush s = .next t ∧
      t = { s with
        mem := t.mem, car := t.car, outLen := t.outLen, draw := t.draw
        ctl := { s.ctl with pos := 0#16, monLen := s.ctl.pos } } ∧
      (∀ n, n < s.ctl.pos.toNat →
        readWord t.mem (0x30000 + 4 * n) = (carGet s .c0 n).toWord ∧
        readWord t.mem (0x40000 + 4 * n) = (carGet s .c1 n).toWord ∧
        readWord t.mem (0x50000 + 4 * n) = (carGet s .c0 n).toWord) ∧
      (∀ a, ¬InBlock s.ctl.pos.toNat a → readByte t.mem a = readByte s.mem a) ∧
      ∀ c n, carGet t c n = .single 0#32

/-- FLUSH with the vocoder enabled and IN[0] written below pos: every band smooths the mean absolute
value of the modulator through its filter, runs its three filters over the block, and adds its carrier
filters' outputs times the band gain to OUT, bands ascending from 0.0, each sum stored as a bus word
(log 25); MON takes OUT[0]; bytes outside the block's windows read as before (45_vocoder R252; 46_commands
R285 to R288, R290). -/
def Obligations.FlushRunsTheVocoder : Prop :=
  ∀ (s : State) (m : List Number) (car : Two (List Number)) (sm : Band → Number) (nx : Numerics),
    s.Ready → s.Inv → nx = s.cfg.numerics → s.snap.vocEn = true → 0 < s.ctl.pos.toNat →
    (∀ n, n < s.ctl.pos.toNat → inWritten s .c0 n = true) →
    m = (List.range s.ctl.pos.toNat).map (fun n => .single (readWord s.mem (0x10000 + 4 * n))) →
    (∀ c, car.get c = (List.range s.ctl.pos.toNat).map (fun n => carGet s c n)) →
    (∀ b, sm b = nx.add (nx.mul s.snap.vocSmooth b.sm)
      (nx.mul (nx.sub (.single 0x3F800000#32) s.snap.vocSmooth)
        (nx.div ((filtOutputs nx b.fm m).foldl (fun acc y => nx.add acc (nx.abs y)) (.single 0#32))
          (.single (num32 s.ctl.pos.toNat 1))))) →
    ∃ t, exec .flush s = .next t ∧
      t = { s with
        mem := t.mem, car := t.car, outLen := t.outLen, draw := t.draw, bands := t.bands
        ctl := { s.ctl with pos := 0#16, monLen := s.ctl.pos } } ∧
      t.bands = s.bands.map (fun b => { b with
        sm := sm b
        fm := filtRun nx b.fm m
        fcar := ⟨filtRun nx b.fcar.c0 car.c0, filtRun nx b.fcar.c1 car.c1⟩ }) ∧
      (∀ c n, n < s.ctl.pos.toNat →
        readWord t.mem (outBase c + 4 * n) = s.bands.foldl (fun acc b =>
          (nx.add (.single acc)
            (nx.mul ((filtOutputs nx (b.fcar.get c) (car.get c)).getD n (.single 0#32))
              (nx.mul (sm b) s.cfg.vocGain))).toWord) 0#32) ∧
      (∀ n, n < s.ctl.pos.toNat →
        readWord t.mem (0x50000 + 4 * n) = readWord t.mem (0x30000 + 4 * n)) ∧
      (∀ a, ¬InBlock s.ctl.pos.toNat a → readByte t.mem a = readByte s.mem a) ∧
      ∀ c n, carGet t c n = .single 0#32

/-- With f = 0 the smoothed envelope equals the raw one, with f = 1 the previous one, for finite binary32
values (45_vocoder R257). -/
def Obligations.SmoothingLimits : Prop :=
  ∀ previous raw low high : Word, isFinite previous = true → isFinite raw = true →
    low = (smooth .binary32 (.single 0#32) (.single previous) (.single raw)).toWord →
    high = (smooth .binary32 (.single 0x3F800000#32) (.single previous) (.single raw)).toWord →
    (fle low raw = true ∧ fle raw low = true) ∧ (fle high previous = true ∧ fle previous high = true)

/-! ### Oscillator and router -/

/-- For every finite binary32 argument `wrap` answers a number in [0, TWO_PI) (40_oscillator R124; 10_state
R23). -/
def Obligations.WrapStaysBelowTwoPi : Prop :=
  ∀ p : Word, isFinite p = true →
    fle 0#32 (wrap .binary32 (.single p)).toWord = true ∧
      flt (wrap .binary32 (.single p)).toWord 0x40C90FDB#32 = true

/-- One sample of an oscillator, step by step (40_oscillator R123): the DC blocker, the
frequency-modulation term, the wrapped phase, the waveform at the new phase, the scaling; only hp, prevIn
and phase are written. The wrap is the three lines of R124: fmod by TWO_PI, TWO_PI added to a result
below 0.0, and 0.0 in place of a result at TWO_PI or above. The waveforms are those of R126 to R129; SQUARE's comparison is strict. -/
def Obligations.OscillatorSampleFollowsItsSteps : Prop :=
  (∀ (cfg : Cfg) (fs m e : Number) (o : Osc) (hp phase : Number) (nx : Numerics), nx = cfg.numerics →
    hp = nx.mul (dcbAlpha cfg fs) (nx.sub (nx.add o.hp m) o.prevIn) →
    phase = wrap nx (nx.add o.phase (nx.add o.inc (nx.mul hp cfg.modIndex))) →
    oscRender cfg fs m e o =
      ({ o with hp := hp, prevIn := m, phase := phase },
        nx.mul (nx.mul (waveAt nx o.wave phase) o.gain) e)) ∧
  (∀ (nx : Numerics) (p r u : Number),
    r = nx.fmod p nx.twoPi →
    u = (if nx.lt r (.single 0#32) then nx.add r nx.twoPi else r) →
    wrap nx p = if nx.le nx.twoPi u then .single 0#32 else u) ∧
  ∀ (nx : Numerics) (p : Number),
    waveAt nx .sine p = nx.sin p ∧
    waveAt nx .saw p = nx.sub (.single 0x3F800000#32)
      (nx.mul (.single 0x40000000#32) (nx.div p nx.twoPi)) ∧
    waveAt nx .square p
      = (if nx.lt p nx.pi then .single 0x3F800000#32 else .single 0xBF800000#32) ∧
    waveAt nx .triangle p = nx.mul (nx.div (.single 0x40000000#32) nx.pi) (nx.asin (nx.sin p)) ∧
    (nx = .binary32 → nx.pi = .single 0x40490FDB#32 ∧ nx.twoPi = .single 0x40C90FDB#32)

/-- DCB_ALPHA(fs) with the default formula is (fs - TWO_PI * DCB_FC) / fs at every NUMERICS. At binary32 with
DCB_FC = 40 and every accepted sample rate it lies between 0.99371 and 0.99935, so strictly between 0 and
1 (40_oscillator R125, whose lower figure 0.99372 is 0.9937168, the value just above 40000 Hz, rounded). -/
def Obligations.DcBlockerCoefficientIsBelowOne : Prop :=
  (∀ (cfg : Cfg) (fs : Number) (nx : Numerics), nx = cfg.numerics → cfg.dcb = .corrected →
    dcbAlpha cfg fs = nx.div (nx.sub fs (nx.mul nx.twoPi cfg.dcbFc)) fs) ∧
  ∀ (cfg : Cfg) (fs : Word), cfg.numerics = .binary32 → cfg.dcb = .corrected →
    cfg.dcbFc = .single 0x42200000#32 → flt 0x471C4000#32 fs = true → fle fs 0x48BB8000#32 = true →
    flt 0x3F7E63C7#32 (dcbAlpha cfg (.single fs)).toWord = true ∧
      flt (dcbAlpha cfg (.single fs)).toWord 0x3F7FD567#32 = true

/-- The SAW lies in (-1, 1] at every binary32 phase in [0, TWO_PI): -1 is never produced (40_oscillator R127). -/
def Obligations.SawNeverReachesMinusOne : Prop :=
  ∀ p : Word, fle 0#32 p = true → flt p 0x40C90FDB#32 = true →
    flt 0xBF800000#32 (waveAt .binary32 .saw (.single p)).toWord = true ∧
      fle (waveAt .binary32 .saw (.single p)).toWord 0x3F800000#32 = true

/-- The eight topologies (43_router R202 to R209), each row as its pseudocode writes it: oscillators 4,
3, 2, 1 in that order with their modulation inputs, then the combination. -/
def Obligations.RouterRowsAreTheTopologies : Prop :=
  ∀ (cfg : Cfg) (fs : Number) (e : Four Number) (o : Four Osc) (r : OscId → Number → Osc × Number)
    (nx : Numerics) (z : Number), nx = cfg.numerics → z = .single 0#32 →
    (∀ k m, r k m = oscRender cfg fs m (e.get k) (o.get k)) →
    (∀ o4 o3 o2 o1, o4 = r .k4 z → o3 = r .k3 o4.2 → o2 = r .k2 o3.2 → o1 = r .k1 o2.2 →
      route cfg fs .a0 e o = (⟨o1.1, o2.1, o3.1, o4.1⟩, o1.2)) ∧
    (∀ o4 o3 o2 o1, o4 = r .k4 z → o3 = r .k3 z → o2 = r .k2 (nx.add o4.2 o3.2) →
      o1 = r .k1 o2.2 → route cfg fs .a1 e o = (⟨o1.1, o2.1, o3.1, o4.1⟩, o1.2)) ∧
    (∀ o4 o3 o2 o1, o4 = r .k4 z → o3 = r .k3 o4.2 → o2 = r .k2 o4.2 →
      o1 = r .k1 (nx.add o3.2 o2.2) → route cfg fs .a2 e o = (⟨o1.1, o2.1, o3.1, o4.1⟩, o1.2)) ∧
    (∀ o4 o3 o2 o1, o4 = r .k4 z → o3 = r .k3 o4.2 → o2 = r .k2 o3.2 → o1 = r .k1 o3.2 →
      route cfg fs .a3 e o
        = (⟨o1.1, o2.1, o3.1, o4.1⟩, nx.div (nx.add o2.2 o1.2) (.single 0x40000000#32))) ∧
    (∀ o4 o3 o2 o1, o4 = r .k4 z → o3 = r .k3 z → o2 = r .k2 z →
      o1 = r .k1 (nx.add (nx.add o4.2 o3.2) o2.2) →
      route cfg fs .a4 e o = (⟨o1.1, o2.1, o3.1, o4.1⟩, o1.2)) ∧
    (∀ o4 o3 o2 o1, o4 = r .k4 z → o3 = r .k3 o4.2 → o2 = r .k2 o4.2 → o1 = r .k1 o4.2 →
      route cfg fs .a5 e o
        = (⟨o1.1, o2.1, o3.1, o4.1⟩, nx.div (nx.add (nx.add o3.2 o2.2) o1.2) (.single 0x40400000#32))) ∧
    (∀ o4 o3 o2 o1, o4 = r .k4 z → o3 = r .k3 z → o2 = r .k2 (nx.add o4.2 o3.2) →
      o1 = r .k1 (nx.add o4.2 o3.2) →
      route cfg fs .a6 e o
        = (⟨o1.1, o2.1, o3.1, o4.1⟩, nx.div (nx.add o2.2 o1.2) (.single 0x40000000#32))) ∧
    (∀ o4 o3 o2 o1, o4 = r .k4 z → o3 = r .k3 z → o2 = r .k2 z → o1 = r .k1 z →
      route cfg fs .a7 e o
        = (⟨o1.1, o2.1, o3.1, o4.1⟩,
            nx.mul (nx.add (nx.add (nx.add o4.2 o3.2) o2.2) o1.2) (.single 0x3E800000#32)))

/-! ### Envelope -/

/-- At binary32, within ATTACK the level does not fall; within DECAY it does not rise unless the sustain
level is above it; within RELEASE it does not rise (41_envelope R164). -/
def Obligations.EnvelopeIsMonotoneWithinAStage : Prop :=
  ∀ (fs : Number) (e : Env) (level next : Word), EnvOk .binary32 true e → level = e.level.toWord →
    next = (envNext .binary32 fs e).level.toWord →
    (e.stage = .attack → fle level next = true) ∧
    (e.stage = .decay → flt level e.s.toWord = true ∨ fle next level = true) ∧
    (e.stage = .release → fle next level = true)

/-- One sample of an envelope, step by step: ATTACK adds the rate and ends at 1.0, where DECAY starts at the
rate env_rate(1.0 - S, D); DECAY takes the rate off and ends at S; SUSTAIN holds S; RELEASE takes the rate
off and ends at 0.0 in IDLE; IDLE changes nothing (41_envelope R155 to R159, R161). Times of 0 are
instantaneous (R162): with A = 0 the first sample after note-on is 1.0 in DECAY; with D = 0 as well the
second is S in SUSTAIN, unless S is NaN; with R = 0 the first sample after note-off is 0.0 in IDLE. -/
def Obligations.ZeroTimesAreInstantaneous : Prop :=
  (∀ (nx : Numerics) (fs : Number) (e : Env) (up : Number) (down : Number → Number),
    up = (match e.rate with
      | .instant => .single 0x3F800000#32
      | .step x => nx.add e.level x) →
    (∀ target, down target = match e.rate with
      | .instant => target
      | .step x => nx.sub e.level x) →
    (e.stage = .attack → envNext nx fs e =
      if nx.le (.single 0x3F800000#32) up then
        { e with
          level := .single 0x3F800000#32
          stage := .decay
          rate := if nx.lt (.single 0#32) e.d then
            .step (nx.div (nx.sub (.single 0x3F800000#32) e.s) (nx.mul e.d fs)) else .instant }
      else { e with level := up }) ∧
    (e.stage = .decay → envNext nx fs e =
      if nx.le (down e.s) e.s then { e with level := e.s, stage := .sustain }
      else { e with level := down e.s }) ∧
    (e.stage = .sustain → envNext nx fs e = { e with level := e.s }) ∧
    (e.stage = .release → envNext nx fs e =
      if nx.le (down (.single 0#32)) (.single 0#32) then
        { e with level := .single 0#32, stage := .idle }
      else { e with level := down (.single 0#32) }) ∧
    (e.stage = .idle → envNext nx fs e = e)) ∧
  ∀ (nx : Numerics) (fs : Number) (e : Env),
    (e.a = .single 0#32 →
      (envNext nx fs (envNoteOn nx fs e)).level = .single 0x3F800000#32
        ∧ (envNext nx fs (envNoteOn nx fs e)).stage = .decay) ∧
    (e.a = .single 0#32 → e.d = .single 0#32 → nx.le e.s e.s = true →
      (envNext nx fs (envNext nx fs (envNoteOn nx fs e))).level = e.s
        ∧ (envNext nx fs (envNext nx fs (envNoteOn nx fs e))).stage = .sustain) ∧
    (e.r = .single 0#32 → e.stage ≠ .idle →
      (envNext nx fs (envNoteOff nx fs e)).level = .single 0#32
        ∧ (envNext nx fs (envNoteOff nx fs e)).stage = .idle)

/-! ### Filter -/

/-- The filter's sample, in the order of 42_filter R183, and the output its mode selects; the mode does
not enter the integrators (R184). The block path runs the samples one after another, in order (R187). The
update sets mode, cutoff, resonance and the three coefficients, and leaves both integrators (R181, R182). -/
def Obligations.FilterSampleFollowsItsSteps : Prop :=
  (∀ (nx : Numerics) (f : Filt) (x yHP yBP yLP : Number),
    yHP = nx.mul f.h (nx.sub (nx.sub x (nx.mul f.s1 (nx.add f.g f.r2))) f.s2) →
    yBP = nx.add (nx.mul yHP f.g) f.s1 →
    yLP = nx.add (nx.mul yBP f.g) f.s2 →
    ∀ mode : FMode, filtProcess nx { f with mode := mode } x =
      ({ f with
          mode := mode
          s1 := nx.add (nx.mul yHP f.g) yBP
          s2 := nx.add (nx.mul yBP f.g) yLP },
        match mode with
        | .lp => yLP
        | .bp => yBP
        | .hp => yHP)) ∧
  (∀ (nx : Numerics) (f : Filt) (x : Number) (xs : List Number),
    filtRun nx f [] = f ∧ filtRun nx f (x :: xs) = filtRun nx (filtProcess nx f x).1 xs ∧
    filtOutputs nx f [] = [] ∧
    filtOutputs nx f (x :: xs)
      = (filtProcess nx f x).2 :: filtOutputs nx (filtProcess nx f x).1 xs) ∧
  ∀ (cfg : Cfg) (fs : Number) (mode : FMode) (base res ev fc q g r2 : Number) (f : Filt) (nx : Numerics),
    nx = cfg.numerics →
    fc = nx.clamp (nx.add base (nx.mul ev (nx.sub cfg.cutoffMax base))) cfg.cutoffMin cfg.cutoffMax →
    q = nx.clamp res (.single 0x3F800000#32) (.single 0x41200000#32) →
    g = nx.tan (nx.div (nx.mul nx.pi fc) fs) → r2 = nx.div (.single 0x3F800000#32) q →
    filtUpdate cfg fs mode base res ev f =
      { mode := mode, fc := fc, res := q, g := g, r2 := r2
        h := nx.div (.single 0x3F800000#32)
          (nx.add (nx.add (.single 0x3F800000#32) (nx.mul r2 g)) (nx.mul g g))
        s1 := f.s1, s2 := f.s2 }

/-- The cutoff law at binary32 and the default limits (42_filter R181, R186): with ev = 0 the cutoff is the
clamped base; for a base in [20, 20000] and ev in [0, 1] it is in [base, 20000]: modulation only raises
it. -/
def Obligations.ModulationOnlyRaisesTheCutoff : Prop :=
  ∀ base ev fc : Word, isFinite base = true →
    fc = (cutoffOf referenceCfg (.single base) (.single ev)).toWord →
    (cutoffOf referenceCfg (.single base) (.single 0#32)).toWord
      = (Numerics.binary32.clamp (.single base)
          (.single 0x41A00000#32) (.single 0x469C4000#32)).toWord ∧
    (fle 0x41A00000#32 base = true → fle base 0x469C4000#32 = true → fle 0#32 ev = true →
      fle ev 0x3F800000#32 = true → fle base fc = true ∧ fle fc 0x469C4000#32 = true)

/-- At binary32, at every accepted sample rate and every cutoff in [20, 20000], the tangent's argument stays
below pi/2, so the coefficient g is finite and positive (42_filter R182; tan within its properties, log 2). -/
def Obligations.FilterCoefficientIsPositive : Prop :=
  ∀ fs fc : Word, flt 0x471C4000#32 fs = true → fle fs 0x48BB8000#32 = true →
    fle 0x41A00000#32 fc = true → fle fc 0x469C4000#32 = true →
    flt 0#32 (coefG .binary32 (.single fs) (.single fc)).toWord = true ∧
      isFinite (coefG .binary32 (.single fs) (.single fc)).toWord = true

/-! ### Arithmetic -/

/-- The arithmetic of the datapath (00_scope R14, R15). At binary32 the sum, difference, product and quotient
of finite numbers are the numbers nearest to the exact ones, ties to even, infinite from the midpoint
beyond the largest number on; fmod is the exact remainder with the sign of the dividend, of smaller
magnitude than the divisor, and NaN for a dividend that is not finite; < and <= are the order of the
values; NaN operands give NaN, and false comparisons; abs clears the sign (log 18 for fmod by an infinity or
by zero, and for the sign of a zero remainder). Another NUMERICS compares by value, its fmod is the
exact remainder too, and its abs the absolute value (log 1); a comparison with NaN is false, and fmod of a non-finite dividend is NaN, in
every NUMERICS. min, max and clamp are R15's: a strictly smaller (larger) second operand, else the first,
so that both zeros keep their place. A number n / d of another NUMERICS is stored on the bus as the
nearest word (46_commands R290; log 1). -/
def Obligations.ResultsRoundToNearestEven : Prop :=
  (∀ a b : Word, isFinite a = true → isFinite b = true →
    NearestEven (fadd a b) (sfixOf a + sfixOf b) 1 ∧
    NearestEven (fsub a b) (sfixOf a - sfixOf b) 1 ∧
    NearestEven (fmul a b) (sfixOf a * sfixOf b) (2 ^ 149) ∧
    (isZero b = false → NearestEven (fdiv a b) (sfixOf a * 2 ^ 149) (sfixOf b)) ∧
    (isZero b = false → isFinite (fmod a b) = true ∧ isNeg (fmod a b) = isNeg a ∧
      sfixOf (fmod a b) = (sfixOf a).tmod (sfixOf b) ∧
      (sfixOf (fmod a b)).natAbs < (sfixOf b).natAbs) ∧
    (flt a b = true ↔ sfixOf a < sfixOf b) ∧ (fle a b = true ↔ sfixOf a ≤ sfixOf b)) ∧
  (∀ a b : Word,
    (isNaN a = true ∨ isNaN b = true →
      isNaN (fadd a b) = true ∧ isNaN (fsub a b) = true ∧ isNaN (fmul a b) = true ∧
      isNaN (fdiv a b) = true ∧ isNaN (fmod a b) = true ∧ flt a b = false ∧ fle a b = false) ∧
    (isNaN a = false → isNaN b = false → fle a b = !flt b a) ∧
    (isInf a = true → isNaN b = false →
      (flt a b = true ↔ isNeg a = true ∧ b ≠ a) ∧ (flt b a = true ↔ isNeg a = false ∧ b ≠ a)) ∧
    (isFinite a = false ∨ isZero b = true → isNaN (fmod a b) = true) ∧
    (isFinite a = true → isInf b = true → fmod a b = a) ∧
    magOf (fabs a) = magOf a ∧ isNeg (fabs a) = false) ∧
  (∀ (a b : Number) (nx : Numerics), nx = .binary32 →
    nx.add a b = .single (fadd a.toWord b.toWord) ∧ nx.sub a b = .single (fsub a.toWord b.toWord) ∧
    nx.mul a b = .single (fmul a.toWord b.toWord) ∧ nx.div a b = .single (fdiv a.toWord b.toWord) ∧
    nx.fmod a b = .single (fmod a.toWord b.toWord) ∧ nx.abs a = .single (fabs a.toWord) ∧
    nx.lt a b = flt a.toWord b.toWord ∧ nx.le a b = fle a.toWord b.toWord) ∧
  (∀ (a b : Number) (p q : ℚ) (nx : Numerics), nx = .other → a.value = .fin p → b.value = .fin q →
    (nx.lt a b = true ↔ p < q) ∧ (nx.le a b = true ↔ p ≤ q) ∧ (nx.abs a).value = .fin |p| ∧
    (q ≠ 0 → ∃ (r : ℚ) (k : ℤ), (nx.fmod a b).value = .fin r ∧ r = p - q * k ∧ |r| < |q| ∧ 0 ≤ r * p)) ∧
  (∀ (nx : Numerics) (a b : Number),
    (a.value = .nan ∨ b.value = .nan → nx.lt a b = false ∧ nx.le a b = false) ∧
    ((∀ p, a.value ≠ .fin p) → (nx.fmod a b).value = .nan) ∧
    nx.min a b = (if nx.lt b a then b else a) ∧
    nx.max a b = (if nx.lt a b then b else a)) ∧
  (∀ (nx : Numerics) (x lo hi : Number),
    (nx.lt x lo = false → nx.lt hi x = false → nx.clamp x lo hi = x) ∧
    (nx.lt x lo = false → nx.lt hi x = true → nx.clamp x lo hi = hi) ∧
    (nx.lt x lo = true → nx.lt hi lo = false → nx.clamp x lo hi = lo) ∧
    (nx.lt x lo = true → nx.lt hi lo = true → nx.clamp x lo hi = hi)) ∧
  (∀ (nx : Numerics) (neg pos : Number), neg = .single 0x80000000#32 → pos = .single 0#32 →
    nx.min neg pos = neg ∧ nx.min pos neg = pos ∧ nx.max neg pos = neg ∧ nx.max pos neg = pos) ∧
  ∀ (neg : Bool) (n d : Nat), 0 < d →
    NearestEven (Number.wide neg n d).toWord ((if neg then -(n : Int) else n) * 2 ^ 149) d

/-! ### The bus -/

/-- STATUS, field by field (20_memory R66): FAULTED, PREPARED, LATCHED, zeros, POS; 0 after power-on, 2
after a successful PREPARE. A read changes nothing else (R71). -/
def Obligations.StatusRegisterFields : Prop :=
  (∀ (s : State) (rest : List Access), s.host = .read 32 0x10C#20 :: rest →
    ∃ t, step s = .next t ∧ t = { s with host := rest, rdata := t.rdata } ∧
      t.rdata.getLsbD 0 = s.ctl.faulted ∧ t.rdata.getLsbD 1 = s.ctl.prepared ∧
      t.rdata.getLsbD 2 = s.ctl.latched ∧ (∀ b, 3 ≤ b → b ≤ 15 → t.rdata.getLsbD b = false) ∧
      t.rdata.extractLsb' 16 16 = s.ctl.pos) ∧
  (∀ t, step { State.reset with host := [.read 32 0x10C#20] } = .next t → t.rdata = 0x00000000#32) ∧
  (∀ s t u, exec .prepare s = .next t → t.ctl.faulted = false →
    step { t with host := [.read 32 0x10C#20] } = .next u → u.rdata = 0x00000002#32)

/-- The status and configuration registers read what 20_memory R65 and R67 say: bit v of VOICE_ACTIVE is
1 exactly when voice v is SOUNDING or RELEASING, bits at NUM_VOICES and above are 0. A write to any of
them raises BUS_ERROR. -/
def Obligations.StatusRegistersReadTheirContent : Prop :=
  ∀ (s : State) (rest : List Access), s.Inv →
    (∀ t, step { s with host := .read 32 0x110#20 :: rest } = .next t →
      t.rdata.toNat = s.ctl.faultCode.toNat) ∧
    (∀ t, step { s with host := .read 32 0x114#20 :: rest } = .next t → t.rdata = s.ctl.faultInfo) ∧
    (∀ t b, step { s with host := .read 32 0x118#20 :: rest } = .next t → b < 32 →
      (∀ v, s.voices[b]? = some v →
        (t.rdata.getLsbD b = true ↔ v.vstate = .sounding ∨ v.vstate = .releasing)) ∧
      (s.voices.length ≤ b → t.rdata.getLsbD b = false)) ∧
    (∀ t, step { s with host := .read 32 0x11C#20 :: rest } = .next t → t.rdata = s.ctl.monFreq.toWord) ∧
    (∀ t, step { s with host := .read 32 0x120#20 :: rest } = .next t →
      t.rdata.toNat = s.ctl.monLen.toNat) ∧
    (∀ t, step { s with host := .read 32 0x124#20 :: rest } = .next t →
      t.rdata.toNat = s.voices.length) ∧
    (∀ t, step { s with host := .read 32 0x128#20 :: rest } = .next t →
      t.rdata.toNat = s.cfg.maxBlockHw) ∧
    (∀ (a : Addr) (w : Word), 0x10C ≤ a.toNat → a.toNat ≤ 0x128 → s.ctl.faulted = false →
      step { s with host := .write 32 a w :: rest }
        = .next (withFault 10#8 (a.setWidth 32) { s with host := rest }))

/-- A read or write that is misaligned, not 32 bits wide or unmapped, or a write to a read-only address,
transfers no data: a failed read returns 0, and BUS_ERROR is recorded with the address unless a fault is
recorded already (60_exceptions R305; 20_memory R61, R69; 46_commands R296, R297). -/
def Obligations.FailedAccessesRaiseBusError : Prop :=
  ∀ (s : State) (bits : Nat) (a : Addr) (w : Word) (rest : List Access) (e : State), s.Inv →
    e = (if s.ctl.faulted then { s with host := rest }
      else withFault 10#8 (a.setWidth 32) { s with host := rest }) →
    (bits ≠ 32 ∨ ¬Mapped s.cfg.maxBlockHw a.toNat →
      step { s with host := .read bits a :: rest } = .next { e with rdata := 0#32 }) ∧
    (bits ≠ 32 ∨ ¬Mapped s.cfg.maxBlockHw a.toNat ∨ ReadOnly a.toNat →
      step { s with host := .write bits a w :: rest } = .next e)

/-- A 32-bit read of a mapped address raises nothing and changes nothing but the word returned, faulted
or not (20_memory R71; 46_commands R296). CMD returns 0, an IN element the word
stored if it was written since PREPARE or no PREPARE has succeeded yet (10_state R36; log 8), a MON element
below MON_LEN its word (10_state R39), and an OUT element below what FLUSH has written since PREPARE,
the model's outLen (log 7), its word. -/
def Obligations.ReadsHaveNoSideEffect : Prop :=
  ∀ (s : State) (a : Addr) (rest : List Access), s.Inv → Mapped s.cfg.maxBlockHw a.toNat →
    ∃ t, step { s with host := .read 32 a :: rest } = .next t ∧
      t = { s with host := rest, rdata := t.rdata } ∧
      (a.toNat = 0x100 → t.rdata = 0#32) ∧
      (∀ c n, n < s.cfg.maxBlockHw → a.toNat = inBase c + 4 * n →
        inWritten s c n = true ∨ s.ctl.prepared = false → t.rdata = readWord s.mem a.toNat) ∧
      (∀ c n, n < s.outLen → a.toNat = outBase c + 4 * n → t.rdata = readWord s.mem a.toNat) ∧
      (∀ n, n < s.ctl.monLen.toNat → a.toNat = 0x50000 + 4 * n → t.rdata = readWord s.mem a.toNat)

/-- A host write to IN[c][n] stores the word, little-endian, and sets that element's written flag, and
nothing else, faulted or not; a read returns the word (20_memory R64, R68; 46_commands R297). -/
def Obligations.HostWritesToInputAreStored : Prop :=
  ∀ (s : State) (c : Chan) (n : Nat) (w : Word) (rest : List Access), s.Inv → n < s.cfg.maxBlockHw →
    s.host = .write 32 (BitVec.ofNat 20 (inBase c + 4 * n)) w ::
      .read 32 (BitVec.ofNat 20 (inBase c + 4 * n)) :: rest →
    ∃ t u, step s = .next t ∧ step t = .next u ∧ u.rdata = w ∧
      u = { s with host := rest, rdata := u.rdata, mem := t.mem, inW := t.inW } ∧
      (∀ i, i < 4 → readByte t.mem (inBase c + 4 * n + i) = w.extractLsb' (8 * i) 8) ∧
      (∀ a, a < inBase c + 4 * n ∨ inBase c + 4 * n + 4 ≤ a →
        readByte t.mem a = readByte s.mem a) ∧
      inWritten t c n = true ∧
      ∀ d m, d ≠ c ∨ m ≠ n → inWritten t d m = inWritten s d m

/-- PREP_RATE takes and reads back the word; PREP_MAXBLOCK takes bits [15:0], the rest read 0; nothing
else changes (20_memory R63; 46_commands R297). -/
def Obligations.PrepRegistersTakeTheWord : Prop :=
  ∀ (s : State) (w : Word) (rest : List Access),
    (s.host = .write 32 0x104#20 w :: .read 32 0x104#20 :: rest →
      ∃ t, step s = .next t ∧
        step t = .next { s with host := rest, prepRate := w, rdata := w }) ∧
    (s.host = .write 32 0x108#20 w :: .read 32 0x108#20 :: rest →
      ∃ t u, step s = .next t ∧ step t = .next u ∧
        u = { s with host := rest, prepMaxBlock := w.extractLsb' 0 16, rdata := u.rdata } ∧
        u.rdata.toNat = w.toNat % 2 ^ 16)
end

