-- ==== Sys2Proof/Laws/Numerics.lean ====
section
/-! SUPPORT. Laws of the binary32 arithmetic: fields of a pattern, rounding is monotone and exact on
representable values, signs and ranges of results. -/

namespace Sys2Proof.Machine

open Sys2Proof

/-! ### Fields of a pattern -/

theorem infPat_eq : infPat = 255 * 2 ^ 23 := rfl

theorem magOf_lt (x : Word) : magOf x < 2 ^ 31 := Nat.mod_lt _ (by decide)

theorem toNat_mkNum (neg : Bool) {p : Nat} (hp : p < 2 ^ 31) :
    (mkNum neg p).toNat = if neg then p + 2 ^ 31 else p := by
  rw [mkNum, BitVec.toNat_ofNat]
  cases neg
  · exact Nat.mod_eq_of_lt (by simp; omega)
  · exact Nat.mod_eq_of_lt (by simp; omega)

theorem isNeg_mkNum (neg : Bool) {p : Nat} (hp : p < 2 ^ 31) : isNeg (mkNum neg p) = neg := by
  rw [isNeg, BitVec.msb_eq_decide, toNat_mkNum neg hp]
  cases neg <;> simp <;> omega

theorem magOf_mkNum (neg : Bool) {p : Nat} (hp : p < 2 ^ 31) : magOf (mkNum neg p) = p := by
  rw [magOf, toNat_mkNum neg hp]
  cases neg <;> simp <;> omega

theorem mkNum_magOf (x : Word) : mkNum (isNeg x) (magOf x) = x := by
  apply BitVec.eq_of_toNat_eq
  rw [toNat_mkNum _ (magOf_lt x), isNeg, BitVec.msb_eq_decide, magOf]
  have := x.isLt
  by_cases h : 2 ^ 31 ≤ x.toNat
  · rw [decide_eq_true (by simpa using h), if_pos rfl]; omega
  · rw [decide_eq_false (by simpa using h), if_neg (by simp)]; omega

/-- A NaN result is a NaN. -/
@[simp] theorem isNaN_nanOf (op : NumOp) (a b : Word) : isNaN (nanOf op a b) = true := by
  have hb : ∀ i, 22 ≤ i → i < 31 → (nanOf op a b).getLsbD i = true := by
    intro i h1 h2
    simp only [nanOf, BitVec.getLsbD_or]
    have : (0x7FC00000#32).getLsbD i = true := by interval_cases i <;> rfl
    rw [this, Bool.or_true]
  have hlow : (nanOf op a b).extractLsb' 22 9 = 0x1FF#9 := by
    ext i hi
    rw [BitVec.getElem_extractLsb', hb _ (by omega) (by omega)]
    have hones : (0x1FF#9) = BitVec.allOnes 9 := by decide
    rw [hones, BitVec.getElem_allOnes]
  have hn := congrArg BitVec.toNat hlow
  rw [BitVec.extractLsb'_toNat, Nat.shiftRight_eq_div_pow] at hn
  have hr : (0x1FF#9).toNat = 511 := rfl
  rw [hr] at hn
  have hm : 0x7F800000 < (nanOf op a b).toNat % 2 ^ 31 := by omega
  exact decide_eq_true hm

/-! ### Rounding -/

theorem roundNat_ge (n d : Nat) : n / d ≤ roundNat n d := by
  unfold roundNat; split
  · exact le_refl _
  · split <;> omega

theorem roundNat_le (n d : Nat) : roundNat n d ≤ n / d + 1 := by
  unfold roundNat; split
  · omega
  · split <;> omega

theorem roundNat_mono {n n' : Nat} (d : Nat) (h : n ≤ n') : roundNat n d ≤ roundNat n' d := by
  rcases Nat.lt_or_ge (n / d) (n' / d) with hq | hq
  · exact (roundNat_le n d).trans ((Nat.succ_le_of_lt hq).trans (roundNat_ge n' d))
  · have heq : n / d = n' / d := le_antisymm (Nat.div_le_div_right h) hq
    have hr : n % d ≤ n' % d := by
      have h1 := Nat.div_add_mod n d
      have h2 := Nat.div_add_mod n' d
      rw [heq] at h1
      omega
    unfold roundNat
    rw [heq]
    split_ifs <;> omega

theorem roundNat_mul (m d : Nat) (hd : 0 < d) : roundNat (m * d) d = m := by
  unfold roundNat
  rw [Nat.mul_mod_left, if_pos (by omega), Nat.mul_div_cancel _ hd]

/-- The exponent a rounding uses. -/
def roundExp (n d : Nat) : Nat := Nat.log2 (n / d) - 23

theorem roundPat_eq (n d : Nat) :
    roundPat n d = min (roundExp n d * 2 ^ 23 + roundNat n (d * 2 ^ roundExp n d)) infPat := rfl

theorem roundPat_le_infPat (n d : Nat) : roundPat n d ≤ infPat := min_le_right _ _

theorem roundPat_lt (n d : Nat) : roundPat n d < 2 ^ 31 :=
  (roundPat_le_infPat n d).trans_lt (by decide)

theorem roundQuot_lt (n d : Nat) : n / (d * 2 ^ roundExp n d) < 2 ^ 24 := by
  rw [← Nat.div_div_eq_div_mul]
  rcases Nat.eq_zero_or_pos (n / d) with h0 | h0
  · rw [h0]; simp
  · have h1 : n / d < 2 ^ ((n / d).log2 + 1) := Nat.lt_log2_self
    apply Nat.div_lt_of_lt_mul
    rw [← pow_add]
    exact h1.trans_le (Nat.pow_le_pow_right (by decide) (by unfold roundExp; omega))

theorem roundQuot_ge {n d : Nat} (he : 0 < roundExp n d) : 2 ^ 23 ≤ n / (d * 2 ^ roundExp n d) := by
  rw [← Nat.div_div_eq_div_mul]
  have h0 : n / d ≠ 0 := by
    intro h; rw [roundExp, h] at he; simp at he
  have h1 : 2 ^ (n / d).log2 ≤ n / d := Nat.log2_self_le h0
  rw [Nat.le_div_iff_mul_le (by positivity), ← pow_add]
  exact (Nat.pow_le_pow_right (by decide) (by unfold roundExp at he ⊢; omega)).trans h1

/-- Rounding is monotone. -/
theorem roundPat_mono {n n' : Nat} (d : Nat) (h : n ≤ n') : roundPat n d ≤ roundPat n' d := by
  rw [roundPat_eq, roundPat_eq]
  apply min_le_min_right
  have he : roundExp n d ≤ roundExp n' d := by
    unfold roundExp
    have hq : n / d ≤ n' / d := Nat.div_le_div_right h
    rcases Nat.eq_zero_or_pos (n / d) with h0 | h0
    · rw [h0]; simp
    · have : (n / d).log2 ≤ (n' / d).log2 :=
        (Nat.le_log2 (by omega)).2 ((Nat.log2_self_le (by omega)).trans hq)
      omega
  rcases he.eq_or_lt with heq | hlt
  · rw [heq]
    exact Nat.add_le_add_left (roundNat_mono _ h) _
  · have h1 : roundNat n (d * 2 ^ roundExp n d) ≤ 2 ^ 24 :=
      (roundNat_le _ _).trans (roundQuot_lt n d)
    have h2 : 2 ^ 23 ≤ roundNat n' (d * 2 ^ roundExp n' d) :=
      (roundQuot_ge (by omega)).trans (roundNat_ge _ _)
    have h3 : (roundExp n d + 1) * 2 ^ 23 ≤ roundExp n' d * 2 ^ 23 := Nat.mul_le_mul_right _ hlt
    omega

theorem log2_mul_two_pow {m k : Nat} (hm : 2 ^ 23 ≤ m) (hm' : m < 2 ^ 24) :
    Nat.log2 (m * 2 ^ k) = 23 + k := by
  have hne : m * 2 ^ k ≠ 0 := by positivity
  rw [Nat.log2_eq_iff hne, pow_add, pow_add, pow_add]
  have : 0 < 2 ^ k := by positivity
  constructor
  · exact Nat.mul_le_mul_right _ hm
  · nlinarith

/-- Representable values round to themselves. -/
theorem roundPat_fixOf {p : Nat} (hp : p < infPat) : roundPat (fixOf p) 1 = p := by
  rw [roundPat_eq]
  by_cases h : p < 2 ^ 23
  · have hf : fixOf p = p := by rw [fixOf, if_pos h]
    have he : roundExp p 1 = 0 := by
      rw [roundExp, Nat.div_one]
      rcases Nat.eq_zero_or_pos p with h0 | h0
      · subst h0; rfl
      · have := (Nat.log2_lt (by omega)).2 h; omega
    rw [hf, he]
    have := roundNat_mul p 1 (by decide)
    simp only [Nat.mul_one] at this
    simp only [pow_zero, Nat.mul_one, Nat.zero_mul, Nat.zero_add, this]
    omega
  · have hf : fixOf p = (p % 2 ^ 23 + 2 ^ 23) * 2 ^ (p / 2 ^ 23 - 1) := by rw [fixOf, if_neg h]
    have hm1 : 2 ^ 23 ≤ p % 2 ^ 23 + 2 ^ 23 := Nat.le_add_left _ _
    have hm2 : p % 2 ^ 23 + 2 ^ 23 < 2 ^ 24 := by omega
    have he : roundExp (fixOf p) 1 = p / 2 ^ 23 - 1 := by
      rw [roundExp, Nat.div_one, hf, log2_mul_two_pow hm1 hm2]; omega
    rw [he, hf, Nat.one_mul, roundNat_mul _ _ (by positivity)]
    omega

theorem fixOf_mono {p q : Nat} (h : p ≤ q) : fixOf p ≤ fixOf q := by
  unfold fixOf
  split
  · rename_i hp
    split
    · exact h
    · have h1 : 0 < 2 ^ (q / 2 ^ 23 - 1) := by positivity
      have h2 : p ≤ q % 2 ^ 23 + 2 ^ 23 := by omega
      nlinarith
  · rename_i hp
    rw [if_neg (by omega)]
    rcases Nat.lt_or_ge (p / 2 ^ 23) (q / 2 ^ 23) with hlt | hge
    · have h1 : p % 2 ^ 23 + 2 ^ 23 ≤ 2 * 2 ^ 23 := by omega
      have h2 : 2 * 2 ^ (p / 2 ^ 23 - 1) ≤ 2 ^ (q / 2 ^ 23 - 1) := by
        rw [← pow_succ']
        exact Nat.pow_le_pow_right (by decide) (by omega)
      calc (p % 2 ^ 23 + 2 ^ 23) * 2 ^ (p / 2 ^ 23 - 1)
          ≤ (2 * 2 ^ 23) * 2 ^ (p / 2 ^ 23 - 1) := Nat.mul_le_mul_right _ h1
        _ = 2 ^ 23 * (2 * 2 ^ (p / 2 ^ 23 - 1)) := by ring
        _ ≤ 2 ^ 23 * 2 ^ (q / 2 ^ 23 - 1) := Nat.mul_le_mul_left _ h2
        _ ≤ (q % 2 ^ 23 + 2 ^ 23) * 2 ^ (q / 2 ^ 23 - 1) := Nat.mul_le_mul_right _ (by omega)
    · have heq : p / 2 ^ 23 = q / 2 ^ 23 := by omega
      rw [heq]
      exact Nat.mul_le_mul_right _ (by omega)

/-- The order of values is the order of patterns. -/
theorem fixOf_lt_iff {p q : Nat} (hp : p < infPat) (hq : q < infPat) :
    fixOf p < fixOf q ↔ p < q := by
  constructor
  · intro h
    by_contra hc
    exact absurd (fixOf_mono (Nat.le_of_not_lt hc)) (Nat.not_le.2 h)
  · intro h
    refine lt_of_le_of_ne (fixOf_mono h.le) fun he => ?_
    have := roundPat_fixOf hp
    rw [he, roundPat_fixOf hq] at this
    omega

theorem fixOf_pos {p : Nat} (h : 0 < p) : 0 < fixOf p := by
  unfold fixOf
  split
  · exact h
  · positivity

@[simp] theorem fixOf_zero : fixOf 0 = 0 := rfl

/-- An integer at most a representable value rounds to at most its pattern. -/
theorem roundPat_le_of_le {n p : Nat} (hp : p < infPat) (h : n ≤ fixOf p) : roundPat n 1 ≤ p := by
  have := roundPat_mono 1 h
  rwa [roundPat_fixOf hp] at this

/-! ### Comparisons -/

theorem fle_iff (a b : Word) :
    fle a b = true ↔ isNaN a = false ∧ isNaN b = false ∧ rank a ≤ rank b := by
  simp [fle, and_assoc]

theorem flt_iff (a b : Word) :
    flt a b = true ↔ isNaN a = false ∧ isNaN b = false ∧ rank a < rank b := by
  simp [flt, and_assoc]

theorem isNaN_iff (x : Word) : isNaN x = true ↔ infPat < magOf x := by simp [isNaN]

theorem isNaN_false_iff (x : Word) : isNaN x = false ↔ magOf x ≤ infPat := by simp [isNaN]

theorem rank_mkNum (neg : Bool) {p : Nat} (hp : p < 2 ^ 31) :
    rank (mkNum neg p) = if neg then -(p : Int) else p := by
  rw [rank, isNeg_mkNum neg hp, magOf_mkNum neg hp]

theorem isNaN_mkNum (neg : Bool) {p : Nat} (hp : p ≤ infPat) : isNaN (mkNum neg p) = false := by
  rw [isNaN_false_iff, magOf_mkNum neg (hp.trans_lt (by decide))]; exact hp

@[simp] theorem rank_zero : rank zero32 = 0 := rfl
@[simp] theorem isNaN_zero : isNaN zero32 = false := rfl
@[simp] theorem isNaN_one : isNaN one32 = false := rfl
theorem rank_one : rank one32 = 0x3F800000 := rfl

/-- Without NaN, not <= is >. -/
theorem fle_false_iff {a b : Word} (ha : isNaN a = false) (hb : isNaN b = false) :
    fle a b = false ↔ rank b < rank a := by
  simp [fle, ha, hb]

theorem fle_refl {a : Word} (ha : isNaN a = false) : fle a a = true := by
  simp [fle, ha]

theorem fle_trans {a b c : Word} (h1 : fle a b = true) (h2 : fle b c = true) : fle a c = true := by
  rw [fle_iff] at *
  exact ⟨h1.1, h2.2.1, h1.2.2.trans h2.2.2⟩

end Sys2Proof.Machine
end

