-- ==== Sys2Proof/Laws/Arith.lean ====
section
/-! SUPPORT. Signs and ranges of sums, products and quotients of numbers that are not negative. -/

namespace Sys2Proof.Machine

open Sys2Proof

/-- `fle zero32 x` says: not NaN and, unless a zero, not negative. -/
theorem fle_zero_iff (x : Word) :
    fle zero32 x = true ↔ magOf x ≤ infPat ∧ (isNeg x = true → magOf x = 0) := by
  rw [fle_iff, isNaN_false_iff x, rank_zero, rank]
  constructor
  · rintro ⟨-, h1, h2⟩
    refine ⟨h1, fun hn => ?_⟩
    rw [if_pos hn] at h2; omega
  · rintro ⟨h1, h2⟩
    refine ⟨rfl, h1, ?_⟩
    split
    · rename_i hn; rw [h2 hn]; simp
    · omega

theorem notNaN_of_fle_left {a b : Word} (h : fle a b = true) : isNaN a = false := ((fle_iff a b).1 h).1

theorem notNaN_of_fle_right {a b : Word} (h : fle a b = true) : isNaN b = false :=
  ((fle_iff a b).1 h).2.1

/-- The rank of a number that is not negative is its magnitude. -/
theorem rank_of_nonneg {x : Word} (h : fle zero32 x = true) : rank x = magOf x := by
  obtain ⟨-, h2⟩ := (fle_zero_iff x).1 h
  rw [rank]
  split
  · rename_i hn; rw [h2 hn]; simp
  · rfl

/-- The value of a number that is not negative is that of its magnitude. -/
theorem sfixOf_of_nonneg {x : Word} (h : fle zero32 x = true) : sfixOf x = fixOf (magOf x) := by
  obtain ⟨-, h2⟩ := (fle_zero_iff x).1 h
  rw [sfixOf]
  split
  · rename_i hn; rw [h2 hn]; simp
  · rfl

theorem nonneg_mkNum {p : Nat} (hp : p ≤ infPat) : fle zero32 (mkNum false p) = true := by
  rw [fle_iff, isNaN_mkNum false hp, rank_mkNum false (hp.trans_lt (by decide))]
  exact ⟨rfl, rfl, by simp⟩

theorem nonneg_mkNum_zero (neg : Bool) : fle zero32 (mkNum neg 0) = true := by
  cases neg <;> decide

theorem isInf_iff (x : Word) : isInf x = true ↔ magOf x = infPat := by simp [isInf]

theorem isZero_iff (x : Word) : isZero x = true ↔ magOf x = 0 := by simp [isZero]

theorem isInf_false_iff (x : Word) : isInf x = false ↔ magOf x ≠ infPat := by
  rw [← Bool.not_eq_true, isInf_iff]

theorem isZero_false_iff (x : Word) : isZero x = false ↔ magOf x ≠ 0 := by
  rw [← Bool.not_eq_true, isZero_iff]

theorem magOf_fneg (x : Word) : magOf (fneg x) = magOf x := by
  have h : (fneg x).extractLsb' 0 31 = x.extractLsb' 0 31 := by
    ext i hi
    simp only [fneg, BitVec.getElem_extractLsb', BitVec.getLsbD_xor]
    have : (0x80000000#32).getLsbD (0 + i) = false := by interval_cases i <;> decide
    rw [this, Bool.xor_false]
  have := congrArg BitVec.toNat h
  simpa [BitVec.extractLsb'_toNat, magOf] using this

theorem isNeg_fneg (x : Word) : isNeg (fneg x) = !isNeg x := by
  have h : (0x80000000#32).msb = true := by decide
  rw [isNeg, isNeg, fneg, BitVec.msb_xor, h, Bool.xor_true]

theorem isNaN_fneg (x : Word) : isNaN (fneg x) = isNaN x := by
  simp only [isNaN, magOf_fneg]

theorem isInf_fneg (x : Word) : isInf (fneg x) = isInf x := by
  simp only [isInf, magOf_fneg]

theorem sfixOf_fneg (x : Word) : sfixOf (fneg x) = -sfixOf x := by
  simp only [sfixOf, magOf_fneg, isNeg_fneg]
  cases isNeg x <;> simp

/-- The sum of two finite numbers whose exact sum is not negative. -/
theorem fadd_of_sum_nonneg {a b : Word} (ha : magOf a < infPat) (hb : magOf b < infPat)
    (hs : 0 ≤ sfixOf a + sfixOf b) :
    ∃ neg, fadd a b = mkNum neg (roundPat (sfixOf a + sfixOf b).natAbs 1)
      ∧ (neg = true → sfixOf a + sfixOf b = 0) := by
  have h1 : isNaN a = false := (isNaN_false_iff a).2 ha.le
  have h2 : isNaN b = false := (isNaN_false_iff b).2 hb.le
  have h3 : isInf a = false := (isInf_false_iff a).2 ha.ne
  have h4 : isInf b = false := (isInf_false_iff b).2 hb.ne
  rw [fadd, h1, h2, h3, h4]
  simp only [Bool.or_self, Bool.false_eq_true, if_false]
  split
  · rename_i h0
    rw [h0]
    exact ⟨_, rfl, fun _ => rfl⟩
  · rename_i h0
    rw [decide_eq_false (by omega)]
    exact ⟨_, rfl, fun h => absurd h (by decide)⟩

/-- A sum of numbers that are not negative is not negative, and not NaN. -/
theorem fadd_nonneg {a b : Word} (ha : fle zero32 a = true) (hb : fle zero32 b = true) :
    fle zero32 (fadd a b) = true := by
  obtain ⟨ha1, ha2⟩ := (fle_zero_iff a).1 ha
  obtain ⟨hb1, hb2⟩ := (fle_zero_iff b).1 hb
  have hna := notNaN_of_fle_right ha
  have hnb := notNaN_of_fle_right hb
  by_cases hia : magOf a = infPat
  · have h3 : isInf a = true := (isInf_iff a).2 hia
    have hnega : isNeg a = false := by
      by_contra hc
      have := ha2 (by simpa using hc)
      rw [hia] at this; exact absurd this (by decide)
    rw [fadd, hna, hnb, h3]
    simp only [Bool.or_self, Bool.false_eq_true, if_false, if_true]
    split
    · rename_i hc
      rw [Bool.and_eq_true, hnega] at hc
      have hnegb : isNeg b = true := by simpa using hc.2
      have := hb2 hnegb
      have hib := (isInf_iff b).1 hc.1
      rw [hib] at this; exact absurd this (by decide)
    · exact ha
  · by_cases hib : magOf b = infPat
    · have h3 : isInf a = false := (isInf_false_iff a).2 hia
      have h4 : isInf b = true := (isInf_iff b).2 hib
      rw [fadd, hna, hnb, h3, h4]
      simpa using hb
    · obtain ⟨neg, he, hz⟩ := fadd_of_sum_nonneg (a := a) (b := b) (by omega) (by omega) (by
        rw [sfixOf_of_nonneg ha, sfixOf_of_nonneg hb]; omega)
      rw [he]
      cases neg with
      | false => exact nonneg_mkNum (roundPat_le_infPat _ _)
      | true => rw [hz rfl]; exact nonneg_mkNum_zero true

/-- A finite number less one that is not negative, where the difference is not negative: between 0 and
the first number. -/
theorem fsub_between {a b : Word} (ha : fle zero32 a = true) (hb : fle zero32 b = true)
    (hfa : magOf a < infPat) (hba : fle b a = true) :
    fle zero32 (fsub a b) = true ∧ fle (fsub a b) a = true := by
  have hra := rank_of_nonneg ha
  have hrb := rank_of_nonneg hb
  have hle : magOf b ≤ magOf a := by
    have := ((fle_iff b a).1 hba).2.2
    rw [hra, hrb] at this; omega
  have hs : sfixOf a + sfixOf (fneg b) = (fixOf (magOf a) : Int) - fixOf (magOf b) := by
    rw [sfixOf_fneg, sfixOf_of_nonneg ha, sfixOf_of_nonneg hb]; ring
  have hfix := fixOf_mono hle
  obtain ⟨neg, he, hz⟩ := fadd_of_sum_nonneg (a := a) (b := fneg b) hfa
    (by rw [magOf_fneg]; omega) (by rw [hs]; omega)
  rw [fsub, he]
  have hp : roundPat (sfixOf a + sfixOf (fneg b)).natAbs 1 ≤ magOf a :=
    roundPat_le_of_le hfa (by rw [hs]; omega)
  have hnn : fle zero32 (mkNum neg (roundPat (sfixOf a + sfixOf (fneg b)).natAbs 1)) = true := by
    cases neg with
    | false => exact nonneg_mkNum (roundPat_le_infPat _ _)
    | true => rw [hz rfl]; exact nonneg_mkNum_zero true
  refine ⟨hnn, ?_⟩
  rw [fle_iff, hra, rank_of_nonneg hnn, magOf_mkNum neg (roundPat_lt _ _)]
  exact ⟨notNaN_of_fle_right hnn, notNaN_of_fle_right ha, by exact_mod_cast hp⟩

/-- A product of two numbers that are not negative, the second finite and not zero: not negative. -/
theorem fmul_nonneg {a b : Word} (ha : fle zero32 a = true) (hb : fle zero32 b = true)
    (hfb : magOf b < infPat) (hb0 : magOf b ≠ 0) : fle zero32 (fmul a b) = true := by
  obtain ⟨ha1, ha2⟩ := (fle_zero_iff a).1 ha
  obtain ⟨hb1, hb2⟩ := (fle_zero_iff b).1 hb
  have hnegb : isNeg b = false := by
    by_contra hc
    exact hb0 (hb2 (by simpa using hc))
  have hib : isInf b = false := (isInf_false_iff b).2 hfb.ne
  have hzb : isZero b = false := (isZero_false_iff b).2 hb0
  rw [fmul, notNaN_of_fle_right ha, notNaN_of_fle_right hb, hib, hzb, hnegb]
  simp only [Bool.or_self, Bool.false_eq_true, if_false, Bool.or_false, Bool.bne_false]
  split
  · rename_i hia
    rw [isInf_iff] at hia
    have hza : isZero a = false := (isZero_false_iff a).2 (by rw [hia]; decide)
    have hna : isNeg a = false := by
      by_contra hc
      have := ha2 (by simpa using hc)
      rw [hia] at this; exact absurd this (by decide)
    rw [hza, hna, if_neg (by simp)]
    exact nonneg_mkNum le_rfl
  · cases hn : isNeg a with
    | false => exact nonneg_mkNum (roundPat_le_infPat _ _)
    | true =>
      rw [ha2 hn]
      simpa [roundPat_eq, roundNat, roundExp] using nonneg_mkNum_zero true

/-- A quotient of two numbers that are not negative, the first finite, the second not zero: not
negative. -/
theorem fdiv_nonneg {a b : Word} (ha : fle zero32 a = true) (hb : fle zero32 b = true)
    (hfa : magOf a < infPat) (hb0 : magOf b ≠ 0) : fle zero32 (fdiv a b) = true := by
  obtain ⟨ha1, ha2⟩ := (fle_zero_iff a).1 ha
  obtain ⟨hb1, hb2⟩ := (fle_zero_iff b).1 hb
  have hnegb : isNeg b = false := by
    by_contra hc
    exact hb0 (hb2 (by simpa using hc))
  have hia : isInf a = false := (isInf_false_iff a).2 hfa.ne
  have hzb : isZero b = false := (isZero_false_iff b).2 hb0
  rw [fdiv, notNaN_of_fle_right ha, notNaN_of_fle_right hb, hia, hzb, hnegb]
  simp only [Bool.or_self, Bool.false_eq_true, if_false, Bool.bne_false]
  split
  · exact nonneg_mkNum_zero _
  · cases hn : isNeg a with
    | false => exact nonneg_mkNum (roundPat_le_infPat _ _)
    | true =>
      rw [ha2 hn]
      have : roundPat (fixOf 0 * 2 ^ 149) (fixOf (magOf b)) = 0 := by
        simp [roundPat_eq, roundNat, roundExp, fixOf_pos (Nat.pos_of_ne_zero hb0)]
      rw [this]
      exact nonneg_mkNum_zero true

/-- A positive number times a number of at least 1 is not zero. -/
theorem fmul_ne_zero {a b : Word} (ha : fle zero32 a = true) (hb : fle one32 b = true)
    (hfb : magOf b < infPat) (ha0 : magOf a ≠ 0) : magOf (fmul a b) ≠ 0 := by
  have hb' : fle zero32 b = true := fle_trans (by decide) hb
  have hrb : 0x3F800000 ≤ magOf b := by
    have := ((fle_iff one32 b).1 hb).2.2
    rw [rank_one, rank_of_nonneg hb'] at this; omega
  have hib : isInf b = false := (isInf_false_iff b).2 hfb.ne
  have hzb : isZero b = false := (isZero_false_iff b).2 (by omega)
  have hza : isZero a = false := (isZero_false_iff a).2 ha0
  rw [fmul, notNaN_of_fle_right ha, notNaN_of_fle_right hb', hib, hzb, hza]
  simp only [Bool.or_self, Bool.false_eq_true, if_false, Bool.or_false]
  split
  · rw [magOf_mkNum _ (by decide)]; decide
  · rw [magOf_mkNum _ (roundPat_lt _ _)]
    have hone : fixOf 0x3F800000 = 2 ^ 149 := by decide +kernel
    have h1 : 1 * 2 ^ 149 ≤ fixOf (magOf a) * fixOf (magOf b) :=
      Nat.mul_le_mul (fixOf_pos (Nat.pos_of_ne_zero ha0)) (hone ▸ fixOf_mono hrb)
    have h2 := roundPat_mono (2 ^ 149) h1
    have h3 : roundPat (1 * 2 ^ 149) (2 ^ 149) = 1 := by decide +kernel
    omega

end Sys2Proof.Machine
end

