-- ==== Sys2Proof/Laws/Num.lean ====
section
/-! SUPPORT. What each operation on numbers is at binary32, by the patterns; what min, max and clamp
answer at either NUMERICS. -/

namespace Sys2Proof

open Sys2Proof.Machine

@[simp] theorem Number.toWord_single (w : Word) : (Number.single w).toWord = w := rfl

@[simp] theorem Numerics.add_binary32 (a b : Number) :
    Numerics.binary32.add a b = .single (fadd a.toWord b.toWord) := rfl

@[simp] theorem Numerics.sub_binary32 (a b : Number) :
    Numerics.binary32.sub a b = .single (fsub a.toWord b.toWord) := rfl

@[simp] theorem Numerics.mul_binary32 (a b : Number) :
    Numerics.binary32.mul a b = .single (fmul a.toWord b.toWord) := rfl

@[simp] theorem Numerics.div_binary32 (a b : Number) :
    Numerics.binary32.div a b = .single (fdiv a.toWord b.toWord) := rfl

@[simp] theorem Numerics.fmod_binary32 (a b : Number) :
    Numerics.binary32.fmod a b = .single (Machine.fmod a.toWord b.toWord) := rfl

@[simp] theorem Numerics.abs_binary32 (a : Number) :
    Numerics.binary32.abs a = .single (fabs a.toWord) := rfl

@[simp] theorem Numerics.lt_binary32 (a b : Number) :
    Numerics.binary32.lt a b = flt a.toWord b.toWord := rfl

@[simp] theorem Numerics.le_binary32 (a b : Number) :
    Numerics.binary32.le a b = fle a.toWord b.toWord := rfl

@[simp] theorem Numerics.num_binary32 (n d : Nat) : Numerics.binary32.num n d = .single (num32 n d) := rfl

@[simp] theorem Numerics.pi_binary32 : Numerics.binary32.pi = .single 0x40490FDB#32 := rfl

@[simp] theorem Numerics.twoPi_binary32 : Numerics.binary32.twoPi = .single 0x40C90FDB#32 := rfl

@[simp] theorem Numerics.sin_binary32 (a : Number) :
    Numerics.binary32.sin a = .single (fsin a.toWord) := rfl

@[simp] theorem Numerics.asin_binary32 (a : Number) :
    Numerics.binary32.asin a = .single (fasin a.toWord) := rfl

@[simp] theorem Numerics.tan_binary32 (a : Number) :
    Numerics.binary32.tan a = .single (ftan a.toWord) := rfl

@[simp] theorem Numerics.exp2_binary32 (a : Number) :
    Numerics.binary32.exp2 a = .single (fexp2 a.toWord) := rfl

@[simp] theorem Numerics.exp10_binary32 (a : Number) :
    Numerics.binary32.exp10 a = .single (fexp10 a.toWord) := rfl

@[simp] theorem Machine.zero_toWord : zero.toWord = 0x00000000#32 := rfl

@[simp] theorem Machine.one_toWord : one.toWord = 0x3F800000#32 := rfl

@[simp] theorem Machine.numOfNat_toWord (n : Nat) : (numOfNat n).toWord = num32 n 1 := rfl

/-! ### min, max, clamp: one of the operands -/

theorem Numerics.min_cases (nx : Numerics) (a b : Number) : nx.min a b = a ∨ nx.min a b = b := by
  unfold Numerics.min; split <;> simp

theorem Numerics.max_cases (nx : Numerics) (a b : Number) : nx.max a b = a ∨ nx.max a b = b := by
  unfold Numerics.max; split <;> simp

/-- Without NaN, not < is >=. -/
theorem Machine.flt_false_of {a b : Word} (ha : isNaN a = false) (hb : isNaN b = false)
    (h : flt a b = false) : fle b a = true := by
  rw [fle_iff]
  refine ⟨hb, ha, ?_⟩
  simpa [flt, ha, hb] using h

/-- At binary32 a clamp to a range of numbers in order stays in the range. -/
theorem Numerics.clamp_binary32_mem {x lo hi : Number} (hx : isNaN x.toWord = false)
    (h : fle lo.toWord hi.toWord = true) :
    fle lo.toWord (Numerics.binary32.clamp x lo hi).toWord = true ∧
      fle (Numerics.binary32.clamp x lo hi).toWord hi.toWord = true := by
  have hlo := notNaN_of_fle_left h
  have hhi := notNaN_of_fle_right h
  have hm : fle lo.toWord (Numerics.binary32.max x lo).toWord = true ∧
      isNaN (Numerics.binary32.max x lo).toWord = false := by
    unfold Numerics.max
    split
    · exact ⟨fle_refl hlo, hlo⟩
    · rename_i hc
      exact ⟨flt_false_of hx hlo (by simpa using hc), hx⟩
  unfold Numerics.clamp Numerics.min
  split
  · exact ⟨h, fle_refl hhi⟩
  · rename_i hc
    exact ⟨hm.1, flt_false_of hhi hm.2 (by simpa using hc)⟩

/-! ### exp10 (93_implementation_defined part 3) -/

namespace Machine

/-- The pattern of 10^x by rank and place, between its bounds. -/
def exp10Pat (r : Int) (k : Nat) : Nat := max (exp10Low r) (min (exp10High r) (Config.freeExp10 k))

theorem fexp10_eq {x : Word} (hx : isNaN x = false) :
    fexp10 x = mkNum false (exp10Pat (rank x) (placeOf x)) := by
  unfold fexp10
  split
  · rename_i hz
    have hm : magOf x = 0 := (isZero_iff x).1 hz
    have hr : rank x = 0 := by rw [rank, hm]; simp
    have hp : exp10Pat (rank x) (placeOf x) = 0x3F800000 := by
      rw [hr]; unfold exp10Pat
      have h1 : exp10Low 0 = 0x3F800000 := by decide
      have h2 : exp10High 0 = 0x3F800000 := by decide
      rw [h1, h2]; omega
    rw [hp]; rfl
  · rw [hx]; rfl

theorem exp10Low_mono {r q : Int} (h : r ≤ q) : exp10Low r ≤ exp10Low q := by
  unfold exp10Low milliPat; split_ifs <;> omega

theorem exp10High_mono {r q : Int} (h : r ≤ q) : exp10High r ≤ exp10High q := by
  unfold exp10High milliPat infPat; split_ifs <;> omega

theorem exp10Pat_le (r : Int) (k : Nat) : exp10Pat r k ≤ infPat := by
  have h1 : exp10Low r ≤ infPat := by unfold exp10Low milliPat infPat; split_ifs <;> omega
  have h2 : exp10High r ≤ infPat := by unfold exp10High milliPat infPat; split_ifs <;> omega
  unfold exp10Pat; omega

theorem exp10Pat_mono {r q : Int} {k l : Nat} (h : r ≤ q) (hk : k ≤ l) :
    exp10Pat r k ≤ exp10Pat q l :=
  max_le_max (exp10Low_mono h) (min_le_min (exp10High_mono h) (Config.freeExp10.monotone hk))

/-- 10^x is monotone. -/
theorem fexp10_mono {x y : Word} (h : fle x y = true) : fle (fexp10 x) (fexp10 y) = true := by
  have hr := ((fle_iff x y).1 h).2.2
  rw [fexp10_eq (notNaN_of_fle_left h), fexp10_eq (notNaN_of_fle_right h), fle_iff,
    rank_mkNum false ((exp10Pat_le _ _).trans_lt (by decide)),
    rank_mkNum false ((exp10Pat_le _ _).trans_lt (by decide))]
  refine ⟨isNaN_mkNum false (exp10Pat_le _ _), isNaN_mkNum false (exp10Pat_le _ _), ?_⟩
  have hp : placeOf x ≤ placeOf y := by unfold placeOf; omega
  simpa using exp10Pat_mono hr hp

/-- 10^0 is 1, and 10^-3 is one of the two numbers next to 0.001. -/
theorem fexp10_points :
    fexp10 0x00000000#32 = one32 ∧
      (fexp10 0xC0400000#32 = 0x3A83126E#32 ∨ fexp10 0xC0400000#32 = 0x3A83126F#32) := by
  refine ⟨rfl, ?_⟩
  rw [fexp10_eq (by decide)]
  have h : exp10Pat (rank 0xC0400000#32) (placeOf 0xC0400000#32) = 0x3A83126E ∨
      exp10Pat (rank 0xC0400000#32) (placeOf 0xC0400000#32) = 0x3A83126F := by
    have h1 : exp10Low (rank 0xC0400000#32) = 0x3A83126E := by decide
    have h2 : exp10High (rank 0xC0400000#32) = 0x3A83126F := by decide
    unfold exp10Pat
    rw [h1, h2]; omega
  rcases h with h | h <;> rw [h]
  · exact .inl rfl
  · exact .inr rfl

/-- From -3 to 0, 10^x is from the number below 0.001 to 1. -/
theorem fexp10_range {x : Word} (h3 : fle 0xC0400000#32 x = true) (h0 : fle x 0x00000000#32 = true) :
    fle 0x3A83126E#32 (fexp10 x) = true ∧ fle (fexp10 x) 0x3F800000#32 = true := by
  have hlo := fexp10_mono h3
  have hhi := fexp10_mono h0
  rw [fexp10_points.1] at hhi
  refine ⟨fle_trans ?_ hlo, hhi⟩
  rcases fexp10_points.2 with h | h <;> rw [h] <;> decide

end Machine

end Sys2Proof
end

