-- ==== Sys2Proof/Laws/Sparse.lean ====
section
/-! SUPPORT. Laws of sparse arrays and of the memory: read after write, and the canonical form. -/

namespace Sys2Proof.Machine

open Sys2Proof

/-! ### Containers -/

@[simp] theorem Four.get_set_self {α : Type} (f : Four α) (k : OscId) (x : α) : (f.set k x).get k = x := by
  cases k <;> rfl

theorem Four.get_set_of_ne {α : Type} (f : Four α) {k j : OscId} (x : α) (h : j ≠ k) :
    (f.set k x).get j = f.get j := by
  cases k <;> cases j <;> first | rfl | exact absurd rfl h

@[simp] theorem Four.get_map {α β : Type} (g : α → β) (f : Four α) (k : OscId) :
    (f.map g).get k = g (f.get k) := by
  cases k <;> rfl

@[simp] theorem Four.get_build {α : Type} (g : OscId → α) (k : OscId) : (Four.build g).get k = g k := by
  cases k <;> rfl

@[simp] theorem Two.get_set_self {α : Type} (t : Two α) (c : Chan) (x : α) : (t.set c x).get c = x := by
  cases c <;> rfl

theorem Two.get_set_of_ne {α : Type} (t : Two α) {c d : Chan} (x : α) (h : d ≠ c) :
    (t.set c x).get d = t.get d := by
  cases c <;> cases d <;> first | rfl | exact absurd rfl h

/-! ### Sparse arrays -/

section
variable {β : Type} [DecidableEq β] {d : β}

omit [DecidableEq β] in
@[simp] theorem sparseGet_nil (d : β) (k : Nat) : sparseGet d [] k = d := rfl

theorem sparseWfFrom_mono {m : List (Nat × β)} {lo lo' : Nat} (h : lo' ≤ lo)
    (hw : sparseWfFrom d lo m = true) : sparseWfFrom d lo' m = true := by
  cases m with
  | nil => rfl
  | cons p m =>
    simp only [sparseWfFrom, Bool.and_eq_true, decide_eq_true_eq] at hw ⊢
    exact ⟨⟨h.trans hw.1.1, hw.1.2⟩, hw.2⟩

/-- Below the bound of the canonical form everything reads as `d`. -/
theorem sparseGet_below {m : List (Nat × β)} {lo k : Nat} (hw : sparseWfFrom d lo m = true)
    (hk : k < lo) : sparseGet d m k = d := by
  induction m generalizing lo with
  | nil => rfl
  | cons p m ih =>
    obtain ⟨j, v⟩ := p
    simp only [sparseWfFrom, Bool.and_eq_true, decide_eq_true_eq] at hw
    rw [sparseGet, if_neg (by omega)]
    exact ih hw.2 (by omega)

/-- A write is read back, and every other key reads as before. -/
theorem sparseGet_set {m : List (Nat × β)} {lo : Nat} (hw : sparseWfFrom d lo m = true) (k : Nat)
    (v : β) (a : Nat) :
    sparseGet d (sparseSet d m k v) a = if a = k then v else sparseGet d m a := by
  induction m generalizing lo with
  | nil =>
    by_cases hv : v = d <;> by_cases ha : a = k <;> simp [sparseSet, sparseGet, hv, ha, eq_comm]
    intro h; exact absurd h.symm ha
  | cons p m ih =>
    obtain ⟨j, w⟩ := p
    simp only [sparseWfFrom, Bool.and_eq_true, decide_eq_true_eq] at hw
    have below : k ≤ j → sparseGet d m k = d := fun h => sparseGet_below hw.2 (by omega)
    simp only [sparseSet]
    split
    · rename_i hlt
      by_cases hv : v = d
      · subst hv
        rw [if_pos rfl]
        by_cases ha : a = k
        · subst ha; rw [if_pos rfl, sparseGet, if_neg (by omega), below (by omega)]
        · rw [if_neg ha]
      · rw [if_neg hv]
        by_cases ha : a = k
        · subst ha; simp [sparseGet]
        · rw [if_neg ha, sparseGet, if_neg (fun h => ha h.symm)]
    · split
      · rename_i heq
        subst heq
        by_cases hv : v = d
        · subst hv
          rw [if_pos rfl]
          by_cases ha : a = k
          · subst ha; rw [if_pos rfl, below (le_refl _)]
          · rw [if_neg ha, sparseGet, if_neg (fun h => ha h.symm)]
        · rw [if_neg hv]
          by_cases ha : a = k
          · subst ha; simp [sparseGet]
          · rw [if_neg ha, sparseGet, if_neg (fun h => ha h.symm), sparseGet,
              if_neg (fun h => ha h.symm)]
      · rename_i h1 h2
        by_cases hj : j = a
        · subst hj
          rw [sparseGet, if_pos rfl, if_neg (fun h => h2 h.symm), sparseGet, if_pos rfl]
        · rw [sparseGet, if_neg hj, ih hw.2, sparseGet, if_neg hj]

theorem sparseSet_wfFrom {m : List (Nat × β)} {lo k : Nat} (v : β)
    (hw : sparseWfFrom d lo m = true) (hk : lo ≤ k) :
    sparseWfFrom d lo (sparseSet d m k v) = true := by
  induction m generalizing lo with
  | nil => by_cases hv : v = d <;> simp [sparseSet, sparseWfFrom, hv, hk]
  | cons p m ih =>
    obtain ⟨j, w⟩ := p
    simp only [sparseWfFrom, Bool.and_eq_true, decide_eq_true_eq] at hw
    simp only [sparseSet]
    split
    · split
      · simp [sparseWfFrom, hw]
      · rename_i hlt hv
        simp [sparseWfFrom, hw, hk, hv, Nat.succ_le_of_lt hlt]
    · split
      · rename_i heq
        split
        · exact sparseWfFrom_mono (by omega) hw.2
        · rename_i hv
          subst heq
          simp [sparseWfFrom, hw, hv]
      · simp only [sparseWfFrom, Bool.and_eq_true, decide_eq_true_eq]
        exact ⟨hw.1, ih hw.2 (by omega)⟩

/-- A write keeps the canonical form. -/
theorem sparseSet_wf {m : List (Nat × β)} (k : Nat) (v : β) (hw : sparseWf d m = true) :
    sparseWf d (sparseSet d m k v) = true := sparseSet_wfFrom v hw (Nat.zero_le k)

/-- In the canonical form a write of the value already there changes nothing. -/
theorem sparseSet_get_self {m : List (Nat × β)} {lo : Nat} (k : Nat)
    (hw : sparseWfFrom d lo m = true) : sparseSet d m k (sparseGet d m k) = m := by
  induction m generalizing lo with
  | nil => simp [sparseSet]
  | cons p m ih =>
    obtain ⟨j, w⟩ := p
    simp only [sparseWfFrom, Bool.and_eq_true, decide_eq_true_eq] at hw
    simp only [sparseSet]
    split
    · rename_i hlt
      have hd : sparseGet d ((j, w) :: m) k = d := by
        rw [sparseGet, if_neg (show ¬j = k by omega), sparseGet_below hw.2 (by omega)]
      rw [hd, if_pos rfl]
    · split
      · rename_i heq
        subst heq
        rw [sparseGet, if_pos rfl, if_neg hw.1.2]
      · rename_i h1 h2
        rw [sparseGet, if_neg (fun h => h2 h.symm), ih hw.2]

theorem sparseFill_wf (vs : List β) {m : List (Nat × β)} (k : Nat) (hw : sparseWf d m = true) :
    sparseWf d (sparseFill d m k vs) = true := by
  induction vs generalizing m k with
  | nil => exact hw
  | cons v vs ih => exact ih (k + 1) (sparseSet_wf k v hw)

/-- Where a fill writes, and that it leaves every other key. -/
theorem sparseGet_fill (vs : List β) {m : List (Nat × β)} (k a : Nat) (hw : sparseWf d m = true) :
    sparseGet d (sparseFill d m k vs) a
      = if h : k ≤ a ∧ a < k + vs.length then vs[a - k] else sparseGet d m a := by
  induction vs generalizing m k with
  | nil =>
    rw [dif_neg (by simp)]
    rfl
  | cons v vs ih =>
    rw [sparseFill, ih (k + 1) (sparseSet_wf k v hw), sparseGet_set hw]
    by_cases ha : a = k
    · subst ha
      rw [dif_neg (by omega), if_pos rfl, dif_pos (by simp)]
      simp
    · rw [if_neg ha]
      by_cases hr : k + 1 ≤ a ∧ a < k + 1 + vs.length
      · rw [dif_pos hr, dif_pos (by simp only [List.length_cons]; omega)]
        obtain ⟨i, rfl⟩ : ∃ i, a = k + 1 + i := ⟨a - (k + 1), by omega⟩
        have e1 : k + 1 + i - (k + 1) = i := by omega
        have e2 : k + 1 + i - k = i + 1 := by omega
        simp only [e1, e2, List.getElem_cons_succ]
      · rw [dif_neg hr, dif_neg (by simp only [List.length_cons]; omega)]

end

/-! ### Memory -/

theorem readByte_writeByte {m : Memory} (hw : m.wf = true) (a b : Nat) (x : Byte) :
    readByte (writeByte m a x) b = if b = a then x else readByte m b := sparseGet_set hw a x b

theorem writeByte_wf {m : Memory} (a : Nat) (x : Byte) (hw : m.wf = true) :
    (writeByte m a x).wf = true := sparseSet_wf a x hw

theorem writeWord_wf {m : Memory} (a : Nat) (w : Word) (hw : m.wf = true) :
    (writeWord m a w).wf = true :=
  writeByte_wf _ _ (writeByte_wf _ _ (writeByte_wf _ _ (writeByte_wf _ _ hw)))

/-- What a word write does to each byte. -/
theorem readByte_writeWord {m : Memory} (hw : m.wf = true) (a b : Nat) (w : Word) :
    readByte (writeWord m a w) b
      = if a ≤ b ∧ b < a + 4 then w.extractLsb' (8 * (b - a)) 8 else readByte m b := by
  have h0 := writeByte_wf a (w.extractLsb' 0 8) hw
  have h1 := writeByte_wf (a + 1) (w.extractLsb' 8 8) h0
  have h2 := writeByte_wf (a + 2) (w.extractLsb' 16 8) h1
  rw [writeWord, readByte_writeByte h2, readByte_writeByte h1, readByte_writeByte h0,
    readByte_writeByte hw]
  by_cases hb : a ≤ b ∧ b < a + 4
  · rw [if_pos hb]
    obtain ⟨i, rfl⟩ : ∃ i, b = a + i := ⟨b - a, by omega⟩
    have hi : i < 4 := by omega
    interval_cases i <;> simp
  · rw [if_neg hb, if_neg (by omega), if_neg (by omega), if_neg (by omega), if_neg (by omega)]

theorem word_of_bytes (w : Word) :
    w.extractLsb' 24 8 ++ w.extractLsb' 16 8 ++ w.extractLsb' 8 8 ++ w.extractLsb' 0 8 = w := by
  ext i hi
  simp only [BitVec.getElem_append, BitVec.getElem_extractLsb']
  split
  · rw [BitVec.getLsbD_eq_getElem (by omega)]; congr 1; omega
  · split
    · rw [BitVec.getLsbD_eq_getElem (by omega)]; congr 1; omega
    · split
      · rw [BitVec.getLsbD_eq_getElem (by omega)]; congr 1; omega
      · rw [BitVec.getLsbD_eq_getElem (by omega)]; congr 1; omega

/-- A word is read back where it was written. -/
theorem readWord_writeWord {m : Memory} (hw : m.wf = true) (a : Nat) (w : Word) :
    readWord (writeWord m a w) a = w := by
  simp only [readWord, readByte_writeWord hw]
  rw [if_pos (by omega), if_pos (by omega), if_pos (by omega), if_pos (by omega)]
  have e3 : 8 * (a + 3 - a) = 24 := by omega
  have e2 : 8 * (a + 2 - a) = 16 := by omega
  have e1 : 8 * (a + 1 - a) = 8 := by omega
  have e0 : 8 * (a - a) = 0 := by omega
  rw [e3, e2, e1, e0]
  exact word_of_bytes w

/-- A word elsewhere reads as before. -/
theorem readWord_writeWord_of_disjoint {m : Memory} (hw : m.wf = true) {a b : Nat} (w : Word)
    (h : b + 4 ≤ a ∨ a + 4 ≤ b) : readWord (writeWord m a w) b = readWord m b := by
  simp only [readWord, readByte_writeWord hw]
  rw [if_neg (by omega), if_neg (by omega), if_neg (by omega), if_neg (by omega)]

theorem writeWords_wf (ws : List Word) {m : Memory} (a : Nat) (hw : m.wf = true) :
    (writeWords m a ws).wf = true := by
  induction ws generalizing m a with
  | nil => exact hw
  | cons w ws ih => exact ih (a + 4) (writeWord_wf a w hw)

/-- A block of words leaves every byte outside it. -/
theorem readByte_writeWords_outside (ws : List Word) {m : Memory} (a b : Nat) (hw : m.wf = true)
    (h : b < a ∨ a + 4 * ws.length ≤ b) : readByte (writeWords m a ws) b = readByte m b := by
  induction ws generalizing m a with
  | nil => rfl
  | cons w ws ih =>
    simp only [List.length_cons] at h
    rw [writeWords, ih (a + 4) (writeWord_wf a w hw) (by omega), readByte_writeWord hw,
      if_neg (by omega)]

theorem readWord_writeWords_outside (ws : List Word) {m : Memory} (a b : Nat) (hw : m.wf = true)
    (h : b + 4 ≤ a ∨ a + 4 * ws.length ≤ b) : readWord (writeWords m a ws) b = readWord m b := by
  simp only [readWord]
  rw [readByte_writeWords_outside ws a _ hw (by omega), readByte_writeWords_outside ws a _ hw (by omega),
    readByte_writeWords_outside ws a _ hw (by omega), readByte_writeWords_outside ws a _ hw (by omega)]

/-- A block of words is read back element by element. -/
theorem readWord_writeWords (ws : List Word) {m : Memory} (a n : Nat) (hw : m.wf = true)
    (hn : n < ws.length) : readWord (writeWords m a ws) (a + 4 * n) = ws[n] := by
  induction ws generalizing m a n with
  | nil => simp at hn
  | cons w ws ih =>
    cases n with
    | zero =>
      rw [writeWords, readWord_writeWords_outside ws (a + 4) (a + 4 * 0) (writeWord_wf a w hw) (by omega)]
      exact readWord_writeWord hw a w
    | succ n =>
      have e : a + 4 * (n + 1) = a + 4 + 4 * n := by omega
      rw [writeWords, e, ih (a + 4) n (writeWord_wf a w hw) (by simpa using hn)]
      rfl

end Sys2Proof.Machine
end

