-- ==== Sys2Proof/Laws/State.lean ====
section
/-! SUPPORT. One lemma per field per named update: what each update leaves as it was. -/

namespace Sys2Proof.Machine

open Sys2Proof

/-! ### raiseFault -/

@[simp] theorem raiseFault_cfg (code : FaultCode) (info : Word) (s : State) :
    (raiseFault code info s).cfg = s.cfg := by
  unfold raiseFault; split <;> rfl

@[simp] theorem raiseFault_voices (code : FaultCode) (info : Word) (s : State) :
    (raiseFault code info s).voices = s.voices := by
  unfold raiseFault; split <;> rfl

@[simp] theorem raiseFault_bands (code : FaultCode) (info : Word) (s : State) :
    (raiseFault code info s).bands = s.bands := by
  unfold raiseFault; split <;> rfl

@[simp] theorem raiseFault_snap (code : FaultCode) (info : Word) (s : State) :
    (raiseFault code info s).snap = s.snap := by
  unfold raiseFault; split <;> rfl

@[simp] theorem raiseFault_shadow (code : FaultCode) (info : Word) (s : State) :
    (raiseFault code info s).shadow = s.shadow := by
  unfold raiseFault; split <;> rfl

@[simp] theorem raiseFault_prepRate (code : FaultCode) (info : Word) (s : State) :
    (raiseFault code info s).prepRate = s.prepRate := by
  unfold raiseFault; split <;> rfl

@[simp] theorem raiseFault_prepMaxBlock (code : FaultCode) (info : Word) (s : State) :
    (raiseFault code info s).prepMaxBlock = s.prepMaxBlock := by
  unfold raiseFault; split <;> rfl

@[simp] theorem raiseFault_mem (code : FaultCode) (info : Word) (s : State) :
    (raiseFault code info s).mem = s.mem := by
  unfold raiseFault; split <;> rfl

@[simp] theorem raiseFault_inW (code : FaultCode) (info : Word) (s : State) :
    (raiseFault code info s).inW = s.inW := by
  unfold raiseFault; split <;> rfl

@[simp] theorem raiseFault_car (code : FaultCode) (info : Word) (s : State) :
    (raiseFault code info s).car = s.car := by
  unfold raiseFault; split <;> rfl

@[simp] theorem raiseFault_host (code : FaultCode) (info : Word) (s : State) :
    (raiseFault code info s).host = s.host := by
  unfold raiseFault; split <;> rfl

@[simp] theorem raiseFault_ctrl (code : FaultCode) (info : Word) (s : State) :
    (raiseFault code info s).ctrl = s.ctrl := by
  unfold raiseFault; split <;> rfl

@[simp] theorem raiseFault_rdata (code : FaultCode) (info : Word) (s : State) :
    (raiseFault code info s).rdata = s.rdata := by
  unfold raiseFault; split <;> rfl

@[simp] theorem raiseFault_outLen (code : FaultCode) (info : Word) (s : State) :
    (raiseFault code info s).outLen = s.outLen := by
  unfold raiseFault; split <;> rfl

@[simp] theorem raiseFault_draw (code : FaultCode) (info : Word) (s : State) :
    (raiseFault code info s).draw = s.draw := by
  unfold raiseFault; split <;> rfl

/-! ### modifyVoice -/

@[simp] theorem modifyVoice_cfg (v : Nat) (f : Voice → Voice) (s : State) :
    (modifyVoice v f s).cfg = s.cfg := rfl

@[simp] theorem modifyVoice_bands (v : Nat) (f : Voice → Voice) (s : State) :
    (modifyVoice v f s).bands = s.bands := rfl

@[simp] theorem modifyVoice_ctl (v : Nat) (f : Voice → Voice) (s : State) :
    (modifyVoice v f s).ctl = s.ctl := rfl

@[simp] theorem modifyVoice_snap (v : Nat) (f : Voice → Voice) (s : State) :
    (modifyVoice v f s).snap = s.snap := rfl

@[simp] theorem modifyVoice_shadow (v : Nat) (f : Voice → Voice) (s : State) :
    (modifyVoice v f s).shadow = s.shadow := rfl

@[simp] theorem modifyVoice_prepRate (v : Nat) (f : Voice → Voice) (s : State) :
    (modifyVoice v f s).prepRate = s.prepRate := rfl

@[simp] theorem modifyVoice_prepMaxBlock (v : Nat) (f : Voice → Voice) (s : State) :
    (modifyVoice v f s).prepMaxBlock = s.prepMaxBlock := rfl

@[simp] theorem modifyVoice_mem (v : Nat) (f : Voice → Voice) (s : State) :
    (modifyVoice v f s).mem = s.mem := rfl

@[simp] theorem modifyVoice_inW (v : Nat) (f : Voice → Voice) (s : State) :
    (modifyVoice v f s).inW = s.inW := rfl

@[simp] theorem modifyVoice_car (v : Nat) (f : Voice → Voice) (s : State) :
    (modifyVoice v f s).car = s.car := rfl

@[simp] theorem modifyVoice_host (v : Nat) (f : Voice → Voice) (s : State) :
    (modifyVoice v f s).host = s.host := rfl

@[simp] theorem modifyVoice_ctrl (v : Nat) (f : Voice → Voice) (s : State) :
    (modifyVoice v f s).ctrl = s.ctrl := rfl

@[simp] theorem modifyVoice_rdata (v : Nat) (f : Voice → Voice) (s : State) :
    (modifyVoice v f s).rdata = s.rdata := rfl

@[simp] theorem modifyVoice_outLen (v : Nat) (f : Voice → Voice) (s : State) :
    (modifyVoice v f s).outLen = s.outLen := rfl

@[simp] theorem modifyVoice_draw (v : Nat) (f : Voice → Voice) (s : State) :
    (modifyVoice v f s).draw = s.draw := rfl

@[simp] theorem modifyVoice_voices (v : Nat) (f : Voice → Voice) (s : State) :
    (modifyVoice v f s).voices = modifyAt f s.voices v := rfl

/-! ### storeShadow -/

@[simp] theorem storeShadow_cfg (r : ShadowReg) (w : Word) (s : State) :
    (storeShadow r w s).cfg = s.cfg := rfl

@[simp] theorem storeShadow_voices (r : ShadowReg) (w : Word) (s : State) :
    (storeShadow r w s).voices = s.voices := rfl

@[simp] theorem storeShadow_bands (r : ShadowReg) (w : Word) (s : State) :
    (storeShadow r w s).bands = s.bands := rfl

@[simp] theorem storeShadow_ctl (r : ShadowReg) (w : Word) (s : State) :
    (storeShadow r w s).ctl = s.ctl := rfl

@[simp] theorem storeShadow_snap (r : ShadowReg) (w : Word) (s : State) :
    (storeShadow r w s).snap = s.snap := rfl

@[simp] theorem storeShadow_prepRate (r : ShadowReg) (w : Word) (s : State) :
    (storeShadow r w s).prepRate = s.prepRate := rfl

@[simp] theorem storeShadow_prepMaxBlock (r : ShadowReg) (w : Word) (s : State) :
    (storeShadow r w s).prepMaxBlock = s.prepMaxBlock := rfl

@[simp] theorem storeShadow_mem (r : ShadowReg) (w : Word) (s : State) :
    (storeShadow r w s).mem = s.mem := rfl

@[simp] theorem storeShadow_inW (r : ShadowReg) (w : Word) (s : State) :
    (storeShadow r w s).inW = s.inW := rfl

@[simp] theorem storeShadow_car (r : ShadowReg) (w : Word) (s : State) :
    (storeShadow r w s).car = s.car := rfl

@[simp] theorem storeShadow_host (r : ShadowReg) (w : Word) (s : State) :
    (storeShadow r w s).host = s.host := rfl

@[simp] theorem storeShadow_ctrl (r : ShadowReg) (w : Word) (s : State) :
    (storeShadow r w s).ctrl = s.ctrl := rfl

@[simp] theorem storeShadow_rdata (r : ShadowReg) (w : Word) (s : State) :
    (storeShadow r w s).rdata = s.rdata := rfl

@[simp] theorem storeShadow_outLen (r : ShadowReg) (w : Word) (s : State) :
    (storeShadow r w s).outLen = s.outLen := rfl

@[simp] theorem storeShadow_draw (r : ShadowReg) (w : Word) (s : State) :
    (storeShadow r w s).draw = s.draw := rfl

@[simp] theorem storeShadow_shadow (r : ShadowReg) (w : Word) (s : State) :
    (storeShadow r w s).shadow = s.shadow.store r w := rfl

/-! ### storeIn -/

@[simp] theorem storeIn_cfg (c : Chan) (n : Nat) (w : Word) (s : State) :
    (storeIn c n w s).cfg = s.cfg := rfl

@[simp] theorem storeIn_voices (c : Chan) (n : Nat) (w : Word) (s : State) :
    (storeIn c n w s).voices = s.voices := rfl

@[simp] theorem storeIn_bands (c : Chan) (n : Nat) (w : Word) (s : State) :
    (storeIn c n w s).bands = s.bands := rfl

@[simp] theorem storeIn_ctl (c : Chan) (n : Nat) (w : Word) (s : State) :
    (storeIn c n w s).ctl = s.ctl := rfl

@[simp] theorem storeIn_snap (c : Chan) (n : Nat) (w : Word) (s : State) :
    (storeIn c n w s).snap = s.snap := rfl

@[simp] theorem storeIn_shadow (c : Chan) (n : Nat) (w : Word) (s : State) :
    (storeIn c n w s).shadow = s.shadow := rfl

@[simp] theorem storeIn_prepRate (c : Chan) (n : Nat) (w : Word) (s : State) :
    (storeIn c n w s).prepRate = s.prepRate := rfl

@[simp] theorem storeIn_prepMaxBlock (c : Chan) (n : Nat) (w : Word) (s : State) :
    (storeIn c n w s).prepMaxBlock = s.prepMaxBlock := rfl

@[simp] theorem storeIn_car (c : Chan) (n : Nat) (w : Word) (s : State) :
    (storeIn c n w s).car = s.car := rfl

@[simp] theorem storeIn_host (c : Chan) (n : Nat) (w : Word) (s : State) :
    (storeIn c n w s).host = s.host := rfl

@[simp] theorem storeIn_ctrl (c : Chan) (n : Nat) (w : Word) (s : State) :
    (storeIn c n w s).ctrl = s.ctrl := rfl

@[simp] theorem storeIn_rdata (c : Chan) (n : Nat) (w : Word) (s : State) :
    (storeIn c n w s).rdata = s.rdata := rfl

@[simp] theorem storeIn_outLen (c : Chan) (n : Nat) (w : Word) (s : State) :
    (storeIn c n w s).outLen = s.outLen := rfl

@[simp] theorem storeIn_draw (c : Chan) (n : Nat) (w : Word) (s : State) :
    (storeIn c n w s).draw = s.draw := rfl

/-! ### prepareState -/

@[simp] theorem prepareState_cfg (s : State) :
    (prepareState s).cfg = s.cfg := rfl

@[simp] theorem prepareState_shadow (s : State) :
    (prepareState s).shadow = s.shadow := rfl

@[simp] theorem prepareState_prepRate (s : State) :
    (prepareState s).prepRate = s.prepRate := rfl

@[simp] theorem prepareState_prepMaxBlock (s : State) :
    (prepareState s).prepMaxBlock = s.prepMaxBlock := rfl

@[simp] theorem prepareState_mem (s : State) :
    (prepareState s).mem = s.mem := rfl

@[simp] theorem prepareState_host (s : State) :
    (prepareState s).host = s.host := rfl

@[simp] theorem prepareState_ctrl (s : State) :
    (prepareState s).ctrl = s.ctrl := rfl

@[simp] theorem prepareState_rdata (s : State) :
    (prepareState s).rdata = s.rdata := rfl

/-! ### latchLanded -/

@[simp] theorem latchLanded_cfg (s : State) :
    (latchLanded s).cfg = s.cfg := by
  simp only [latchLanded]

@[simp] theorem latchLanded_voices (s : State) :
    (latchLanded s).voices = s.voices := by
  simp only [latchLanded]

@[simp] theorem latchLanded_bands (s : State) :
    (latchLanded s).bands = s.bands := by
  simp only [latchLanded]

@[simp] theorem latchLanded_ctl (s : State) :
    (latchLanded s).ctl = s.ctl := by
  simp only [latchLanded]

@[simp] theorem latchLanded_snap (s : State) :
    (latchLanded s).snap = s.snap := by
  simp only [latchLanded]

@[simp] theorem latchLanded_prepRate (s : State) :
    (latchLanded s).prepRate = s.prepRate := by
  simp only [latchLanded]

@[simp] theorem latchLanded_prepMaxBlock (s : State) :
    (latchLanded s).prepMaxBlock = s.prepMaxBlock := by
  simp only [latchLanded]

@[simp] theorem latchLanded_mem (s : State) :
    (latchLanded s).mem = s.mem := by
  simp only [latchLanded]

@[simp] theorem latchLanded_inW (s : State) :
    (latchLanded s).inW = s.inW := by
  simp only [latchLanded]

@[simp] theorem latchLanded_car (s : State) :
    (latchLanded s).car = s.car := by
  simp only [latchLanded]

@[simp] theorem latchLanded_host (s : State) :
    (latchLanded s).host = s.host := by
  simp only [latchLanded]

@[simp] theorem latchLanded_rdata (s : State) :
    (latchLanded s).rdata = s.rdata := by
  simp only [latchLanded]

@[simp] theorem latchLanded_outLen (s : State) :
    (latchLanded s).outLen = s.outLen := by
  simp only [latchLanded]

@[simp] theorem latchLanded_draw (s : State) :
    (latchLanded s).draw = s.draw := by
  simp only [latchLanded]

/-! ### latchState -/

@[simp] theorem latchState_cfg (p : Snapshot) (s : State) :
    (latchState p s).cfg = s.cfg := rfl

@[simp] theorem latchState_bands (p : Snapshot) (s : State) :
    (latchState p s).bands = s.bands := rfl

@[simp] theorem latchState_shadow (p : Snapshot) (s : State) :
    (latchState p s).shadow = s.shadow := rfl

@[simp] theorem latchState_prepRate (p : Snapshot) (s : State) :
    (latchState p s).prepRate = s.prepRate := rfl

@[simp] theorem latchState_prepMaxBlock (p : Snapshot) (s : State) :
    (latchState p s).prepMaxBlock = s.prepMaxBlock := rfl

@[simp] theorem latchState_mem (p : Snapshot) (s : State) :
    (latchState p s).mem = s.mem := rfl

@[simp] theorem latchState_inW (p : Snapshot) (s : State) :
    (latchState p s).inW = s.inW := rfl

@[simp] theorem latchState_car (p : Snapshot) (s : State) :
    (latchState p s).car = s.car := rfl

@[simp] theorem latchState_host (p : Snapshot) (s : State) :
    (latchState p s).host = s.host := rfl

@[simp] theorem latchState_ctrl (p : Snapshot) (s : State) :
    (latchState p s).ctrl = s.ctrl := rfl

@[simp] theorem latchState_rdata (p : Snapshot) (s : State) :
    (latchState p s).rdata = s.rdata := rfl

@[simp] theorem latchState_outLen (p : Snapshot) (s : State) :
    (latchState p s).outLen = s.outLen := rfl

@[simp] theorem latchState_draw (p : Snapshot) (s : State) :
    (latchState p s).draw = s.draw := rfl

/-! ### noteOnState -/

@[simp] theorem noteOnState_cfg (v : Nat) (f : Number) (s : State) :
    (noteOnState v f s).cfg = s.cfg := rfl

@[simp] theorem noteOnState_bands (v : Nat) (f : Number) (s : State) :
    (noteOnState v f s).bands = s.bands := rfl

@[simp] theorem noteOnState_snap (v : Nat) (f : Number) (s : State) :
    (noteOnState v f s).snap = s.snap := rfl

@[simp] theorem noteOnState_shadow (v : Nat) (f : Number) (s : State) :
    (noteOnState v f s).shadow = s.shadow := rfl

@[simp] theorem noteOnState_prepRate (v : Nat) (f : Number) (s : State) :
    (noteOnState v f s).prepRate = s.prepRate := rfl

@[simp] theorem noteOnState_prepMaxBlock (v : Nat) (f : Number) (s : State) :
    (noteOnState v f s).prepMaxBlock = s.prepMaxBlock := rfl

@[simp] theorem noteOnState_mem (v : Nat) (f : Number) (s : State) :
    (noteOnState v f s).mem = s.mem := rfl

@[simp] theorem noteOnState_inW (v : Nat) (f : Number) (s : State) :
    (noteOnState v f s).inW = s.inW := rfl

@[simp] theorem noteOnState_car (v : Nat) (f : Number) (s : State) :
    (noteOnState v f s).car = s.car := rfl

@[simp] theorem noteOnState_host (v : Nat) (f : Number) (s : State) :
    (noteOnState v f s).host = s.host := rfl

@[simp] theorem noteOnState_ctrl (v : Nat) (f : Number) (s : State) :
    (noteOnState v f s).ctrl = s.ctrl := rfl

@[simp] theorem noteOnState_rdata (v : Nat) (f : Number) (s : State) :
    (noteOnState v f s).rdata = s.rdata := rfl

@[simp] theorem noteOnState_outLen (v : Nat) (f : Number) (s : State) :
    (noteOnState v f s).outLen = s.outLen := rfl

@[simp] theorem noteOnState_draw (v : Nat) (f : Number) (s : State) :
    (noteOnState v f s).draw = s.draw := rfl

/-! ### renderSample -/

@[simp] theorem renderSample_cfg (i : Nat) (s : State) :
    (renderSample i s).cfg = s.cfg := rfl

@[simp] theorem renderSample_bands (i : Nat) (s : State) :
    (renderSample i s).bands = s.bands := rfl

@[simp] theorem renderSample_ctl (i : Nat) (s : State) :
    (renderSample i s).ctl = s.ctl := rfl

@[simp] theorem renderSample_snap (i : Nat) (s : State) :
    (renderSample i s).snap = s.snap := rfl

@[simp] theorem renderSample_shadow (i : Nat) (s : State) :
    (renderSample i s).shadow = s.shadow := rfl

@[simp] theorem renderSample_prepRate (i : Nat) (s : State) :
    (renderSample i s).prepRate = s.prepRate := rfl

@[simp] theorem renderSample_prepMaxBlock (i : Nat) (s : State) :
    (renderSample i s).prepMaxBlock = s.prepMaxBlock := rfl

@[simp] theorem renderSample_mem (i : Nat) (s : State) :
    (renderSample i s).mem = s.mem := rfl

@[simp] theorem renderSample_inW (i : Nat) (s : State) :
    (renderSample i s).inW = s.inW := rfl

@[simp] theorem renderSample_host (i : Nat) (s : State) :
    (renderSample i s).host = s.host := rfl

@[simp] theorem renderSample_ctrl (i : Nat) (s : State) :
    (renderSample i s).ctrl = s.ctrl := rfl

@[simp] theorem renderSample_rdata (i : Nat) (s : State) :
    (renderSample i s).rdata = s.rdata := rfl

@[simp] theorem renderSample_outLen (i : Nat) (s : State) :
    (renderSample i s).outLen = s.outLen := rfl

@[simp] theorem renderSample_draw (i : Nat) (s : State) :
    (renderSample i s).draw = s.draw := rfl

/-! ### renderLoop -/

@[simp] theorem renderLoop_cfg (k i : Nat) (s : State) :
    (renderLoop k i s).cfg = s.cfg := by
  induction k generalizing i s with
  | zero => rfl
  | succ k ih => exact ih (i + 1) (renderSample i s)

@[simp] theorem renderLoop_bands (k i : Nat) (s : State) :
    (renderLoop k i s).bands = s.bands := by
  induction k generalizing i s with
  | zero => rfl
  | succ k ih => exact ih (i + 1) (renderSample i s)

@[simp] theorem renderLoop_ctl (k i : Nat) (s : State) :
    (renderLoop k i s).ctl = s.ctl := by
  induction k generalizing i s with
  | zero => rfl
  | succ k ih => exact ih (i + 1) (renderSample i s)

@[simp] theorem renderLoop_snap (k i : Nat) (s : State) :
    (renderLoop k i s).snap = s.snap := by
  induction k generalizing i s with
  | zero => rfl
  | succ k ih => exact ih (i + 1) (renderSample i s)

@[simp] theorem renderLoop_shadow (k i : Nat) (s : State) :
    (renderLoop k i s).shadow = s.shadow := by
  induction k generalizing i s with
  | zero => rfl
  | succ k ih => exact ih (i + 1) (renderSample i s)

@[simp] theorem renderLoop_prepRate (k i : Nat) (s : State) :
    (renderLoop k i s).prepRate = s.prepRate := by
  induction k generalizing i s with
  | zero => rfl
  | succ k ih => exact ih (i + 1) (renderSample i s)

@[simp] theorem renderLoop_prepMaxBlock (k i : Nat) (s : State) :
    (renderLoop k i s).prepMaxBlock = s.prepMaxBlock := by
  induction k generalizing i s with
  | zero => rfl
  | succ k ih => exact ih (i + 1) (renderSample i s)

@[simp] theorem renderLoop_mem (k i : Nat) (s : State) :
    (renderLoop k i s).mem = s.mem := by
  induction k generalizing i s with
  | zero => rfl
  | succ k ih => exact ih (i + 1) (renderSample i s)

@[simp] theorem renderLoop_inW (k i : Nat) (s : State) :
    (renderLoop k i s).inW = s.inW := by
  induction k generalizing i s with
  | zero => rfl
  | succ k ih => exact ih (i + 1) (renderSample i s)

@[simp] theorem renderLoop_host (k i : Nat) (s : State) :
    (renderLoop k i s).host = s.host := by
  induction k generalizing i s with
  | zero => rfl
  | succ k ih => exact ih (i + 1) (renderSample i s)

@[simp] theorem renderLoop_ctrl (k i : Nat) (s : State) :
    (renderLoop k i s).ctrl = s.ctrl := by
  induction k generalizing i s with
  | zero => rfl
  | succ k ih => exact ih (i + 1) (renderSample i s)

@[simp] theorem renderLoop_rdata (k i : Nat) (s : State) :
    (renderLoop k i s).rdata = s.rdata := by
  induction k generalizing i s with
  | zero => rfl
  | succ k ih => exact ih (i + 1) (renderSample i s)

@[simp] theorem renderLoop_outLen (k i : Nat) (s : State) :
    (renderLoop k i s).outLen = s.outLen := by
  induction k generalizing i s with
  | zero => rfl
  | succ k ih => exact ih (i + 1) (renderSample i s)

@[simp] theorem renderLoop_draw (k i : Nat) (s : State) :
    (renderLoop k i s).draw = s.draw := by
  induction k generalizing i s with
  | zero => rfl
  | succ k ih => exact ih (i + 1) (renderSample i s)

/-! ### renderState -/

@[simp] theorem renderState_cfg (count : BitVec 16) (s : State) :
    (renderState count s).cfg = s.cfg := renderLoop_cfg _ _ s

@[simp] theorem renderState_bands (count : BitVec 16) (s : State) :
    (renderState count s).bands = s.bands := renderLoop_bands _ _ s

@[simp] theorem renderState_snap (count : BitVec 16) (s : State) :
    (renderState count s).snap = s.snap := renderLoop_snap _ _ s

@[simp] theorem renderState_shadow (count : BitVec 16) (s : State) :
    (renderState count s).shadow = s.shadow := renderLoop_shadow _ _ s

@[simp] theorem renderState_prepRate (count : BitVec 16) (s : State) :
    (renderState count s).prepRate = s.prepRate := renderLoop_prepRate _ _ s

@[simp] theorem renderState_prepMaxBlock (count : BitVec 16) (s : State) :
    (renderState count s).prepMaxBlock = s.prepMaxBlock := renderLoop_prepMaxBlock _ _ s

@[simp] theorem renderState_mem (count : BitVec 16) (s : State) :
    (renderState count s).mem = s.mem := renderLoop_mem _ _ s

@[simp] theorem renderState_inW (count : BitVec 16) (s : State) :
    (renderState count s).inW = s.inW := renderLoop_inW _ _ s

@[simp] theorem renderState_host (count : BitVec 16) (s : State) :
    (renderState count s).host = s.host := renderLoop_host _ _ s

@[simp] theorem renderState_ctrl (count : BitVec 16) (s : State) :
    (renderState count s).ctrl = s.ctrl := renderLoop_ctrl _ _ s

@[simp] theorem renderState_rdata (count : BitVec 16) (s : State) :
    (renderState count s).rdata = s.rdata := renderLoop_rdata _ _ s

@[simp] theorem renderState_outLen (count : BitVec 16) (s : State) :
    (renderState count s).outLen = s.outLen := renderLoop_outLen _ _ s

@[simp] theorem renderState_draw (count : BitVec 16) (s : State) :
    (renderState count s).draw = s.draw := renderLoop_draw _ _ s

/-! ### flushState -/

@[simp] theorem flushState_cfg (s : State) :
    (flushState s).cfg = s.cfg := by
  unfold flushState; split <;> rfl

@[simp] theorem flushState_voices (s : State) :
    (flushState s).voices = s.voices := by
  unfold flushState; split <;> rfl

@[simp] theorem flushState_snap (s : State) :
    (flushState s).snap = s.snap := by
  unfold flushState; split <;> rfl

@[simp] theorem flushState_shadow (s : State) :
    (flushState s).shadow = s.shadow := by
  unfold flushState; split <;> rfl

@[simp] theorem flushState_prepRate (s : State) :
    (flushState s).prepRate = s.prepRate := by
  unfold flushState; split <;> rfl

@[simp] theorem flushState_prepMaxBlock (s : State) :
    (flushState s).prepMaxBlock = s.prepMaxBlock := by
  unfold flushState; split <;> rfl

@[simp] theorem flushState_inW (s : State) :
    (flushState s).inW = s.inW := by
  unfold flushState; split <;> rfl

@[simp] theorem flushState_host (s : State) :
    (flushState s).host = s.host := by
  unfold flushState; split <;> rfl

@[simp] theorem flushState_ctrl (s : State) :
    (flushState s).ctrl = s.ctrl := by
  unfold flushState; split <;> rfl

@[simp] theorem flushState_rdata (s : State) :
    (flushState s).rdata = s.rdata := by
  unfold flushState; split <;> rfl

/-! ### busError -/

@[simp] theorem busError_cfg (a : Addr) (s : State) :
    (busError a s).cfg = s.cfg := by
  simp [busError]

@[simp] theorem busError_voices (a : Addr) (s : State) :
    (busError a s).voices = s.voices := by
  simp [busError]

@[simp] theorem busError_bands (a : Addr) (s : State) :
    (busError a s).bands = s.bands := by
  simp [busError]

@[simp] theorem busError_snap (a : Addr) (s : State) :
    (busError a s).snap = s.snap := by
  simp [busError]

@[simp] theorem busError_shadow (a : Addr) (s : State) :
    (busError a s).shadow = s.shadow := by
  simp [busError]

@[simp] theorem busError_prepRate (a : Addr) (s : State) :
    (busError a s).prepRate = s.prepRate := by
  simp [busError]

@[simp] theorem busError_prepMaxBlock (a : Addr) (s : State) :
    (busError a s).prepMaxBlock = s.prepMaxBlock := by
  simp [busError]

@[simp] theorem busError_mem (a : Addr) (s : State) :
    (busError a s).mem = s.mem := by
  simp [busError]

@[simp] theorem busError_inW (a : Addr) (s : State) :
    (busError a s).inW = s.inW := by
  simp [busError]

@[simp] theorem busError_car (a : Addr) (s : State) :
    (busError a s).car = s.car := by
  simp [busError]

@[simp] theorem busError_host (a : Addr) (s : State) :
    (busError a s).host = s.host := by
  simp [busError]

@[simp] theorem busError_ctrl (a : Addr) (s : State) :
    (busError a s).ctrl = s.ctrl := by
  simp [busError]

@[simp] theorem busError_rdata (a : Addr) (s : State) :
    (busError a s).rdata = s.rdata := by
  simp [busError]

@[simp] theorem busError_outLen (a : Addr) (s : State) :
    (busError a s).outLen = s.outLen := by
  simp [busError]

@[simp] theorem busError_draw (a : Addr) (s : State) :
    (busError a s).draw = s.draw := by
  simp [busError]

/-! ### storeTarget -/

@[simp] theorem storeTarget_cfg (w : Word) (s : State) (t : Target) :
    (storeTarget w s t).cfg = s.cfg := by
  cases t <;> rfl

@[simp] theorem storeTarget_voices (w : Word) (s : State) (t : Target) :
    (storeTarget w s t).voices = s.voices := by
  cases t <;> rfl

@[simp] theorem storeTarget_bands (w : Word) (s : State) (t : Target) :
    (storeTarget w s t).bands = s.bands := by
  cases t <;> rfl

@[simp] theorem storeTarget_ctl (w : Word) (s : State) (t : Target) :
    (storeTarget w s t).ctl = s.ctl := by
  cases t <;> rfl

@[simp] theorem storeTarget_snap (w : Word) (s : State) (t : Target) :
    (storeTarget w s t).snap = s.snap := by
  cases t <;> rfl

@[simp] theorem storeTarget_car (w : Word) (s : State) (t : Target) :
    (storeTarget w s t).car = s.car := by
  cases t <;> rfl

@[simp] theorem storeTarget_host (w : Word) (s : State) (t : Target) :
    (storeTarget w s t).host = s.host := by
  cases t <;> rfl

@[simp] theorem storeTarget_ctrl (w : Word) (s : State) (t : Target) :
    (storeTarget w s t).ctrl = s.ctrl := by
  cases t <;> rfl

@[simp] theorem storeTarget_rdata (w : Word) (s : State) (t : Target) :
    (storeTarget w s t).rdata = s.rdata := by
  cases t <;> rfl

@[simp] theorem storeTarget_outLen (w : Word) (s : State) (t : Target) :
    (storeTarget w s t).outLen = s.outLen := by
  cases t <;> rfl

@[simp] theorem storeTarget_draw (w : Word) (s : State) (t : Target) :
    (storeTarget w s t).draw = s.draw := by
  cases t <;> rfl

end Sys2Proof.Machine
end

