-- ==== Sys2Proof/Laws/Ops.lean ====
section
/-! SUPPORT. What each shared operation can do, once. -/

namespace Sys2Proof.Machine

open Sys2Proof

/-! ### Shadow registers -/

theorem OscShadow.get_set (b : OscShadow) (r j : OscReg) (x : ShadowCell) :
    (b.set r x).get j = if j = r then x else b.get j := by
  cases r <;> cases j <;> rfl

/-- A write to a shadow register is read back, and every other register keeps its cell. -/
theorem Shadow.get_set (b : Shadow) (r j : ShadowReg) (x : ShadowCell) :
    (b.set r x).get j = if j = r then x else b.get j := by
  cases r with
  | osc k r =>
    cases j with
    | osc i j =>
      by_cases hk : i = k
      · subst hk
        have : (b.set (.osc i r) x).get (.osc i j) = (((b.osc.get i).set r x)).get j := by
          simp only [Shadow.set, Shadow.get, Four.get_set_self]
        rw [this, OscShadow.get_set]
        by_cases hj : j = r
        · subst hj; rw [if_pos rfl, if_pos rfl]
        · rw [if_neg hj, if_neg (fun h => hj (by injection h))]; rfl
      · have : (b.set (.osc k r) x).get (.osc i j) = (b.osc.get i).get j := by
          simp only [Shadow.set, Shadow.get, Four.get_set_of_ne _ _ hk]
        rw [this, if_neg (fun h => hk (by injection h))]; rfl
    | _ => rfl
  | _ =>
    cases j with
    | osc i j => rw [if_neg (fun h => nomatch h)]; rfl
    | _ => rfl

/-- The cell a host write leaves in each shadow register. -/
theorem Shadow.get_store (b : Shadow) (r j : ShadowReg) (w : Word) :
    (b.store r w).get j = if j = r then ⟨readBack (regKind r) w, true⟩ else b.get j :=
  Shadow.get_set b r j _

/-- Two shadow register files with equal cells are equal. -/
theorem Shadow.ext_get {a b : Shadow} (h : ∀ r, a.get r = b.get r) : a = b := by
  have four : a.osc = b.osc := by
    have hk : ∀ k, a.osc.get k = b.osc.get k := by
      intro k
      have hr : ∀ r, (a.osc.get k).get r = (b.osc.get k).get r := fun r => h (.osc k r)
      have h1 := hr .wave; have h2 := hr .coarse; have h3 := hr .fine; have h4 := hr .gain
      have h5 := hr .attackMs; have h6 := hr .decayMs; have h7 := hr .sustainDb
      have h8 := hr .releaseMs
      generalize a.osc.get k = x at *
      generalize b.osc.get k = y at *
      cases x; cases y
      simp only [OscShadow.get] at *
      subst h1 h2 h3 h4 h5 h6 h7 h8
      rfl
    have h1 := hk .k1; have h2 := hk .k2; have h3 := hk .k3; have h4 := hk .k4
    generalize a.osc = x at *
    generalize b.osc = y at *
    cases x; cases y
    simp only [Four.get] at *
    subst h1 h2 h3 h4
    rfl
  have h1 := h .algo; have h2 := h .filtMode; have h3 := h .filtEn; have h4 := h .filtCutoff
  have h5 := h .filtRes; have h6 := h .vocEn; have h7 := h .vocSmooth; have h8 := h .fenvAttackMs
  have h9 := h .fenvDecayMs; have h10 := h .fenvSustainPct; have h11 := h .fenvReleaseMs
  clear h
  cases a; cases b
  simp only [Shadow.get] at *
  subst h1 h2 h3 h4 h5 h6 h7 h8 h9 h10 h11 four
  rfl

theorem mem_shadowRegs (r : ShadowReg) : r ∈ shadowRegs := by
  cases r with
  | osc k r => cases k <;> cases r <;> decide
  | _ => decide

/-! ### Voices -/

@[simp] theorem modifyAt_length (f : Voice → Voice) (vs : List Voice) (n : Nat) :
    (modifyAt f vs n).length = vs.length := by
  induction vs generalizing n with
  | nil => rfl
  | cons v vs ih => cases n with
    | zero => rfl
    | succ n => simp [modifyAt, ih]

/-- The voice named is changed by the function, every other is kept. -/
theorem modifyAt_getElem? (f : Voice → Voice) (vs : List Voice) (n i : Nat) :
    (modifyAt f vs n)[i]? = if i = n then vs[i]?.map f else vs[i]? := by
  induction vs generalizing n i with
  | nil => simp [modifyAt]
  | cons v vs ih =>
    cases n with
    | zero => cases i <;> simp [modifyAt]
    | succ n =>
      cases i with
      | zero => simp [modifyAt]
      | succ i => simp [modifyAt, ih]

/-- Every voice after the change is a voice from before or the changed voice. -/
theorem mem_modifyAt {f : Voice → Voice} {vs : List Voice} {n : Nat} {v : Voice}
    (h : v ∈ modifyAt f vs n) : v ∈ vs ∨ ∃ u ∈ vs, v = f u := by
  induction vs generalizing n with
  | nil => exact absurd h (by simp [modifyAt])
  | cons u vs ih =>
    cases n with
    | zero =>
      simp only [modifyAt, List.mem_cons] at h
      rcases h with rfl | h
      · exact .inr ⟨u, List.mem_cons_self, rfl⟩
      · exact .inl (List.mem_cons_of_mem _ h)
    | succ n =>
      simp only [modifyAt, List.mem_cons] at h
      rcases h with rfl | h
      · exact .inl List.mem_cons_self
      · rcases ih h with h | ⟨x, hx, rfl⟩
        · exact .inl (List.mem_cons_of_mem _ h)
        · exact .inr ⟨x, List.mem_cons_of_mem _ hx, rfl⟩

/-! ### Faults -/

theorem raiseFault_of_faulted {code : FaultCode} {info : Word} {s : State}
    (h : s.ctl.faulted = true) : raiseFault code info s = s := by
  rw [raiseFault, if_pos h]

theorem raiseFault_of_unfaulted {code : FaultCode} {info : Word} {s : State}
    (h : s.ctl.faulted = false) :
    raiseFault code info s
      = { s with ctl :=
          { s.ctl with faulted := true, faultCode := faultBits code, faultInfo := info } } := by
  rw [raiseFault, if_neg (by simp [h])]

@[simp] theorem settle_ok (s t : State) : settle s (.ok t) = t := rfl

@[simp] theorem settle_error (s : State) (code : FaultCode) (info : Word) :
    settle s (.error (code, info)) = raiseFault code info s := rfl

/-- A command that is not PREPARE: ignored, performed, or refused before the first PREPARE. -/
theorem whenAccepted_cases (w : Word) (s t : State) :
    (s.ctl.faulted = true ∧ whenAccepted w s t = s) ∨
    (s.ctl.faulted = false ∧ s.ctl.prepared = true ∧ whenAccepted w s t = t) ∨
    (s.ctl.faulted = false ∧ s.ctl.prepared = false ∧
      whenAccepted w s t = raiseFault .notPrepared w s) := by
  unfold whenAccepted
  cases hf : s.ctl.faulted <;> cases hp : s.ctl.prepared <;> simp

theorem whenAccepted_of_ready {w : Word} {s t : State} (hf : s.ctl.faulted = false)
    (hp : s.ctl.prepared = true) : whenAccepted w s t = t := by
  rw [whenAccepted, hf, hp]; rfl

theorem checkVoice_of_lt {w : Word} {voice : BitVec 4} {s : State} (h : voice.toNat < numVoices s) :
    checkVoice w voice s = .ok voice.toNat := by
  rw [checkVoice, if_pos h]

theorem checkVoice_of_ge {w : Word} {voice : BitVec 4} {s : State} (h : numVoices s ≤ voice.toNat) :
    checkVoice w voice s = .error (.badVoice, w) := by
  rw [checkVoice, if_neg (by omega)]

theorem checkLatched_of_latched {w : Word} {s : State} (h : s.ctl.latched = true) :
    checkLatched w s = .ok () := by
  rw [checkLatched, if_pos h]

theorem checkLatched_of_not {w : Word} {s : State} (h : s.ctl.latched = false) :
    checkLatched w s = .error (.notLatched, w) := by
  rw [checkLatched, if_neg (by simp [h])]

/-- A command on one voice: BAD_VOICE, NOT_LATCHED, or its effect. -/
theorem voiceCommand_cases (w : Word) (voice : BitVec 4) (s : State) (effect : Nat → State) :
    (numVoices s ≤ voice.toNat ∧ voiceCommand w voice s effect = .error (.badVoice, w)) ∨
    (voice.toNat < numVoices s ∧ s.ctl.latched = false ∧
      voiceCommand w voice s effect = .error (.notLatched, w)) ∨
    (voice.toNat < numVoices s ∧ s.ctl.latched = true ∧
      voiceCommand w voice s effect = .ok (effect voice.toNat)) := by
  rcases Nat.lt_or_ge voice.toNat (numVoices s) with h | h
  · rcases hl : s.ctl.latched with _ | _
    · exact .inr (.inl ⟨h, rfl, by rw [voiceCommand, checkVoice_of_lt h]; simp [checkLatched_of_not hl]⟩)
    · exact .inr (.inr ⟨h, rfl, by
        rw [voiceCommand, checkVoice_of_lt h]; simp [checkLatched_of_latched hl]⟩)
  · exact .inl ⟨h, by rw [voiceCommand, checkVoice_of_ge h]⟩

/-- RENDER: NOT_LATCHED, BLOCK_OVERFLOW, or its effect. -/
theorem renderBody_cases (w : Word) (count : BitVec 16) (s : State) :
    (s.ctl.latched = false ∧ renderBody w count s = .error (.notLatched, w)) ∨
    (s.ctl.latched = true ∧ s.ctl.maxBlock.toNat < s.ctl.pos.toNat + count.toNat ∧
      renderBody w count s = .error (.blockOverflow, w)) ∨
    (s.ctl.latched = true ∧ s.ctl.pos.toNat + count.toNat ≤ s.ctl.maxBlock.toNat ∧
      renderBody w count s = .ok (renderState count s)) := by
  rcases hl : s.ctl.latched with _ | _
  · exact .inl ⟨rfl, by rw [renderBody, checkLatched_of_not hl]⟩
  · right
    rcases Nat.lt_or_ge s.ctl.maxBlock.toNat (s.ctl.pos.toNat + count.toNat) with h | h
    · exact .inl ⟨rfl, h, by rw [renderBody, checkLatched_of_latched hl]; simp [h]⟩
    · exact .inr ⟨rfl, h, by
        rw [renderBody, checkLatched_of_latched hl]; simp [Nat.not_lt.2 h]⟩

/-- FLUSH: NOT_LATCHED, INPUT_UNINIT at the lowest unwritten element, or its effect. -/
theorem flushBody_cases (w : Word) (s : State) :
    (s.ctl.latched = false ∧ flushBody w s = .error (.notLatched, w)) ∨
    (∃ n, s.ctl.latched = true ∧ s.snap.vocEn = true ∧ firstUnwritten s = some n ∧
      flushBody w s = .error (.inputUninit, BitVec.ofNat 32 (inBase .c0 + 4 * n))) ∨
    (s.ctl.latched = true ∧ (s.snap.vocEn = true → firstUnwritten s = none) ∧
      flushBody w s = .ok (flushState s)) := by
  rcases hl : s.ctl.latched with _ | _
  · exact .inl ⟨rfl, by rw [flushBody, checkLatched_of_not hl]⟩
  · right
    rcases hv : s.snap.vocEn with _ | _
    · exact .inr ⟨rfl, by simp, by rw [flushBody, checkLatched_of_latched hl]; simp [hv]⟩
    · rcases hu : firstUnwritten s with _ | n
      · exact .inr ⟨rfl, by simp, by rw [flushBody, checkLatched_of_latched hl]; simp [hv, hu]⟩
      · exact .inl ⟨n, rfl, rfl, rfl, by
          rw [flushBody, checkLatched_of_latched hl]; simp [hv, hu]⟩

/-- LATCH: PARAM_UNINIT, PARAM_NONFINITE, or its effect, on its local copy. -/
theorem latchBody_cases (copy : Shadow) (s : State) :
    (∃ e, checkParams copy = .error e ∧ latchBody copy s = .error e) ∨
    (checkParams copy = .ok () ∧ latchBody copy s = .ok (latchState (convert s.cfg.numerics copy) s)) := by
  unfold latchBody
  cases h : checkParams copy with
  | error e => exact .inl ⟨e, rfl, rfl⟩
  | ok u => exact .inr ⟨rfl, rfl⟩

/-! ### The reads of a LATCH -/

/-- With no HOST_CTRL write overlapping it, a LATCH reads the registers as they are and leaves them. -/
theorem latchReads_quiet (rs : List ShadowReg) (n : Nat) (b copy : Shadow) :
    (latchReads rs n [] b copy).2 = b ∧
      ∀ r, (latchReads rs n [] b copy).1.get r = if r ∈ rs then b.get r else copy.get r := by
  induction rs generalizing n copy with
  | nil => exact ⟨rfl, fun r => by simp [latchReads]⟩
  | cons q rs ih =>
    have hstep : latchReads (q :: rs) n [] b copy = latchReads rs (n + 1) [] b (copy.set q (b.get q)) :=
      rfl
    rw [hstep]
    refine ⟨(ih (n + 1) _).1, fun r => ?_⟩
    rw [(ih (n + 1) _).2 r, Shadow.get_set]
    by_cases h1 : r ∈ rs
    · simp [h1]
    · by_cases h2 : r = q
      · subst h2; simp [h1]
      · simp [h1, h2]

/-- A quiet LATCH's local copy is the registers. -/
theorem latchCopy_quiet {s : State} (h : s.ctrl = []) : latchCopy s = (s.shadow, s.shadow) := by
  have hq := latchReads_quiet shadowRegs 0 s.shadow s.shadow
  rw [latchCopy, h]
  refine Prod.ext (Shadow.ext_get fun r => ?_) hq.1
  rw [hq.2 r]; simp

end Sys2Proof.Machine
end

