-- ==== Sys2Proof/Laws/PerInstr.lean ====
section
/-! SUPPORT. What is said of every instruction, one lemma per constructor: its bus write is the row of
spec/opcode_table.json that it stands for. -/

namespace Sys2Proof.Laws.TableRow

open Sys2Proof

/-- The mask of an instruction's row. ILLEGAL's row gives opcode 0 as its example and, in its note, every
reserved word; no one mask holds them, so it has none here. -/
def mask : Instr → Word
  | .prepare => 0xFFFFFFFF#32
  | .latch => 0xFFFFFFFF#32
  | .noteOn _ _ _ => 0xFFC0000F#32
  | .noteOff _ _ _ => 0xFFFF000F#32
  | .render _ => 0x0000FFFF#32
  | .flush => 0xFFFFFFFF#32
  | .filterReset _ => 0xFFFFFF0F#32
  | .waveSine _ => 0x3#32
  | .waveSaw _ => 0x3#32
  | .waveSquare _ => 0x3#32
  | .waveTriangle _ => 0x3#32
  | .fmodeLp => 0x3#32
  | .fmodeBp => 0x3#32
  | .fmodeHp => 0x3#32
  | .fmodeReserved => 0x3#32
  | .algo0 => 0x7#32
  | .algo1 => 0x7#32
  | .algo2 => 0x7#32
  | .algo3 => 0x7#32
  | .algo4 => 0x7#32
  | .algo5 => 0x7#32
  | .algo6 => 0x7#32
  | .algo7 => 0x7#32
  | .illegal _ => 0#32

/-- The match word of an instruction's row. -/
def matchWord : Instr → Word
  | .prepare => 1#32
  | .latch => 2#32
  | .noteOn _ _ _ => 3#32
  | .noteOff _ _ _ => 4#32
  | .render _ => 5#32
  | .flush => 6#32
  | .filterReset _ => 7#32
  | .waveSine _ => 0#32
  | .waveSaw _ => 1#32
  | .waveSquare _ => 2#32
  | .waveTriangle _ => 3#32
  | .fmodeLp => 0#32
  | .fmodeBp => 1#32
  | .fmodeHp => 2#32
  | .fmodeReserved => 3#32
  | .algo0 => 0#32
  | .algo1 => 1#32
  | .algo2 => 2#32
  | .algo3 => 3#32
  | .algo4 => 4#32
  | .algo5 => 5#32
  | .algo6 => 6#32
  | .algo7 => 7#32
  | .illegal _ => 0#32

/-- The address of the register an instruction's row is written to ("encoding_space"). -/
def register : Instr → Nat
  | .prepare => 0x100
  | .latch => 0x100
  | .noteOn _ _ _ => 0x100
  | .noteOff _ _ _ => 0x100
  | .render _ => 0x100
  | .flush => 0x100
  | .filterReset _ => 0x100
  | .waveSine k => oscBase k
  | .waveSaw k => oscBase k
  | .waveSquare k => oscBase k
  | .waveTriangle k => oscBase k
  | .fmodeLp => 0x004
  | .fmodeBp => 0x004
  | .fmodeHp => 0x004
  | .fmodeReserved => 0x004
  | .algo0 => 0x000
  | .algo1 => 0x000
  | .algo2 => 0x000
  | .algo3 => 0x000
  | .algo4 => 0x000
  | .algo5 => 0x000
  | .algo6 => 0x000
  | .algo7 => 0x000
  | .illegal _ => 0x100

/-- The instruction's bus write goes to its row's register and matches its row's word under its mask. -/
def Statement (i : Instr) : Prop :=
  (encode i).addr.toNat = register i ∧ (encode i).data &&& mask i = matchWord i

theorem prepare : Statement .prepare := by constructor <;> decide

theorem latch : Statement .latch := by constructor <;> decide

theorem noteOn (vel note : BitVec 7) (voice : BitVec 4) : Statement (.noteOn vel note voice) := by
  refine ⟨rfl, ?_⟩
  ext i hi
  simp only [encode, selectorReg, cmdWrite, instrWord, mask, matchWord, BitVec.getElem_and,
    BitVec.getElem_append]
  interval_cases i <;> simp

theorem noteOff (vel : BitVec 7) (tail : Bool) (voice : BitVec 4) :
    Statement (.noteOff vel tail voice) := by
  refine ⟨rfl, ?_⟩
  ext i hi
  simp only [encode, selectorReg, cmdWrite, instrWord, mask, matchWord, BitVec.getElem_and,
    BitVec.getElem_append]
  interval_cases i <;> simp

theorem render (count : BitVec 16) : Statement (.render count) := by
  refine ⟨rfl, ?_⟩
  ext i hi
  simp only [encode, selectorReg, cmdWrite, instrWord, mask, matchWord, BitVec.getElem_and,
    BitVec.getElem_append]
  interval_cases i <;> simp

theorem flush : Statement .flush := by constructor <;> decide

theorem filterReset (voice : BitVec 4) : Statement (.filterReset voice) := by
  refine ⟨rfl, ?_⟩
  ext i hi
  simp only [encode, selectorReg, cmdWrite, instrWord, mask, matchWord, BitVec.getElem_and,
    BitVec.getElem_append]
  interval_cases i <;> simp

theorem waveSine (k : OscId) : Statement (.waveSine k) := by cases k <;> constructor <;> decide

theorem waveSaw (k : OscId) : Statement (.waveSaw k) := by cases k <;> constructor <;> decide

theorem waveSquare (k : OscId) : Statement (.waveSquare k) := by cases k <;> constructor <;> decide

theorem waveTriangle (k : OscId) : Statement (.waveTriangle k) := by cases k <;> constructor <;> decide

theorem fmodeLp : Statement .fmodeLp := by constructor <;> decide

theorem fmodeBp : Statement .fmodeBp := by constructor <;> decide

theorem fmodeHp : Statement .fmodeHp := by constructor <;> decide

theorem fmodeReserved : Statement .fmodeReserved := by constructor <;> decide

theorem algo0 : Statement .algo0 := by constructor <;> decide

theorem algo1 : Statement .algo1 := by constructor <;> decide

theorem algo2 : Statement .algo2 := by constructor <;> decide

theorem algo3 : Statement .algo3 := by constructor <;> decide

theorem algo4 : Statement .algo4 := by constructor <;> decide

theorem algo5 : Statement .algo5 := by constructor <;> decide

theorem algo6 : Statement .algo6 := by constructor <;> decide

theorem algo7 : Statement .algo7 := by constructor <;> decide

theorem illegal (w : Word) : Statement (.illegal w) := ⟨rfl, BitVec.and_zero⟩

end Sys2Proof.Laws.TableRow
end

