-- ==== Sys2Proof/Laws/Step.lean ====
section
/-! SUPPORT. What an instruction can do and what a step can do, once: later proofs take these cases and
unfold neither `exec` nor `step`. -/

namespace Sys2Proof.Machine

open Sys2Proof

/-- The ways an instruction i leads from s to its next state. -/
inductive Did : Instr → State → State → Prop
  /-- A selector row stored its code. -/
  | stored {i : Instr} {r : ShadowReg} (s : State) (h : selectorReg i = some r) :
      Did i s (storeShadow r (instrWord i) s)
  /-- A command was ignored while faulted, or a PREPARE failed while faulted. -/
  | ignored {i : Instr} {s : State} (h : selectorReg i = none) (hf : s.ctl.faulted = true) : Did i s s
  /-- A command raised a fault; a LATCH raises one here only before the first PREPARE. -/
  | refused {i : Instr} {s : State} (code : FaultCode) (info : Word) (h : selectorReg i = none)
      (hf : s.ctl.faulted = false) (hl : i ≠ .latch ∨ s.ctl.prepared = false) :
      Did i s (raiseFault code info s)
  /-- A LATCH refused its registers. -/
  | latchRefused {s : State} (code : FaultCode) (info : Word) (hf : s.ctl.faulted = false)
      (hp : s.ctl.prepared = true) (hc : checkParams (latchCopy s).1 = .error (code, info)) :
      Did .latch s (raiseFault code info (latchLanded s))
  | prepared {s : State} (h : prepareOk s = true) : Did .prepare s (prepareState s)
  | latched {s : State} (hf : s.ctl.faulted = false) (hp : s.ctl.prepared = true)
      (hc : checkParams (latchCopy s).1 = .ok ()) :
      Did .latch s (latchState (convert s.cfg.numerics (latchCopy s).1) (latchLanded s))
  | notedOn (vel note : BitVec 7) {voice : BitVec 4} {s : State} (hr : s.Ready)
      (hv : voice.toNat < numVoices s) :
      Did (.noteOn vel note voice) s (noteOnState voice.toNat (noteFreq s.cfg note) s)
  | notedOff (vel : BitVec 7) (tail : Bool) {voice : BitVec 4} {s : State} (hr : s.Ready)
      (hv : voice.toNat < numVoices s) :
      Did (.noteOff vel tail voice) s (modifyVoice voice.toNat (voiceNoteOff s.cfg.numerics s.ctl.fs tail) s)
  | filterWasReset {voice : BitVec 4} {s : State} (hr : s.Ready) (hv : voice.toNat < numVoices s) :
      Did (.filterReset voice) s
        (modifyVoice voice.toNat (fun x => { x with filt := filtReset x.filt }) s)
  | rendered {count : BitVec 16} {s : State} (hr : s.Ready)
      (hb : s.ctl.pos.toNat + count.toNat ≤ s.ctl.maxBlock.toNat) :
      Did (.render count) s (renderState count s)
  | flushed {s : State} (hr : s.Ready) (hi : s.snap.vocEn = true → firstUnwritten s = none) :
      Did .flush s (flushState s)

theorem did_voiceCommand {i : Instr} {w : Word} {voice : BitVec 4} {s : State} {effect : Nat → State}
    (hs : selectorReg i = none) (hl : i ≠ .latch)
    (he : s.Ready → voice.toNat < numVoices s → Did i s (effect voice.toNat)) :
    Did i s (whenAccepted w s (settle s (voiceCommand w voice s effect))) := by
  rcases whenAccepted_cases w s (settle s (voiceCommand w voice s effect)) with
    ⟨hf, e⟩ | ⟨hf, hp, e⟩ | ⟨hf, hp, e⟩ <;> rw [e]
  · exact .ignored hs hf
  · rcases voiceCommand_cases w voice s effect with ⟨-, e⟩ | ⟨-, -, e⟩ | ⟨hv, hlt, e⟩ <;> rw [e]
    · exact .refused _ _ hs hf (.inl hl)
    · exact .refused _ _ hs hf (.inl hl)
    · exact he ⟨hf, hp, hlt⟩ hv
  · exact .refused _ _ hs hf (.inl hl)

/-- Everything an instruction can do. -/
theorem exec_did {i : Instr} {s t : State} (h : exec i s = .next t) : Did i s t := by
  cases i with
  | prepare =>
    injection h with h; subst h
    by_cases hok : prepareOk s = true
    · rw [if_pos hok]; exact .prepared hok
    · rw [if_neg hok, settle_error]
      cases hf : s.ctl.faulted with
      | true => rw [raiseFault_of_faulted hf]; exact .ignored rfl hf
      | false => exact .refused _ _ rfl hf (.inl (by simp))
  | latch =>
    injection h with h; subst h
    rcases whenAccepted_cases (instrWord .latch) s
      (settle (latchLanded s) (latchBody (latchCopy s).1 (latchLanded s))) with
      ⟨hf, e⟩ | ⟨hf, hp, e⟩ | ⟨hf, hp, e⟩ <;> rw [e]
    · exact .ignored rfl hf
    · rcases latchBody_cases (latchCopy s).1 (latchLanded s) with ⟨⟨code, info⟩, hc, e⟩ | ⟨hc, e⟩ <;>
        rw [e]
      · exact .latchRefused code info hf hp hc
      · rw [settle_ok, latchLanded_cfg]; exact .latched hf hp hc
    · exact .refused _ _ rfl hf (.inr hp)
  | noteOn vel note voice =>
    injection h with h; subst h
    exact did_voiceCommand rfl (by simp) fun hr hv => .notedOn vel note hr hv
  | noteOff vel tail voice =>
    injection h with h; subst h
    exact did_voiceCommand rfl (by simp) fun hr hv => .notedOff vel tail hr hv
  | filterReset voice =>
    injection h with h; subst h
    exact did_voiceCommand rfl (by simp) fun hr hv => .filterWasReset hr hv
  | render count =>
    injection h with h; subst h
    rcases whenAccepted_cases (instrWord (.render count)) s
      (settle s (renderBody (instrWord (.render count)) count s)) with
      ⟨hf, e⟩ | ⟨hf, hp, e⟩ | ⟨hf, hp, e⟩ <;> rw [e]
    · exact .ignored rfl hf
    · rcases renderBody_cases (instrWord (.render count)) count s with ⟨-, e⟩ | ⟨-, -, e⟩ | ⟨hl, hb, e⟩ <;>
        rw [e]
      · exact .refused _ _ rfl hf (.inl (by simp))
      · exact .refused _ _ rfl hf (.inl (by simp))
      · exact .rendered ⟨hf, hp, hl⟩ hb
    · exact .refused _ _ rfl hf (.inl (by simp))
  | flush =>
    injection h with h; subst h
    rcases whenAccepted_cases (instrWord .flush) s (settle s (flushBody (instrWord .flush) s)) with
      ⟨hf, e⟩ | ⟨hf, hp, e⟩ | ⟨hf, hp, e⟩ <;> rw [e]
    · exact .ignored rfl hf
    · rcases flushBody_cases (instrWord .flush) s with ⟨-, e⟩ | ⟨n, -, -, -, e⟩ | ⟨hl, hi, e⟩ <;> rw [e]
      · exact .refused _ _ rfl hf (.inl (by simp))
      · exact .refused _ _ rfl hf (.inl (by simp))
      · exact .flushed ⟨hf, hp, hl⟩ hi
    · exact .refused _ _ rfl hf (.inl (by simp))
  | illegal w =>
    injection h with h; subst h
    cases hf : s.ctl.faulted with
    | true => rw [raiseFault_of_faulted hf]; exact .ignored rfl hf
    | false => exact .refused _ _ rfl hf (.inl (by simp))
  | waveSine k => injection h with h; subst h; exact .stored s rfl
  | waveSaw k => injection h with h; subst h; exact .stored s rfl
  | waveSquare k => injection h with h; subst h; exact .stored s rfl
  | waveTriangle k => injection h with h; subst h; exact .stored s rfl
  | fmodeLp => injection h with h; subst h; exact .stored s rfl
  | fmodeBp => injection h with h; subst h; exact .stored s rfl
  | fmodeHp => injection h with h; subst h; exact .stored s rfl
  | fmodeReserved => injection h with h; subst h; exact .stored s rfl
  | algo0 => injection h with h; subst h; exact .stored s rfl
  | algo1 => injection h with h; subst h; exact .stored s rfl
  | algo2 => injection h with h; subst h; exact .stored s rfl
  | algo3 => injection h with h; subst h; exact .stored s rfl
  | algo4 => injection h with h; subst h; exact .stored s rfl
  | algo5 => injection h with h; subst h; exact .stored s rfl
  | algo6 => injection h with h; subst h; exact .stored s rfl
  | algo7 => injection h with h; subst h; exact .stored s rfl

/-- The ways a step leads from s to its next state. -/
inductive Stepped (s : State) : State → Prop
  | idle (h : s.host = []) : Stepped s s
  | read {bits : Nat} {a : Addr} {rest : List Access} (h : s.host = .read bits a :: rest) :
      Stepped s (busRead bits a { s with host := rest })
  | refusedWrite {bits : Nat} {a : Addr} {w : Word} {rest : List Access}
      (h : s.host = .write bits a w :: rest) (hw : writeAccepted bits a s = false) :
      Stepped s (busError a { s with host := rest })
  | plainWrite {bits : Nat} {a : Addr} {w : Word} {rest : List Access} {e : DecodeReject}
      (h : s.host = .write bits a w :: rest) (hw : writeAccepted bits a s = true)
      (hd : decode ⟨a, w⟩ = .error e) : Stepped s (busStore a w { s with host := rest })
  | ran {bits : Nat} {a : Addr} {w : Word} {rest : List Access} {i : Instr} {t : State}
      (h : s.host = .write bits a w :: rest) (hw : writeAccepted bits a s = true)
      (hd : decode ⟨a, w⟩ = .ok i) (hi : Did i { s with host := rest } t) : Stepped s t
  | overlapped {after : Nat} {reg : ShadowReg} {data : Word} {rest : List Access}
      (h : s.host = .overlap after reg data :: rest) :
      Stepped s { s with host := rest, ctrl := s.ctrl ++ [⟨after, reg, data⟩] }

/-- Everything a step can do. -/
theorem step_cases {s t : State} (h : step s = .next t) : Stepped s t := by
  rw [step] at h
  split at h
  · rename_i hh
    injection h with h; subst h
    exact .idle hh
  · rename_i bits a rest hh
    injection h with h; subst h
    exact .read hh
  · rename_i bits a w rest hh
    rw [stepWrite] at h
    split at h
    · rename_i hw
      split at h
      · rename_i i hd
        exact .ran hh hw hd (exec_did h)
      · rename_i e hd
        injection h with h; subst h
        exact .plainWrite hh hw hd
    · rename_i hw
      injection h with h; subst h
      exact .refusedWrite hh (Bool.eq_false_iff.2 hw)
  · rename_i after reg data rest hh
    injection h with h; subst h
    exact .overlapped hh

/-! ### Accesses -/

/-- A performed access is 32 bits wide and aligned. -/
theorem locate_some {hw bits a : Nat} {t : Target} (h : locate hw bits a = some t) :
    bits = 32 ∧ a % 4 = 0 ∧
      ((a < 0x10000 ∧ registerAt a = some t) ∨ (0x10000 ≤ a ∧ bufferAt hw a = some t)) := by
  rw [locate] at h
  split at h
  · exact absurd h (by simp)
  · rename_i hb
    rw [not_or, not_not, not_not] at hb
    refine ⟨hb.1, hb.2, ?_⟩
    split at h
    · rename_i hlt; exact .inl ⟨hlt, h⟩
    · rename_i hlt; exact .inr ⟨Nat.le_of_not_lt hlt, h⟩

/-- The shadow register at an address has that address. -/
theorem shadowAt_some {a : Nat} {r : ShadowReg} (h : shadowAt a = some r) : shadowAddr r = a := by
  have := List.find?_some h
  simpa using this

/-- A write that decodes to a command goes to CMD. -/
theorem decode_command {a : Addr} {w : Word} {i : Instr} (h : decode ⟨a, w⟩ = .ok i)
    (hs : selectorReg i = none) : a = 0x100#20 ∧ i = decodeCommand w := by
  rw [decode] at h
  split at h
  · rename_i ha
    injection h with h
    exact ⟨BitVec.eq_of_toNat_eq ha, h.symm⟩
  · exfalso
    split at h
    · injection h with h; subst h
      revert hs; unfold decodeAlgo; split <;> simp [selectorReg]
    · injection h with h; subst h
      revert hs; unfold decodeFmode; split <;> simp [selectorReg]
    · injection h with h; subst h
      revert hs; unfold decodeWave; split <;> simp [selectorReg]
    · exact absurd h (by simp)
    · exact absurd h (by simp)

end Sys2Proof.Machine
end

