-- ==== Sys2Proof/Tests/Slice0.lean ====
section
/-! SUPPORT. Tests on small states, each on one step, with the vector of spec/95_test_vectors.md it comes
from; and one witness for the hypotheses of each statement. -/

open Sys2Proof Sys2Proof.Machine

namespace Sys2Proof.Tests

/- One theorem after another: many of them at once, each on a thread of its own, take much memory. -/
set_option Elab.async false

/-! ### States -/

/-- The state a step leads to, or s itself where it stops. -/
def after (s : State) : State :=
  match step s with
  | .next t => t
  | .fault _ => s
  | .refused _ => s

/-- s with the host about to write the word to CMD. -/
def issuing (w : Word) (s : State) : State := { s with host := [.write 32 0x100#20 w] }

/-- Prepared at fs = 44000, maxBlock = 64; no register written. -/
def prepared : State :=
  { State.reset with
    ctl := { Ctl.powerOn with prepared := true, fs := .single 0x472BE000#32, maxBlock := 64#16 } }

/-- The same, latched. -/
def ready : State := { prepared with ctl := { prepared.ctl with latched := true } }

/-- Every register written with 0. -/
def allWritten : Shadow :=
  shadowRegs.foldl (fun b r => b.set r ⟨0#32, true⟩) Shadow.powerOn

/-- Prepared, every register written with 0: a LATCH would succeed. -/
def latchable : State := { prepared with shadow := allWritten }

/-- After power-on, with PREP_RATE = 44000 and PREP_MAXBLOCK = 64. -/
def preparable : State := { State.reset with prepRate := 0x472BE000#32, prepMaxBlock := 64#16 }

/-- BLOCK_OVERFLOW is recorded. -/
def faulted : State := withFault 6#8 0x00410005#32 ready

/-- An envelope at the level 0.5 in the given stage, S = 0.5, all times 0. -/
def envAt (stage : Stage) : Env := ⟨zero, zero, half, zero, stage, half, .instant⟩

/-- A voice sounding in SUSTAIN at level 0.5. -/
def soundingVoice : Voice :=
  { Voice.powerOn with
    env := ⟨envAt .sustain, envAt .sustain, envAt .sustain, envAt .sustain⟩
    vstate := .sounding }

/-- Voice 0 sounds. -/
def sounding : State := { ready with voices := [soundingVoice] }

/-- One sample, 1.0, stands in the carrier. -/
def oneSample : State :=
  { ready with ctl := { ready.ctl with pos := 1#16 }, car := ⟨[(0, one)], [(0, one)]⟩ }

/-- The same, with the vocoder enabled and IN[0][0] = 1.0 written. -/
def vocoding : State :=
  storeIn .c0 0 one32 { oneSample with snap := { oneSample.snap with vocEn := true } }

/-! ### Well-formedness and decoding -/

/-- The word of PREPARE is no illegal word (R100). -/
theorem test_wellFormed_refuses : (Instr.illegal 0x00000001#32).wellFormed = false := by decide

/-- V81. -/
theorem test_wellFormed_accepts : (Instr.illegal 0x00000011#32).wellFormed = true := by decide

/-- R97 N format: 28 reserved bits, opcode 0001. -/
theorem test_decode_prepare : decode (cmdWrite (0#28 ++ 0b0001#4)) = .ok .prepare := by decide

theorem test_decode_latch : decode (cmdWrite (0#28 ++ 0b0010#4)) = .ok .latch := by decide

/-- V80 NOTE_ON 0, 69, 100: 0[31:22], VEL = 100, NOTE = 69, VOICE = 0, opcode 0011. -/
theorem test_decode_noteOn :
    decode (cmdWrite 0b00000000001100100100010100000011#32) = .ok (.noteOn 100#7 69#7 0#4) := by decide

/-- V80 NOTE_OFF 0, 127, 1: 0[31:16], VEL = 127, TAIL = 1, VOICE = 0, opcode 0100. -/
theorem test_decode_noteOff :
    decode (cmdWrite 0b00000000000000001111111100000100#32) = .ok (.noteOff 127#7 true 0#4) := by
  decide

/-- V80 RENDER 25: COUNT = 25, 0[15:4], opcode 0101. -/
theorem test_decode_render :
    decode (cmdWrite 0b00000000000110010000000000000101#32) = .ok (.render 25#16) := by decide

theorem test_decode_flush : decode (cmdWrite (0#28 ++ 0b0110#4)) = .ok .flush := by decide

/-- R97 V format: VOICE = 9, opcode 0111. -/
theorem test_decode_filterReset :
    decode (cmdWrite (0#24 ++ 0b1001#4 ++ 0b0111#4)) = .ok (.filterReset 9#4) := by decide

/-- V81, and NOTE_ON with bit 31 set. -/
theorem test_decode_illegal :
    decode (cmdWrite 0x00000000#32) = .ok (.illegal 0x00000000#32) ∧
    decode (cmdWrite 0x00000008#32) = .ok (.illegal 0x00000008#32) ∧
    decode (cmdWrite 0x0000000F#32) = .ok (.illegal 0x0000000F#32) ∧
    decode (cmdWrite 0x00000011#32) = .ok (.illegal 0x00000011#32) ∧
    decode (cmdWrite 0x00400003#32) = .ok (.illegal 0x00400003#32) ∧
    decode (cmdWrite 0x00010004#32) = .ok (.illegal 0x00010004#32) ∧
    decode (cmdWrite 0x00000015#32) = .ok (.illegal 0x00000015#32) ∧
    decode (cmdWrite 0x00000107#32) = .ok (.illegal 0x00000107#32) ∧
    decode (cmdWrite 0x80000003#32) = .ok (.illegal 0x80000003#32) := by decide

/-- R91 at 0x040 (OSC1_WAVE), 0x060, 0x080, 0x0A0; bits above [1:0] are ignored (R90). -/
theorem test_decode_wave :
    decode ⟨0x00040#20, 0xFFFFFF00#32⟩ = .ok (.waveSine .k1) ∧
    decode ⟨0x00060#20, 0b01#32⟩ = .ok (.waveSaw .k2) ∧
    decode ⟨0x00080#20, 0b10#32⟩ = .ok (.waveSquare .k3) ∧
    decode ⟨0x000A0#20, 0b11#32⟩ = .ok (.waveTriangle .k4) := by decide

/-- R92 at 0x004. -/
theorem test_decode_fmode :
    decode ⟨0x00004#20, 0b00#32⟩ = .ok .fmodeLp ∧ decode ⟨0x00004#20, 0b01#32⟩ = .ok .fmodeBp ∧
    decode ⟨0x00004#20, 0b10#32⟩ = .ok .fmodeHp ∧
    decode ⟨0x00004#20, 0b11#32⟩ = .ok .fmodeReserved := by decide

/-- R93 at 0x000. -/
theorem test_decode_algo :
    decode ⟨0x00000#20, 0b000#32⟩ = .ok .algo0 ∧ decode ⟨0x00000#20, 0b001#32⟩ = .ok .algo1 ∧
    decode ⟨0x00000#20, 0b010#32⟩ = .ok .algo2 ∧ decode ⟨0x00000#20, 0b011#32⟩ = .ok .algo3 ∧
    decode ⟨0x00000#20, 0b100#32⟩ = .ok .algo4 ∧ decode ⟨0x00000#20, 0b101#32⟩ = .ok .algo5 ∧
    decode ⟨0x00000#20, 0b110#32⟩ = .ok .algo6 ∧ decode ⟨0x00000#20, 0b111#32⟩ = .ok .algo7 := by
  decide

/-- R61, R62: a parameter register without codes, a hole of the map, a sample buffer. -/
theorem test_decode_rejects :
    decode ⟨0x0000C#20, 0#32⟩ = .error (.plainParameter .filtCutoff) ∧
    decode ⟨0x0001C#20, 0#32⟩ = .error .notInstructionAddress ∧
    decode ⟨0x10000#20, 0#32⟩ = .error .notInstructionAddress := by decide

/-! ### Arithmetic -/

/-- The binary32 number n/d. -/
def q (n d : Nat) : Number := .single (num32 n d)

/-- V20: 6.3, -0.1, -1.0e-9 (the guard), TWO_PI, -0.0. -/
theorem test_wrap :
    wrap .binary32 (.single 0x40C9999A#32) = .single 0x3C89BF00#32 ∧
    wrap .binary32 (.single 0xBDCCCCCD#32) = .single 0x40C5DCA8#32 ∧
    wrap .binary32 (.single 0xB089705F#32) = zero ∧
    wrap .binary32 (.single 0x40C90FDB#32) = zero ∧
    wrap .binary32 (.single 0x80000000#32) = .single 0x80000000#32 := by decide +kernel

/-- R290: 1/3, -1/8, 2^128 and an infinity of another NUMERICS, as bus words. -/
theorem test_toWord :
    (Number.wide false 1 3).toWord = 0x3EAAAAAB#32 ∧ (Number.wide true 1 8).toWord = 0xBE000000#32 ∧
    (Number.wide false (2 ^ 128) 1).toWord = 0x7F800000#32 ∧
    (Number.wide true 1 0).toWord = 0xFF800000#32 := by decide +kernel

/-- V24: DCB_ALPHA at 44000 and 384000. -/
theorem test_dcbAlpha :
    dcbAlpha referenceCfg (.single 0x472BE000#32) = .single 0x3F7E89A8#32 ∧
    dcbAlpha referenceCfg (.single 0x48BB8000#32) = .single 0x3F7FD51C#32 := by decide +kernel

/-- V7: at p = 0 and p = PI; SINE and TRIANGLE at PI are open. -/
theorem test_waveforms :
    waveAt .binary32 .sine zero = zero ∧ waveAt .binary32 .saw zero = one ∧
    waveAt .binary32 .square zero = one ∧ waveAt .binary32 .triangle zero = zero ∧
    waveAt .binary32 .saw (.single 0x40490FDB#32) = zero ∧
    waveAt .binary32 .square (.single 0x40490FDB#32) = minusOne := by decide +kernel

/-- V43 and V5: resonance and cutoff clamps; base 1000, ev 0.5 gives 10500. -/
theorem test_clamps :
    Numerics.binary32.clamp half one (q 10 1) = one ∧
    Numerics.binary32.clamp (q 20 1) one (q 10 1) = q 10 1 ∧
    cutoffOf referenceCfg (q 10 1) zero = q 20 1 ∧
    cutoffOf referenceCfg (q 1000 1) half = q 10500 1 := by decide +kernel

/-- V41 HP: with zero state the first output is h, and V40's h for fc 1000, res 1 at 44000, g given. -/
theorem test_coefH : 
    coefH .binary32 (.single 0x3D9279D2#32) (coefR2 .binary32 one) = .single 0x3F6DC70C#32 := by decide +kernel

/-- V70: bands 0 and 23. -/
theorem test_bandFreq :
    bandFreq referenceCfg 0 = q 200 1 ∧ bandFreq referenceCfg 23 = q 16000 1 := by
  decide +kernel

/-- V72: 0.1 * 0.5 + 0.9 * 0.2 = 0.22999999 = 0x3E6B851E. -/
theorem test_smooth :
    smooth .binary32 (.single 0x3DCCCCCD#32) half (.single 0x3E4CCCCD#32) = .single 0x3E6B851E#32 := by
  decide +kernel

/-- An oscillator that answers its gain while its phase is below PI: a stub for V50. -/
def stub (gain : Number) : Osc := { Osc.powerOn with wave := .square, gain := gain }

/-- The result of a topology on stubs that answer 1, 2, 3, 4, and the modulation inputs they got. -/
def stubRoute (a : Algo) : Number × List Number :=
  let r := route referenceCfg (.single 0x472BE000#32) a ⟨one, one, one, one⟩
    ⟨stub one, stub two, stub three, stub (q 4 1)⟩
  (r.2, [r.1.k4.prevIn, r.1.k3.prevIn, r.1.k2.prevIn, r.1.k1.prevIn])

/-- V50, rows 0 to 3: result, then m4, m3, m2, m1. -/
theorem test_route_low :
    stubRoute .a0 = (q 1 1, [q 0 1, q 4 1, q 3 1, q 2 1]) ∧
    stubRoute .a1 = (q 1 1, [q 0 1, q 0 1, q 7 1, q 2 1]) ∧
    stubRoute .a2 = (q 1 1, [q 0 1, q 4 1, q 4 1, q 5 1]) ∧
    stubRoute .a3 = (q 3 2, [q 0 1, q 4 1, q 3 1, q 3 1]) := by decide +kernel

/-- V50, rows 4 to 7. -/
theorem test_route_high :
    stubRoute .a4 = (q 1 1, [q 0 1, q 0 1, q 0 1, q 9 1]) ∧
    stubRoute .a5 = (q 2 1, [q 0 1, q 4 1, q 4 1, q 4 1]) ∧
    stubRoute .a6 = (q 3 2, [q 0 1, q 0 1, q 7 1, q 7 1]) ∧
    stubRoute .a7 = (q 5 2, [q 0 1, q 0 1, q 0 1, q 0 1]) := by decide +kernel

/-- The levels of n samples of an envelope at fs = 65536. -/
def levels : Nat → Env → List Number
  | 0, _ => []
  | n + 1, e =>
    (envNext .binary32 (q 65536 1) e).level :: levels n (envNext .binary32 (q 65536 1) e)

/-- V30 at fs = 65536: A = D = R = 4/fs = 2^-14, S = 0.5; note-on, then 10 samples. -/
theorem test_envelope_attack :
    levels 10 (envNoteOn .binary32 (q 65536 1) ⟨q 1 16384, q 1 16384, q 1 2, q 1 16384, .idle, zero,
      .step zero⟩)
      = [q 1 4, q 1 2, q 3 4, q 1 1, q 7 8, q 3 4, q 5 8, q 1 2, q 1 2, q 1 2] := by
  decide +kernel

/-- V30: note-off at 0.5, then 5 samples. -/
theorem test_envelope_release :
    levels 5 (envNoteOff .binary32 (q 65536 1) ⟨zero, zero, q 1 2, q 1 16384, .sustain, q 1 2, .instant⟩)
      = [q 3 8, q 1 4, q 1 8, zero, zero] := by decide +kernel

/-! ### Instructions, one step each -/

/-- R270's example: BOOT 44000.0, 64 leaves STATUS = 0x00000002. -/
theorem test_prepare_status : statusWord (after (issuing 0x00000001#32 preparable)) = 0x00000002#32 := by
  decide +kernel

/-- V90: PREP_RATE = 40000.0. -/
theorem test_prepare_refuses :
    (after (issuing 0x00000001#32 { prepared with prepRate := 0x471C4000#32, prepMaxBlock := 64#16 })).ctl
      = { prepared.ctl with faulted := true, faultCode := 7#8, faultInfo := 0x00000001#32 } := by
  decide +kernel

/-- V84: OSC1_COARSE 0.25 latches 0.5, ENV1_DECAY_MS 0 latches 0.001 s, VOC_SMOOTH 0.9 latches 0.5; 0 dB
latches 1.0 (R274), FILT_CUTOFF 0 latches 20 (R33). -/
theorem test_latch_clamps :
    (fun p : Snapshot => (p.osc.k1.coarse, p.env.k1.d, p.vocSmooth, p.env.k1.s, p.filtCutoff))
      (after (issuing 0x00000002#32 { latchable with
        shadow := (allWritten.store (.osc .k1 .coarse) 0x3E800000#32).store .vocSmooth 0x3F666666#32 })).snap
      = (half, .single 0x3A83126F#32, half, one, q 20 1) := by decide +kernel

/-- V90: no register written; STATUS = 0x00000003. -/
theorem test_latch_refuses :
    (after (issuing 0x00000002#32 prepared)).ctl
      = { prepared.ctl with faulted := true, faultCode := 3#8, faultInfo := 0#32 } := by decide +kernel

/-- R278's example: MON_FREQ reads 440 Hz, and the voice sounds. -/
theorem test_noteOn :
    (fun s : State => (s.ctl.monFreq, s.voices.map (·.vstate)))
      (after (issuing 0x00324503#32 ready)) = (q 440 1, [.sounding]) := by decide +kernel

/-- V90: BAD_VOICE comes before NOT_LATCHED. -/
theorem test_noteOn_badVoice :
    (after (issuing 0x00004513#32 prepared)).ctl
      = { prepared.ctl with faulted := true, faultCode := 5#8, faultInfo := 0x00004513#32 } := by
  decide +kernel

/-- V60: SOUNDING, NOTE_OFF with a tail. -/
theorem test_noteOff_tail :
    (after (issuing 0x00000104#32 sounding)).voices.map (fun v => (v.vstate, v.env.k1.stage, v.env.k1.level))
      = [(.releasing, .release, half)] := by decide +kernel

/-- V60: SOUNDING, NOTE_OFF without a tail. -/
theorem test_noteOff_kill :
    (after (issuing 0x00000004#32 sounding)).voices.map (fun v => (v.vstate, v.env.k1.stage, v.env.k1.level))
      = [(.idle, .release, half)] := by decide +kernel

/-- R282's example: pos 25, RENDER 40 of a block of 64. -/
theorem test_render_overflow :
    (after (issuing 0x00280005#32 { ready with ctl := { ready.ctl with pos := 25#16 } })).ctl
      = { ready.ctl with pos := 25#16, faulted := true, faultCode := 6#8, faultInfo := 0x00280005#32 } := by
  decide +kernel

/-- R230 to R232: a released voice with R = 0 becomes IDLE on its next sample, and pos advances. -/
theorem test_render_tail :
    (fun s : State => (s.ctl.pos, s.voices.map (·.vstate)))
      (after (issuing 0x00010005#32 { ready with voices := [{ soundingVoice with
        env := ⟨envAt .release, envAt .release, envAt .release, envAt .release⟩
        vstate := .releasing }] })) = (1#16, [.idle]) := by decide +kernel

/-- R286 to R288: the carrier is copied to OUT and MON and cleared. -/
theorem test_flush_copies :
    (fun s : State => (s.ctl.pos, s.ctl.monLen, s.car)) (after (issuing 0x00000006#32 oneSample))
      = (0#16, 1#16, ⟨[], []⟩) ∧
    (fun s : State => (readWord s.mem 0x30000, readWord s.mem 0x40000, readWord s.mem 0x50000))
      (after (issuing 0x00000006#32 oneSample)) = (one32, one32, one32) := by decide +kernel

/-- V90: VOC_EN 1, pos 1, IN0[0] not written. -/
theorem test_flush_inputUninit :
    (fun c : Ctl => (c.faultCode, c.faultInfo, c.pos))
      (after (issuing 0x00000006#32
        { oneSample with snap := { oneSample.snap with vocEn := true } })).ctl
      = (9#8, 0x00010000#32, 1#16) := by decide +kernel

/-- V44: the integrators are 0, the coefficients kept. -/
theorem test_filterReset :
    (after (issuing 0x00000007#32 { ready with voices :=
      [{ Voice.powerOn with filt := ⟨.hp, one, one, one, one, one, one, one⟩ }] })).voices.map (·.filt)
      = [⟨.hp, one, one, one, one, one, zero, zero⟩] := by decide +kernel

/-- R302: while faulted a command is ignored. -/
theorem test_faulted_ignores : after (issuing 0x00000007#32 faulted) = { faulted with host := [] } := by
  decide +kernel

/-- V81: opcode 8. -/
theorem test_illegal :
    (fun c : Ctl => (c.faulted, c.faultCode, c.faultInfo)) (after (issuing 0x00000008#32 ready)).ctl
      = (true, 1#8, 0x00000008#32) := by decide +kernel

/-- R91: the WAVE codes, each at its oscillator. -/
theorem test_wave_codes :
    (fun b : Shadow => (b.osc.k1.wave.value, b.osc.k2.wave.value, b.osc.k3.wave.value, b.osc.k4.wave.value))
      (after (after (after (after { ready with host :=
        [.write 32 0x040#20 0#32, .write 32 0x060#20 1#32, .write 32 0x080#20 2#32,
         .write 32 0x0A0#20 3#32] })))).shadow = (0#32, 1#32, 2#32, 3#32) := by decide +kernel

/-- R92: HP is stored; code 3 is stored as 0. -/
theorem test_fmode_codes :
    (after { ready with host := [.write 32 0x004#20 2#32] }).shadow.filtMode = ⟨2#32, true⟩ ∧
    (after { ready with host := [.write 32 0x004#20 3#32] }).shadow.filtMode = ⟨0#32, true⟩ ∧
    (after { ready with host := [.write 32 0x004#20 1#32] }).shadow.filtMode = ⟨1#32, true⟩ ∧
    (after { ready with host := [.write 32 0x004#20 4#32] }).shadow.filtMode = ⟨0#32, true⟩ := by
  decide +kernel

/-- R93, R90: the ALGO codes, bits above [2:0] dropped. -/
theorem test_algo_codes :
    (after { ready with host := [.write 32 0x000#20 0xFFFFFFF8#32] }).shadow.algo = ⟨0#32, true⟩ ∧
    (after { ready with host := [.write 32 0x000#20 0xFFFFFFF9#32] }).shadow.algo = ⟨1#32, true⟩ ∧
    (after { ready with host := [.write 32 0x000#20 0xFFFFFFFA#32] }).shadow.algo = ⟨2#32, true⟩ ∧
    (after { ready with host := [.write 32 0x000#20 0xFFFFFFFB#32] }).shadow.algo = ⟨3#32, true⟩ ∧
    (after { ready with host := [.write 32 0x000#20 0xFFFFFFFC#32] }).shadow.algo = ⟨4#32, true⟩ ∧
    (after { ready with host := [.write 32 0x000#20 0xFFFFFFFD#32] }).shadow.algo = ⟨5#32, true⟩ ∧
    (after { ready with host := [.write 32 0x000#20 0xFFFFFFFE#32] }).shadow.algo = ⟨6#32, true⟩ ∧
    (after { ready with host := [.write 32 0x000#20 0xFFFFFFFF#32] }).shadow.algo = ⟨7#32, true⟩ := by
  decide +kernel

/-- The word of the opcode table is the first instruction after reset: V90, LATCH after power-on. -/
theorem test_withFetchWord :
    (fun c : Ctl => (c.faultCode, c.faultInfo)) (after (State.reset.withFetchWord 32 2)).ctl
      = (2#8, 0x00000002#32) := by decide +kernel

/-! ### Bus accesses -/

/-- V90: a read of 0x00001C, a write to STATUS, and a 16-bit read. -/
theorem test_busError :
    (fun c : Ctl => (c.faultCode, c.faultInfo)) (after { ready with host := [.read 32 0x0001C#20] }).ctl
      = (10#8, 0x0000001C#32) ∧
    (fun c : Ctl => (c.faultCode, c.faultInfo))
      (after { ready with host := [.write 32 0x0010C#20 0#32] }).ctl = (10#8, 0x0000010C#32) ∧
    (fun c : Ctl => (c.faultCode, c.faultInfo)) (after { ready with host := [.read 16 0x00000#20] }).ctl
      = (10#8, 0#32) := by decide +kernel

/-- R66, R65: STATUS, CFG_NUM_VOICES and CFG_MAX_BLOCK of a reference block with pos = 1. -/
theorem test_status_reads :
    (after { oneSample with host := [.read 32 0x10C#20] }).rdata = 0x00010006#32 ∧
    (after { oneSample with host := [.read 32 0x124#20] }).rdata = 1#32 ∧
    (after { oneSample with host := [.read 32 0x128#20] }).rdata = 4096#32 := by decide +kernel

/-- R276, R341: a write that overlaps a LATCH waits for it, lands before that register's read, and a later
LATCH can be overlapped too. -/
theorem test_overlap :
    (fun s : State => (s.snap.algo, s.shadow.algo.value, s.ctrl))
      (after (after (after (after { latchable with host :=
        [.overlap 0 .algo 3#32, .write 32 0x100#20 2#32, .overlap 1 .algo 5#32,
         .write 32 0x100#20 2#32] })))) = (.a3, 5#32, []) := by decide +kernel

/-- R9: PREPARE sets up VOC_BANDS bands. -/
theorem test_vocBands :
    (after (issuing 0x00000001#32
      { preparable with cfg := { referenceCfg with vocBands := 2 } })).bands.map (·.fc)
      = [q 200 1, q 16000 1] := by decide +kernel

/-- R68: IN[0][0] is stored little-endian, and reads back. -/
theorem test_input_write :
    (fun s : State => (readByte s.mem 0x10000, readByte s.mem 0x10003, s.inW.c0, (after s).rdata))
      (after { ready with host := [.write 32 0x10000#20 0x11223344#32, .read 32 0x10000#20] })
      = (0x44#8, 0x11#8, [(0, true)], 0x11223344#32) := by decide +kernel

/-! ### Witnesses: for each statement with hypotheses, states and operands that meet them all -/

/-- The state an instruction leads to, or s itself where it stops. -/
def did (i : Instr) (s : State) : State :=
  match exec i s with
  | .next t => t
  | .fault _ => s
  | .refused _ => s

theorem exec_did (i : Instr) (s : State) : exec i s = .next (did i s) := by
  cases i <;> rfl

theorem step_after (s : State) : step s = .next (after s) := by
  cases h : step s with
  | next t => simp [after, h]
  | fault f => cases f
  | refused r =>
    exfalso
    rw [step] at h
    split at h
    · cases h
    · cases h
    · rw [stepWrite] at h
      split at h
      · split at h
        · rw [exec_did] at h; cases h
        · cases h
      · cases h
    · cases h

/-- Ready to be reset: `ready`, faulted, with accepted PREP registers. -/
def reprepare : State := { faulted with prepRate := 0x48BB8000#32, prepMaxBlock := 4096#16 }

theorem prepared_inv : prepared.Inv := by
  refine ⟨by decide, by decide, by decide,
    ⟨by decide, by decide, by decide +kernel, by decide, by decide, by decide⟩, ?_, by decide,
    fun c => by cases c <;> rfl, fun c => by cases c <;> rfl, fun c n _ => by cases c <;> rfl,
    by decide, by decide⟩
  intro v hv
  simp only [prepared, State.reset, List.mem_singleton] at hv
  subst hv
  have he : EnvOk .binary32 false Env.powerOn := ⟨by decide, by decide, by decide, by decide, by decide⟩
  exact ⟨fun _ k => by cases k <;> decide, fun k => by cases k <;> exact he, he, by decide, by decide⟩

theorem oneSample_inv : oneSample.Inv := by
  refine ⟨by decide, by decide, by decide,
    ⟨by decide, by decide, by decide +kernel, by decide, by decide, by decide⟩, ?_, by decide,
    fun c => by cases c <;> rfl, fun c => by cases c <;> rfl, fun c n hn => ?_, by decide, by decide⟩
  · intro v hv
    simp only [oneSample, ready, prepared, State.reset, List.mem_singleton] at hv
    subst hv
    have he : EnvOk .binary32 true Env.powerOn := ⟨by decide, by decide, by decide, by decide, by decide⟩
    exact ⟨fun _ k => by cases k <;> decide, fun k => by cases k <;> exact he, he, by decide, by decide⟩
  · have hn' : 1 ≤ n := hn
    have h0 : (0 : Nat) ≠ n := by omega
    cases c <;>
      (show sparseGet zero [(0, one)] n = zero; rw [sparseGet, if_neg h0]; rfl)

theorem vocoding_inv : vocoding.Inv := by
  refine ⟨oneSample_inv.1, oneSample_inv.2, oneSample_inv.3, oneSample_inv.4, oneSample_inv.5,
    by decide +kernel, fun c => by cases c <;> decide, oneSample_inv.8, oneSample_inv.9,
    oneSample_inv.10, oneSample_inv.11⟩

theorem sounding_inv : sounding.Inv := by
  refine ⟨by decide, by decide, by decide,
    ⟨by decide, by decide, by decide +kernel, by decide, by decide, by decide⟩, ?_, by decide,
    fun c => by cases c <;> rfl, fun c => by cases c <;> rfl, fun c n _ => by cases c <;> rfl,
    by decide, by decide⟩
  intro v hv
  simp only [sounding, List.mem_singleton] at hv
  subst hv
  have he : EnvOk .binary32 true (envAt .sustain) := ⟨by decide, by decide, by decide, by decide, by decide⟩
  have hf : EnvOk .binary32 true Env.powerOn := ⟨by decide, by decide, by decide, by decide, by decide⟩
  exact ⟨fun _ k => by cases k <;> decide, fun k => by cases k <;> exact he, hf, by decide, by decide⟩

theorem inv_of_host {s : State} (h : s.Inv) (l : List Access) : State.Inv { s with host := l } :=
  ⟨h.1, h.2, h.3, h.4, h.5, h.6, h.7, h.8, h.9, h.10, h.11⟩

theorem ready_ready : ready.Ready := ⟨rfl, rfl, rfl⟩

theorem latchable_latchReady : latchable.LatchReady := by
  refine ⟨rfl, rfl, rfl, fun r => ?_, fun r _ => ?_⟩
  · cases r with
    | osc k r => cases k <;> cases r <;> decide
    | _ => decide
  · cases r with
    | osc k r => cases k <;> cases r <;> decide
    | _ => decide

theorem test_witness_DecodeEncodeRoundTrip :
    (Instr.illegal 0xFFFFFFFF#32).wellFormed = true ∧
    (Instr.noteOn 127#7 127#7 15#4).wellFormed = true := by decide

/-- Reserved words and, beside each, a word at the edge of its format that is not reserved. -/
theorem test_witness_ReservedWordsRaiseIllegalCommand :
    State.reset.ctl.faulted = false ∧
    ReservedWord 0x00000000#32 ∧ ReservedWord 0x00000008#32 ∧ ReservedWord 0x00000011#32 ∧
    ReservedWord 0x00400003#32 ∧ ReservedWord 0x00010004#32 ∧ ReservedWord 0x00000015#32 ∧
    ReservedWord 0x00000107#32 ∧ ¬ReservedWord 0x003FFFF3#32 ∧ ¬ReservedWord 0x0000FFF4#32 ∧
    ¬ReservedWord 0xFFFF0005#32 ∧ ¬ReservedWord 0x000000F7#32 := by
  refine ⟨rfl, ?_, ?_, ?_, ?_, ?_, ?_, ?_, ?_, ?_, ?_, ?_⟩ <;> (unfold ReservedWord; decide +kernel)

theorem test_witness_StepRunsDecodedInstruction :
    (issuing 0x00000001#32 ready).host = .write 32 0x100#20 0x00000001#32 :: [] ∧
    decode ⟨0x100#20, 0x00000001#32⟩ = .ok .prepare := by decide

theorem test_witness_StepKeepsTheMachineInvariant :
    (issuing 0x00000006#32 oneSample).Inv ∧
    step (issuing 0x00000006#32 oneSample) = .next (after (issuing 0x00000006#32 oneSample)) :=
  ⟨inv_of_host oneSample_inv _, step_after _⟩

theorem test_witness_ConfigurationNeverChanges :
    step (issuing 0x00000001#32 preparable) = .next (after (issuing 0x00000001#32 preparable)) ∧
    (after (issuing 0x00000001#32 preparable)).ctl.fs ≠ preparable.ctl.fs :=
  ⟨step_after _, by decide +kernel⟩

/-- The five clauses: prepared set, latched set, latched cleared, faulted cleared; prepared stays. -/
theorem test_witness_StatusFlagsChangeOnlyAsTabled :
    (∀ s : State, step s = .next (after s)) ∧
    (preparable.ctl.prepared = false ∧
      (after (issuing 0x00000001#32 preparable)).ctl.prepared = true) ∧
    (latchable.ctl.latched = false ∧
      (after (issuing 0x00000002#32 latchable)).ctl.latched = true) ∧
    (reprepare.ctl.latched = true ∧ reprepare.ctl.faulted = true ∧ reprepare.ctl.prepared = true ∧
      (after (issuing 0x00000001#32 reprepare)).ctl.latched = false ∧
      (after (issuing 0x00000001#32 reprepare)).ctl.faulted = false) :=
  ⟨step_after, by decide +kernel, by decide +kernel, by decide +kernel⟩

/-- A voice started, released, killed, silenced by PREPARE, and ended by its envelope. -/
theorem test_witness_VoicesChangeStateOnlyAsTabled :
    (∀ s : State, step s = .next (after s)) ∧
    (ready.voices.map (·.vstate) = [.idle] ∧
      (after (issuing 0x00324503#32 ready)).voices.map (·.vstate) = [.sounding]) ∧
    (sounding.voices.map (·.vstate) = [.sounding] ∧
      (after (issuing 0x00000104#32 sounding)).voices.map (·.vstate) = [.releasing] ∧
      (after (issuing 0x00000004#32 sounding)).voices.map (·.vstate) = [.idle] ∧
      (after (issuing 0x00000001#32 { sounding with
        prepRate := 0x472BE000#32, prepMaxBlock := 1#16 })).voices.map (·.vstate) = [.idle]) :=
  ⟨step_after, by decide +kernel, by decide +kernel⟩

/-- A step issuing one word issues no other. -/
theorem not_issues {w v : Word} (s : State) (h : w ≠ v) : ¬issues (issuing w s) v := by
  rintro ⟨rest, e⟩
  injection e with e _
  injection e with _ _ e
  exact h e

/-- A RENDER, a LATCH and a FILTER_RESET of the idle voice. -/
theorem test_witness_IdleVoiceIsFrozen :
    (∀ s : State, step s = .next (after s)) ∧
    ready.voices.map (·.vstate) = [.idle] ∧ latchable.voices.map (·.vstate) = [.idle] ∧
    (after (issuing 0x00010005#32 ready)).voices.map (·.vstate) = [.idle] ∧
    (after (issuing 0x00000002#32 latchable)).voices.map (·.vstate) = [.idle] ∧
    (after (issuing 0x00000007#32 ready)).voices.map (·.vstate) = [.idle] ∧
    (after (issuing 0x00000007#32 ready)).ctl.faulted = false ∧
    (after (issuing 0x00000002#32 latchable)).ctl.faulted = false ∧
    ¬issues (issuing 0x00010005#32 ready) 0x00000001#32 ∧
    ¬issues (issuing 0x00010005#32 ready) 0x00000002#32 ∧
    ¬issues (issuing 0x00000002#32 latchable) 0x00000001#32 ∧
    ¬issues (issuing 0x00000007#32 ready) 0x00000001#32 :=
  ⟨step_after, by decide +kernel, by decide +kernel, by decide +kernel, by decide +kernel,
    by decide +kernel, by decide +kernel, by decide +kernel, not_issues _ (by decide),
    not_issues _ (by decide), not_issues _ (by decide), not_issues _ (by decide)⟩

/-- A FLUSH, and a write to the last IN element. -/
theorem test_witness_OnlyFlushAndHostWritesStore :
    (issuing 0x00000006#32 oneSample).Inv ∧ (∀ s : State, step s = .next (after s)) ∧
    readByte (after (issuing 0x00000006#32 oneSample)).mem 0x30003 ≠ readByte oneSample.mem 0x30003 ∧
    readByte (after { ready with host := [.write 32 0x23FFC#20 5#32] }).mem 0x23FFC
      ≠ readByte ready.mem 0x23FFC :=
  ⟨inv_of_host oneSample_inv _, step_after, by decide +kernel, by decide +kernel⟩

theorem test_witness_MonitorMirrorsOutputZero :
    (issuing 0x00000006#32 oneSample).Inv ∧ (∀ s : State, step s = .next (after s)) ∧
    (∀ n, n < (issuing 0x00000006#32 oneSample).ctl.monLen.toNat →
      readWord oneSample.mem (0x50000 + 4 * n) = readWord oneSample.mem (0x30000 + 4 * n)) ∧
    (after (issuing 0x00000006#32 oneSample)).ctl.monLen = 1#16 :=
  ⟨inv_of_host oneSample_inv _, step_after, fun n h => absurd h (Nat.not_lt_zero n),
    by decide +kernel⟩

theorem test_witness_StereoStaysEqual :
    StereoEqual (issuing 0x00000006#32 vocoding) ∧
    step (issuing 0x00000006#32 vocoding) = .next (after (issuing 0x00000006#32 vocoding)) := by
  refine ⟨⟨rfl, fun b hb => ?_⟩, step_after _⟩
  rw [(List.mem_replicate.1 hb).2]; rfl

/-- `vocoding`, and the same with another IN[1][0]. -/
theorem test_witness_InputOneIsNeverRead :
    vocoding.Inv ∧ (storeIn .c1 0 one32 vocoding).Inv ∧
    EqualOffIn1 vocoding (storeIn .c1 0 one32 vocoding) ∧
    exec .flush vocoding = .next (did .flush vocoding) := by
  refine ⟨vocoding_inv, ⟨vocoding_inv.1, vocoding_inv.2, vocoding_inv.3, vocoding_inv.4,
    vocoding_inv.5, by decide +kernel, fun c => by cases c <;> decide, vocoding_inv.8,
    vocoding_inv.9, vocoding_inv.10, vocoding_inv.11⟩, ⟨rfl, fun a ha => ?_⟩, exec_did _ _⟩
  show readByte (writeWord vocoding.mem 0x20000 one32) a = _
  rw [readByte_writeWord vocoding_inv.mem, if_neg (by omega)]

/-- The last status register, the first IN element, and the last one. -/
theorem test_witness_PowerOnRegistersReadZero :
    Mapped 4096 (0x120#20).toNat ∧ Mapped 4096 (0x10000#20).toNat ∧
    Mapped 4096 (0x23FFC#20).toNat ∧ (∀ s : State, step s = .next (after s)) := by
  refine ⟨?_, ?_, ?_, step_after⟩ <;> (unfold Mapped; decide)

theorem test_witness_FaultedCommandsAreIgnored :
    faulted.ctl.faulted = true ∧ selectorReg .flush = none ∧ Instr.flush ≠ .prepare ∧
    selectorReg (.illegal 0#32) = none ∧ Instr.illegal 0#32 ≠ .prepare := by decide

theorem test_witness_CommandsBeforePrepareRaiseNotPrepared :
    State.reset.ctl.faulted = false ∧ State.reset.ctl.prepared = false ∧
    selectorReg .latch = none ∧ Instr.latch ≠ .prepare ∧ ∀ w, Instr.latch ≠ .illegal w :=
  ⟨rfl, rfl, rfl, by decide, fun _ h => by cases h⟩

/-- VOICE = NUM_VOICES, and VOICE = NUM_VOICES - 1 while not latched. -/
theorem test_witness_VoiceCommandsCheckVoiceThenLatch :
    prepared.ctl.faulted = false ∧ prepared.ctl.prepared = true ∧
    prepared.voices.length ≤ (1#4).toNat ∧
    (0#4).toNat < prepared.voices.length ∧ prepared.ctl.latched = false := by decide

/-- Not latched; a COUNT one beyond the block; and an unwritten IN[0][0] of a vocoded block. -/
theorem test_witness_BlockCommandsCheckInOrder :
    (prepared.ctl.faulted = false ∧ prepared.ctl.prepared = true ∧ prepared.ctl.latched = false) ∧
    (ready.ctl.faulted = false ∧ ready.ctl.prepared = true ∧ ready.ctl.latched = true ∧
      ready.ctl.maxBlock.toNat < ready.ctl.pos.toNat + (65#16).toNat) ∧
    ∀ s : State, s = { oneSample with snap := { oneSample.snap with vocEn := true } } →
      s.ctl.faulted = false ∧ s.ctl.prepared = true ∧ s.ctl.latched = true ∧ s.snap.vocEn = true ∧
      0 < s.ctl.pos.toNat ∧ inWritten s .c0 0 = false ∧ ∀ m, m < 0 → inWritten s .c0 m = true := by
  refine ⟨by decide, by decide, ?_⟩
  rintro s rfl
  exact ⟨rfl, rfl, rfl, rfl, by decide, rfl, fun m h => absurd h (Nat.not_lt_zero m)⟩

/-- Only the last register unwritten; and FILT_CUTOFF an infinity, the first binary32 register. -/
theorem test_witness_LatchRefusesTheLowestBadRegister :
    (∀ s : State, s = { latchable with
        shadow := allWritten.set (.osc .k4 .releaseMs) ⟨0#32, false⟩ } →
      s.ctl.faulted = false ∧ s.ctl.prepared = true ∧ s.ctrl = [] ∧
      (s.shadow.get (.osc .k4 .releaseMs)).written = false ∧
      ∀ q, shadowAddr q < shadowAddr (.osc .k4 .releaseMs) → (s.shadow.get q).written = true) ∧
    (∀ s : State, s = { latchable with shadow := allWritten.store .filtCutoff 0x7F800000#32 } →
      s.ctl.faulted = false ∧ s.ctl.prepared = true ∧ s.ctrl = [] ∧
      (∀ q, (s.shadow.get q).written = true) ∧ regKind .filtCutoff = .binary32 ∧
      isFinite (s.shadow.get .filtCutoff).value = false ∧
      ∀ q, shadowAddr q < shadowAddr .filtCutoff → regKind q = .binary32 →
        isFinite (s.shadow.get q).value = true) := by
  refine ⟨?_, ?_⟩
  · rintro s rfl
    refine ⟨rfl, rfl, rfl, by decide, fun q => ?_⟩
    cases q with
    | osc k r => cases k <;> cases r <;> decide
    | _ => decide
  · rintro s rfl
    refine ⟨rfl, rfl, rfl, fun q => ?_, rfl, by decide, fun q => ?_⟩ <;>
    · cases q with
      | osc k r => cases k <;> cases r <;> decide
      | _ => decide

theorem test_witness_FaultingCommandsHaveNoOtherEffect :
    exec (.render 65#16) ready = .next (did (.render 65#16) ready) ∧ ready.ctl.faulted = false ∧
    (did (.render 65#16) ready).ctl.faulted = true ∧ Instr.render 65#16 ≠ .latch :=
  ⟨exec_did _ _, rfl, by decide +kernel, by decide⟩

/-- A refused PREPARE keeps the fault; an accepted one, at FS_MAX and the longest block, ends it. -/
theorem test_witness_FaultRecordStaysUntilASuccessfulPrepare :
    (∀ s : State, step s = .next (after s)) ∧ faulted.ctl.faulted = true ∧
    (after (issuing 0x00000001#32 faulted)).ctl.faulted = true ∧ reprepare.ctl.faulted = true ∧
    (after (issuing 0x00000001#32 reprepare)).ctl.faulted = false :=
  ⟨step_after, rfl, by decide +kernel, rfl, by decide +kernel⟩

/-- Accepted: 384000 Hz and 4096, the least number above 40000 Hz and 1. Refused: 40000 Hz, the next
above 384000, the blocks 0 and 4097, and NaN. -/
theorem test_witness_PrepareResetsTheBlock :
    prepareOk reprepare = true ∧
    prepareOk { ready with prepRate := 0x471C4001#32, prepMaxBlock := 1#16 } = true ∧
    prepareOk { ready with prepRate := 0x471C4000#32, prepMaxBlock := 1#16 } = false ∧
    prepareOk { ready with prepRate := 0x48BB8001#32, prepMaxBlock := 1#16 } = false ∧
    prepareOk { ready with prepRate := 0x48BB8000#32, prepMaxBlock := 0#16 } = false ∧
    prepareOk { ready with prepRate := 0x48BB8000#32, prepMaxBlock := 4097#16 } = false ∧
    isNaN { ready with prepRate := 0x7FC00000#32 }.prepRate = true := by decide +kernel

theorem test_witness_BandFiltersSitAtTheirFrequencies :
    preparable.cfg = referenceCfg ∧ exec .prepare preparable = .next (did .prepare preparable) ∧
    (did .prepare preparable).ctl.faulted = false ∧
    (did .prepare preparable).bands[0]?.isSome = true ∧
    (did .prepare preparable).bands[23]?.isSome = true :=
  ⟨rfl, exec_did _ _, by decide +kernel, by decide +kernel, by decide +kernel⟩

theorem test_witness_LatchTakesTheSnapshot :
    latchable.LatchReady ∧ Numerics.binary32 = latchable.cfg.numerics := ⟨latchable_latchReady, rfl⟩

theorem test_witness_LatchUpdatesEveryVoice :
    latchable.LatchReady ∧ latchable.voices[0]? = some .powerOn := ⟨latchable_latchReady, rfl⟩

theorem test_witness_SnapshotStaysInRange :
    latchable.LatchReady ∧ latchable.cfg.numerics = .binary32 ∧
    exec .latch latchable = .next (did .latch latchable) := ⟨latchable_latchReady, rfl, exec_did _ _⟩

theorem test_witness_SelectorsReachTheDatapathAtLatch :
    latchable.LatchReady ∧ Instr.waveSaw .k2 = .waveSaw .k2 ∧ Instr.fmodeReserved = .fmodeReserved ∧
    Instr.algo7 = .algo7 := ⟨latchable_latchReady, rfl, rfl, rfl⟩

/-- A script with an overlapping write; a write before the first read and one after the last; the same with
a register unwritten, and with one overwritten by an infinity before its read. -/
theorem test_witness_LatchReadsEachRegisterOnce :
    (∀ s : State, s = { ready with host := [.overlap 0 .algo 3#32] } →
      s.host = .overlap 0 .algo 3#32 :: []) ∧
    prepared.ctl.faulted = false ∧ prepared.ctl.prepared = true ∧
    [CtrlWrite.mk 0 .algo 3#32, CtrlWrite.mk 43 .algo 5#32].Pairwise
      (fun x y => x.after ≤ y.after) ∧
    (did .latch { latchable with
      ctrl := [⟨0, .algo, 3#32⟩, ⟨43, .algo, 5#32⟩] }).ctl.faulted = false ∧
    latchable.voices[0]? = some .powerOn ∧
    (did .latch { prepared with ctrl := [⟨0, .algo, 3#32⟩, ⟨43, .algo, 5#32⟩] }).ctl.faultCode = 3#8 ∧
    (did .latch { latchable with ctrl := [⟨3, .filtCutoff, 0x7F800000#32⟩] }).ctl.faultCode = 4#8 :=
  ⟨fun s h => by subst h; rfl, rfl, rfl, by decide, by decide +kernel, rfl, by decide +kernel,
    by decide +kernel⟩

/-- One row of each register, FMODE code 3 among them. -/
theorem test_witness_SelectorRowsStoreTheirCode :
    (ShadowReg.osc .k4 .wave = .osc .k4 .wave ∧ Instr.waveTriangle .k4 = .waveTriangle .k4 ∧
      3#32 = (3#32 : Word)) ∧
    (ShadowReg.filtMode = .filtMode ∧ Instr.fmodeReserved = .fmodeReserved ∧ 0#32 = (0#32 : Word)) ∧
    (ShadowReg.algo = .algo ∧ Instr.algo7 = .algo7 ∧ 7#32 = (7#32 : Word)) := by decide

/-- FILT_MODE code 3, at a state that is faulted. -/
theorem test_witness_ShadowRegistersReadBack :
    ∀ s : State, s = { faulted with host := [.write 32 0x004#20 3#32, .read 32 0x004#20] } →
      s.host = .write 32 (BitVec.ofNat 20 (shadowAddr .filtMode)) 3#32 ::
        .read 32 (BitVec.ofNat 20 (shadowAddr .filtMode)) :: [] := by
  rintro s rfl; rfl

/-- NOTE 69 of voice 0, and the last VOICE of sixteen. -/
theorem test_witness_NoteOnStartsTheVoice :
    ready.Ready ∧ Numerics.binary32 = ready.cfg.numerics ∧
    ready.voices[(0#4).toNat]? = some .powerOn ∧
    ({ ready with voices := List.replicate 16 Voice.powerOn } : State).voices[(15#4).toNat]?
      = some .powerOn ∧
    ∃ f, f = Numerics.binary32.mul ready.cfg.a4Freq
      (Numerics.binary32.exp2 (Numerics.binary32.div
        (Numerics.binary32.sub (.single (num32 (69#7).toNat 1)) ready.cfg.a4Note)
        (.single 0x41400000#32))) :=
  ⟨ready_ready, rfl, rfl, rfl, _, rfl⟩

/-- An idle voice, and one that sounds. -/
theorem test_witness_NoteOffReleasesTheVoice :
    (ready.Ready ∧ Numerics.binary32 = ready.cfg.numerics ∧
      ready.voices[(0#4).toNat]? = some .powerOn ∧ Voice.powerOn.vstate = .idle) ∧
    (sounding.Ready ∧ Numerics.binary32 = sounding.cfg.numerics ∧ sounding.voices[(0#4).toNat]? = some soundingVoice ∧
      soundingVoice.vstate ≠ .idle) :=
  ⟨⟨ready_ready, rfl, rfl, rfl⟩, ⟨rfl, rfl, rfl⟩, rfl, rfl, by decide⟩

theorem test_witness_FilterResetClearsTheIntegrators :
    sounding.Ready ∧ sounding.voices[(0#4).toNat]? = some soundingVoice := ⟨⟨rfl, rfl, rfl⟩, rfl⟩

/-- A block that is filled exactly, COUNT = 0, and every voice idle. -/
theorem test_witness_RenderAdvancesTheBlock :
    oneSample.Ready ∧ oneSample.Inv ∧
    oneSample.ctl.pos.toNat + (63#16).toNat ≤ oneSample.ctl.maxBlock.toNat ∧
    oneSample.ctl.pos.toNat + (0#16).toNat ≤ oneSample.ctl.maxBlock.toNat ∧
    ∀ v ∈ oneSample.voices, v.vstate = .idle :=
  ⟨⟨rfl, rfl, rfl⟩, oneSample_inv, by decide, by decide, by decide⟩

theorem test_witness_RenderMixesTheActiveVoices :
    sounding.Ready ∧ sounding.Inv ∧ sounding.ctl.pos.toNat < sounding.ctl.maxBlock.toNat :=
  ⟨⟨rfl, rfl, rfl⟩, sounding_inv, by decide⟩

/-- The values the hypotheses of VoiceSampleFollowsItsSteps name exist, the filter enabled. -/
theorem test_witness_VoiceSampleFollowsItsSteps :
    ∃ (p : Snapshot) (v : Voice) (e : Four Number) (ef fs : Number) (env : Four Env) (f : Filt),
      p.filtEn = true ∧ fs = .single 0x472BE000#32 ∧ Numerics.binary32 = referenceCfg.numerics ∧
      (∀ k, env.get k = envNext .binary32 fs (v.env.get k)) ∧
      (∀ k, e.get k = if (v.env.get k).stage = .idle then .single 0#32 else (env.get k).level) ∧
      ef = (if v.envF.stage = .idle then .single 0#32 else (envNext .binary32 fs v.envF).level) ∧
      f = filtUpdate referenceCfg fs p.filtMode p.filtCutoff p.filtRes ef v.filt :=
  ⟨{ Snapshot.powerOn with filtEn := true }, soundingVoice, ⟨_, _, _, _⟩, _, _,
    soundingVoice.env.map (envNext .binary32 (.single 0x472BE000#32)), _, rfl, rfl, rfl,
    fun k => by cases k <;> rfl, fun k => by cases k <;> rfl, rfl, rfl⟩

/-- A split that fills the block. -/
theorem test_witness_RenderSplitsIntoParts :
    sounding.Ready ∧ (64#16).toNat = (25#16).toNat + (39#16).toNat ∧
    sounding.ctl.pos.toNat + (25#16).toNat + (39#16).toNat ≤ sounding.ctl.maxBlock.toNat :=
  ⟨⟨rfl, rfl, rfl⟩, by decide, by decide⟩

theorem test_witness_FlushOfAnEmptyBlockChangesNothing : ready.Ready ∧ ready.ctl.pos = 0#16 :=
  ⟨ready_ready, rfl⟩

theorem test_witness_FlushCopiesTheCarrier :
    oneSample.Ready ∧ oneSample.Inv ∧ oneSample.snap.vocEn = false ∧ 0 < oneSample.ctl.pos.toNat :=
  ⟨⟨rfl, rfl, rfl⟩, oneSample_inv, rfl, by decide⟩

theorem test_witness_FlushRunsTheVocoder :
    vocoding.Ready ∧ vocoding.Inv ∧ Numerics.binary32 = vocoding.cfg.numerics ∧
    vocoding.snap.vocEn = true ∧ 0 < vocoding.ctl.pos.toNat ∧
    (∀ n, n < vocoding.ctl.pos.toNat → inWritten vocoding .c0 n = true) ∧
    ∃ (m : List Number) (car : Two (List Number)) (sm : Band → Number),
      m = (List.range vocoding.ctl.pos.toNat).map
        (fun n => .single (readWord vocoding.mem (0x10000 + 4 * n))) ∧
      (∀ c, car.get c = (List.range vocoding.ctl.pos.toNat).map (fun n => carGet vocoding c n)) ∧
      ∀ b, sm b = Numerics.binary32.add (Numerics.binary32.mul vocoding.snap.vocSmooth b.sm)
        (Numerics.binary32.mul
          (Numerics.binary32.sub (.single 0x3F800000#32) vocoding.snap.vocSmooth)
          (Numerics.binary32.div ((filtOutputs .binary32 b.fm m).foldl
            (fun acc y => Numerics.binary32.add acc (Numerics.binary32.abs y)) (.single 0#32))
            (.single (num32 vocoding.ctl.pos.toNat 1)))) := by
  refine ⟨⟨rfl, rfl, rfl⟩, vocoding_inv, rfl, rfl, by decide, fun n hn => ?_, _, ⟨_, _⟩, _, rfl,
    fun c => by cases c <;> rfl, fun b => rfl⟩
  have h0 : n = 0 := Nat.lt_one_iff.1 hn
  subst h0; rfl

theorem test_witness_SmoothingLimits :
    isFinite 0x7F7FFFFF#32 = true ∧ isFinite 0x80000000#32 = true ∧
    ∃ low high : Word,
      low = (smooth .binary32 (.single 0#32) (.single 0x7F7FFFFF#32) (.single 0x80000000#32)).toWord ∧
      high = (smooth .binary32 (.single 0x3F800000#32) (.single 0x7F7FFFFF#32)
        (.single 0x80000000#32)).toWord := ⟨by decide, by decide, _, _, rfl, rfl⟩

theorem test_witness_WrapStaysBelowTwoPi : isFinite 0xFF7FFFFF#32 = true := by decide

/-- The least rate above 40000 Hz, and 384000 Hz. -/
theorem test_witness_DcBlockerCoefficientIsBelowOne :
    (Numerics.binary32 = referenceCfg.numerics ∧ referenceCfg.numerics = .binary32 ∧
      referenceCfg.dcb = .corrected ∧ referenceCfg.dcbFc = .single 0x42200000#32) ∧
    (flt 0x471C4000#32 0x471C4001#32 = true ∧ fle 0x471C4001#32 0x48BB8000#32 = true) ∧
    (flt 0x471C4000#32 0x48BB8000#32 = true ∧ fle 0x48BB8000#32 0x48BB8000#32 = true) := by decide

/-- 0, and the greatest number below TWO_PI. -/
theorem test_witness_SawNeverReachesMinusOne :
    (fle 0#32 0#32 = true ∧ flt 0#32 0x40C90FDB#32 = true) ∧
    (fle 0#32 0x40C90FDA#32 = true ∧ flt 0x40C90FDA#32 0x40C90FDB#32 = true) := by decide

/-- The bases 20 and 20000, the envelope values 0 and 1. -/
theorem test_witness_ModulationOnlyRaisesTheCutoff :
    (∃ fc, fc = (cutoffOf referenceCfg (.single 0x41A00000#32) (.single 0#32)).toWord) ∧
    (isFinite 0x41A00000#32 = true ∧ fle 0x41A00000#32 0x41A00000#32 = true ∧
      fle 0x41A00000#32 0x469C4000#32 = true ∧ fle 0#32 0#32 = true ∧ fle 0#32 0x3F800000#32 = true) ∧
    (isFinite 0x469C4000#32 = true ∧ fle 0x469C4000#32 0x469C4000#32 = true ∧
      fle 0x3F800000#32 0x3F800000#32 = true) :=
  ⟨⟨_, rfl⟩, by decide⟩

/-- The lowest rate with the highest cutoff, the highest rate with the lowest. -/
theorem test_witness_FilterCoefficientIsPositive :
    (flt 0x471C4000#32 0x471C4001#32 = true ∧ fle 0x471C4001#32 0x48BB8000#32 = true ∧
      fle 0x41A00000#32 0x469C4000#32 = true ∧ fle 0x469C4000#32 0x469C4000#32 = true) ∧
    (flt 0x471C4000#32 0x48BB8000#32 = true ∧ fle 0x48BB8000#32 0x48BB8000#32 = true ∧
      fle 0x41A00000#32 0x41A00000#32 = true) := by decide

theorem test_witness_OscillatorSampleFollowsItsSteps :
    ∃ (o : Osc) (hp phase fs : Number) (nx : Numerics), nx = referenceCfg.numerics ∧
      hp = nx.mul (dcbAlpha referenceCfg fs) (nx.sub (nx.add o.hp one) o.prevIn) ∧
      phase = wrap nx (nx.add o.phase (nx.add o.inc (nx.mul hp referenceCfg.modIndex))) ∧
      ∃ r u, r = nx.fmod phase nx.twoPi ∧
        u = (if nx.lt r (.single 0#32) then nx.add r nx.twoPi else r) :=
  ⟨stub one, _, _, one, _, rfl, rfl, rfl, _, _, rfl, rfl⟩

theorem test_witness_FilterSampleFollowsItsSteps :
    (∃ (nx : Numerics) (f : Filt) (yHP yBP yLP : Number),
      yHP = nx.mul f.h (nx.sub (nx.sub one (nx.mul f.s1 (nx.add f.g f.r2))) f.s2) ∧
      yBP = nx.add (nx.mul yHP f.g) f.s1 ∧ yLP = nx.add (nx.mul yBP f.g) f.s2) ∧
    ∃ (fc r g r2 : Number) (nx : Numerics), nx = referenceCfg.numerics ∧
      fc = nx.clamp (nx.add one (nx.mul one (nx.sub referenceCfg.cutoffMax one)))
        referenceCfg.cutoffMin referenceCfg.cutoffMax ∧
      r = nx.clamp one (.single 0x3F800000#32) (.single 0x41200000#32) ∧
      g = nx.tan (nx.div (nx.mul nx.pi fc) one) ∧ r2 = nx.div (.single 0x3F800000#32) r :=
  ⟨⟨.binary32, .powerOn, _, _, _, rfl, rfl, rfl⟩, _, _, _, _, _, rfl, rfl, rfl, rfl, rfl⟩

/-- The hypotheses of every row are equations; those of topology 0. -/
theorem test_witness_RouterRowsAreTheTopologies :
    ∃ (e : Four Number) (o : Four Osc) (r : OscId → Number → Osc × Number) (o4 o3 o2 o1 : Osc × Number)
      (nx : Numerics) (z : Number), nx = referenceCfg.numerics ∧ z = .single 0#32 ∧
      (∀ k m, r k m = oscRender referenceCfg (.single 0x472BE000#32) m (e.get k) (o.get k)) ∧
      o4 = r .k4 z ∧ o3 = r .k3 o4.2 ∧ o2 = r .k2 o3.2 ∧ o1 = r .k1 o2.2 :=
  ⟨⟨one, one, one, one⟩, ⟨stub one, stub one, stub one, stub one⟩, _, _, _, _, _, _, _, rfl, rfl,
    fun _ _ => rfl, rfl, rfl, rfl, rfl⟩

/-- An envelope in each stage the statement names; in DECAY with S at the level. -/
theorem test_witness_EnvelopeIsMonotoneWithinAStage :
    EnvOk .binary32 true (envAt .attack) ∧ EnvOk .binary32 true (envAt .decay) ∧ EnvOk .binary32 true (envAt .release) := by
  refine ⟨?_, ?_, ?_⟩ <;> exact ⟨by decide, by decide, by decide, by decide, by decide⟩

/-- All times 0, S = 0.5, a stage that is not IDLE; each stage has an envelope. -/
theorem test_witness_ZeroTimesAreInstantaneous :
    ((envAt .sustain).a = .single 0#32 ∧ (envAt .sustain).d = .single 0#32 ∧
      Numerics.binary32.le (envAt .sustain).s (envAt .sustain).s = true ∧
      (envAt .sustain).r = .single 0#32 ∧ (envAt .sustain).stage ≠ .idle) ∧
    (∀ stage, (envAt stage).stage = stage) ∧
    ∀ e : Env, ∃ (up : Number) (down : Number → Number),
      up = (match e.rate with
        | .instant => .single 0x3F800000#32
        | .step x => Numerics.binary32.add e.level x) ∧
      ∀ target, down target = match e.rate with
        | .instant => target
        | .step x => Numerics.binary32.sub e.level x :=
  ⟨by decide, fun _ => rfl, fun _ => ⟨_, _, rfl, fun _ => rfl⟩⟩

/-- The largest number and 3; -infinity and the largest number, NaN; 1/3 and -1 at another NUMERICS; clamps
of a number below, in and above [1, 10], and to a range whose ends are exchanged. -/
theorem test_witness_ResultsRoundToNearestEven :
    (isFinite 0x7F7FFFFF#32 = true ∧ isFinite 0x40400000#32 = true ∧ isZero 0x40400000#32 = false ∧
      isFinite (fadd 0x7F7FFFFF#32 0x40400000#32) = true ∧
      isFinite (fmul 0x7F7FFFFF#32 0x40400000#32) = false) ∧
    (isInf 0xFF800000#32 = true ∧ isNaN 0x7F7FFFFF#32 = false ∧ isNaN 0x7FC00000#32 = true ∧
      isFinite 0xFF800000#32 = false ∧ isZero 0x80000000#32 = true) ∧
    ((Number.wide false 1 3).value = .fin (1 / 3) ∧ (Number.wide true 1 1).value = .fin (-1) ∧
      (-1 : ℚ) ≠ 0 ∧ Number.nan.value = .nan ∧ ∀ p, Number.nan.value ≠ .fin p) ∧
    (Numerics.binary32.lt half one = true ∧ Numerics.binary32.lt (q 10 1) one = false ∧
      Numerics.binary32.lt two one = false ∧ Numerics.binary32.lt (q 10 1) two = false ∧
      Numerics.binary32.lt (q 10 1) (q 20 1) = true ∧ Numerics.binary32.lt half (q 10 1) = true ∧
      Numerics.binary32.lt one (q 10 1) = true) ∧
    0 < 3 ∧ isFinite (Number.wide true 1 3).toWord = true := by
  refine ⟨by decide +kernel, by decide, ⟨?_, ?_, by norm_num, rfl, nofun⟩, by decide +kernel, by decide,
    by decide +kernel⟩ <;> norm_num [Number.value]

/-- fmod by TWO_PI of 6.3 and -0.1 (40_oscillator R124: "fmod = -0.1"); R15: min and max of the two zeros. -/
theorem test_fmod_min_max :
    fmod 0x40C9999A#32 0x40C90FDB#32 = 0x3C89BF00#32 ∧ fmod 0xBDCCCCCD#32 0x40C90FDB#32 = 0xBDCCCCCD#32 ∧
    Numerics.binary32.min (.single 0x80000000#32) zero = .single 0x80000000#32 ∧
    Numerics.binary32.max (.single 0x80000000#32) zero = .single 0x80000000#32 := by decide +kernel

/-- A read of STATUS; and the STATUS after a PREPARE. -/
theorem test_witness_StatusRegisterFields :
    (∀ s : State, s = { oneSample with host := [.read 32 0x10C#20] } →
      s.host = .read 32 0x10C#20 :: []) ∧
    (∀ s : State, step s = .next (after s)) ∧ (∀ i s, exec i s = .next (did i s)) ∧
    (did .prepare preparable).ctl.faulted = false :=
  ⟨fun s h => by subst h; rfl, step_after, exec_did, by decide +kernel⟩

/-- The lowest and the highest address of the read-only registers, not faulted; bit 0 and bit 31 of
VOICE_ACTIVE. -/
theorem test_witness_StatusRegistersReadTheirContent :
    sounding.Inv ∧ (∀ s : State, step s = .next (after s)) ∧
    sounding.voices[0]? = some soundingVoice ∧ sounding.voices.length ≤ 31 ∧
    0x10C ≤ (0x10C#20).toNat ∧ (0x128#20).toNat ≤ 0x128 ∧ sounding.ctl.faulted = false :=
  ⟨sounding_inv, step_after, rfl, by decide, by decide, by decide, rfl⟩

/-- A 16-bit access, a hole of the map, the first address beyond IN[0], and read-only ones. -/
theorem test_witness_FailedAccessesRaiseBusError :
    oneSample.Inv ∧ (16 ≠ 32 ∧ ¬Mapped 4096 (0x01C#20).toNat ∧ ¬Mapped 4096 (0x14000#20).toNat ∧
      ¬Mapped 4096 (0x002#20).toNat ∧ ReadOnly (0x10C#20).toNat ∧ ReadOnly (0x128#20).toNat ∧
      ReadOnly (0x30000#20).toNat ∧ ¬ReadOnly (0x108#20).toNat) := by
  refine ⟨oneSample_inv, by decide, ?_, ?_, ?_, ?_, ?_, ?_, ?_⟩ <;>
    first | (unfold Mapped; decide) | (unfold ReadOnly; decide)

/-- CMD, IN[1][4095] unwritten before a PREPARE, IN[0][0] written, OUT[0][0] and MON[0] after the first
FLUSH. -/
theorem test_witness_ReadsHaveNoSideEffect :
    oneSample.Inv ∧ Mapped oneSample.cfg.maxBlockHw (0x100#20).toNat ∧
    Mapped oneSample.cfg.maxBlockHw (0x23FFC#20).toNat ∧
    Mapped oneSample.cfg.maxBlockHw (0x30000#20).toNat ∧
    Mapped oneSample.cfg.maxBlockHw (0x50000#20).toNat ∧
    (4095 < oneSample.cfg.maxBlockHw ∧ 0x23FFC = inBase .c1 + 4 * 4095 ∧
      State.reset.ctl.prepared = false) ∧
    (0x10000 = inBase .c0 + 4 * 0 ∧ inWritten vocoding .c0 0 = true) ∧
    0 < (after (issuing 0x00000006#32 oneSample)).outLen ∧
    0 < (after (issuing 0x00000006#32 oneSample)).ctl.monLen.toNat := by
  refine ⟨oneSample_inv, ?_, ?_, ?_, ?_, by decide, by decide, by decide +kernel, by decide +kernel⟩ <;>
    (unfold Mapped; decide)

/-- IN[1][4095]. -/
theorem test_witness_HostWritesToInputAreStored :
    ∀ s : State, s = { oneSample with host := [.write 32 0x23FFC#20 7#32, .read 32 0x23FFC#20] } →
      s.Inv ∧ 4095 < s.cfg.maxBlockHw ∧
      s.host = .write 32 (BitVec.ofNat 20 (inBase .c1 + 4 * 4095)) 7#32 ::
        .read 32 (BitVec.ofNat 20 (inBase .c1 + 4 * 4095)) :: [] := by
  rintro s rfl
  exact ⟨inv_of_host oneSample_inv _, by decide, rfl⟩

theorem test_witness_PrepRegistersTakeTheWord :
    ({ ready with host := [.write 32 0x104#20 7#32, .read 32 0x104#20] } : State).host
      = .write 32 0x104#20 7#32 :: .read 32 0x104#20 :: [] ∧
    ({ ready with host := [.write 32 0x108#20 0xFFFFFFFF#32, .read 32 0x108#20] } : State).host
      = .write 32 0x108#20 0xFFFFFFFF#32 :: .read 32 0x108#20 :: [] := ⟨rfl, rfl⟩

end Sys2Proof.Tests
end

section
/-! Rounding (00_scope R14): the patterns on either side of n / d, and that `roundPat` takes the nearer. -/

namespace Sys2Proof.Machine

open Sys2Proof

/-! ### The grid of values -/

theorem isFinite_iff (x : Word) : isFinite x = true ↔ magOf x < infPat := by simp [isFinite]

theorem isFinite_false_iff (x : Word) : isFinite x = false ↔ infPat ≤ magOf x := by simp [isFinite]

/-- The value of a pattern by exponent and significand; the significand 2^24 carries into the exponent. -/
theorem fixOf_exp_add_significand {e m : Nat} (hm : m ≤ 2 ^ 24) (he : e = 0 ∨ 2 ^ 23 ≤ m) :
    fixOf (e * 2 ^ 23 + m) = m * 2 ^ e := by
  rcases Nat.lt_or_ge (e * 2 ^ 23 + m) (2 ^ 23) with h | h
  · have he0 : e = 0 := by omega
    subst he0
    rw [fixOf, if_pos h]; simp
  rw [fixOf, if_neg (by omega)]
  rcases hm.eq_or_lt with rfl | hlt
  · have hr : (e * 2 ^ 23 + 2 ^ 24) % 2 ^ 23 = 0 := by omega
    have hq : (e * 2 ^ 23 + 2 ^ 24) / 2 ^ 23 - 1 = e + 1 := by omega
    rw [hr, hq]; ring
  · have hr : (e * 2 ^ 23 + m) % 2 ^ 23 + 2 ^ 23 = m := by omega
    have hq : (e * 2 ^ 23 + m) / 2 ^ 23 - 1 = e := by omega
    rw [hr, hq]

theorem fixOf_infPat : fixOf infPat = 2 ^ 277 := by
  rw [show infPat = 254 * 2 ^ 23 + 2 ^ 23 from rfl,
    fixOf_exp_add_significand (by decide) (.inr le_rfl), ← pow_add]

/-- The value of the greatest finite pattern. -/
theorem fixOf_infPat_sub_one : fixOf (infPat - 1) = (2 ^ 24 - 1) * 2 ^ 253 := by
  rw [show infPat - 1 = 253 * 2 ^ 23 + (2 ^ 24 - 1) from rfl,
    fixOf_exp_add_significand (by decide) (.inr (by decide))]

theorem fixOf_injOn_finite {p q : Nat} (hp : p < infPat) (hq : q < infPat) (h : fixOf p = fixOf q) :
    p = q := by
  rw [← roundPat_fixOf hp, h, roundPat_fixOf hq]

/-! ### The patterns next to a quotient -/

/-- The distance of neighbouring values around n / d, times d. -/
def roundUnit (n d : Nat) : Nat := d * 2 ^ roundExp n d

/-- The greatest pattern whose value is at most n / d. -/
def floorPat (n d : Nat) : Nat := roundExp n d * 2 ^ 23 + n / roundUnit n d

/-- The pattern nearest to n / d, ties to even, before a result too large becomes infinity. -/
def nearestPat (n d : Nat) : Nat := roundExp n d * 2 ^ 23 + roundNat n (roundUnit n d)

/-- How far the value of pattern p is from n / d, times d. -/
def gap (n d p : Nat) : Nat := ((fixOf p : Int) * d - n).natAbs

theorem roundPat_eq_min (n d : Nat) : roundPat n d = min (nearestPat n d) infPat := rfl

section
variable {n d : Nat}

theorem roundUnit_pos (hd : 0 < d) : 0 < roundUnit n d := Nat.mul_pos hd (by positivity)

theorem significand_cases : roundExp n d = 0 ∨ 2 ^ 23 ≤ n / roundUnit n d :=
  (Nat.eq_zero_or_pos _).imp_right roundQuot_ge

theorem fixOf_floorPat : fixOf (floorPat n d) = n / roundUnit n d * 2 ^ roundExp n d :=
  fixOf_exp_add_significand (roundQuot_lt n d).le significand_cases

theorem fixOf_floorPat_succ :
    fixOf (floorPat n d + 1) = (n / roundUnit n d + 1) * 2 ^ roundExp n d := by
  have hm : n / roundUnit n d + 1 ≤ 2 ^ 24 := Nat.succ_le_of_lt (roundQuot_lt n d)
  rw [floorPat, Nat.add_assoc]
  exact fixOf_exp_add_significand hm (significand_cases.imp_right Nat.le_succ_of_le)

/-- n / d lies above its floor pattern's value by the remainder. -/
theorem fixOf_floorPat_mul_add_mod : fixOf (floorPat n d) * d + n % roundUnit n d = n := by
  rw [fixOf_floorPat]
  calc n / roundUnit n d * 2 ^ roundExp n d * d + n % roundUnit n d
      = roundUnit n d * (n / roundUnit n d) + n % roundUnit n d := by unfold roundUnit; ring
    _ = n := Nat.div_add_mod n _

theorem fixOf_floorPat_succ_mul :
    fixOf (floorPat n d + 1) * d = fixOf (floorPat n d) * d + roundUnit n d := by
  rw [fixOf_floorPat_succ, fixOf_floorPat]; unfold roundUnit; ring

/-- The distance from a pattern up to the floor pattern. -/
theorem gap_of_le_floorPat {q : Nat} (hq : q ≤ floorPat n d) :
    gap n d q = n % roundUnit n d + (fixOf (floorPat n d) - fixOf q) * d := by
  have hle : fixOf q * d ≤ fixOf (floorPat n d) * d := Nat.mul_le_mul_right _ (fixOf_mono hq)
  have hn := fixOf_floorPat_mul_add_mod (n := n) (d := d)
  rw [Nat.sub_mul, gap, ← Nat.cast_mul]
  omega

/-- The distance from a pattern above the floor pattern. -/
theorem gap_of_floorPat_lt (hd : 0 < d) {q : Nat} (hq : floorPat n d < q) :
    gap n d q = roundUnit n d - n % roundUnit n d + (fixOf q - fixOf (floorPat n d + 1)) * d := by
  have hle : fixOf (floorPat n d + 1) * d ≤ fixOf q * d := Nat.mul_le_mul_right _ (fixOf_mono hq)
  have hn := fixOf_floorPat_mul_add_mod (n := n) (d := d)
  have hs := fixOf_floorPat_succ_mul (n := n) (d := d)
  have hr := Nat.mod_lt n (roundUnit_pos (n := n) hd)
  rw [Nat.sub_mul, gap, ← Nat.cast_mul]
  omega

/-- Which neighbour rounding takes: the nearer, and of two equally near the even one. -/
theorem nearestPat_cases :
    (2 * (n % roundUnit n d) < roundUnit n d ∧ nearestPat n d = floorPat n d) ∨
    (roundUnit n d < 2 * (n % roundUnit n d) ∧ nearestPat n d = floorPat n d + 1) ∨
    (2 * (n % roundUnit n d) = roundUnit n d ∧ nearestPat n d % 2 = 0 ∧
      (nearestPat n d = floorPat n d ∨ nearestPat n d = floorPat n d + 1)) := by
  rw [nearestPat, floorPat, roundNat]
  split_ifs with hlt hgt <;> omega

/-- No value is nearer to n / d than the nearest pattern's. -/
theorem gap_nearestPat_le (hd : 0 < d) (q : Nat) : gap n d (nearestPat n d) ≤ gap n d q := by
  have hfloor := gap_of_le_floorPat (le_refl (floorPat n d))
  have hsucc := gap_of_floorPat_lt hd (Nat.lt_succ_self (floorPat n d))
  have hr := Nat.mod_lt n (roundUnit_pos (n := n) hd)
  simp only [Nat.sub_self, Nat.zero_mul, Nat.add_zero, Nat.succ_eq_add_one] at hfloor hsucc
  have hq : n % roundUnit n d ≤ gap n d q ∧ q ≤ floorPat n d ∨
      roundUnit n d - n % roundUnit n d ≤ gap n d q ∧ floorPat n d < q := by
    rcases Nat.lt_or_ge (floorPat n d) q with h | h
    · exact .inr ⟨by rw [gap_of_floorPat_lt hd h]; omega, h⟩
    · exact .inl ⟨by rw [gap_of_le_floorPat h]; omega, h⟩
  rcases nearestPat_cases (n := n) (d := d) with ⟨h, hp⟩ | ⟨h, hp⟩ | ⟨h, -, hp | hp⟩ <;>
    (rw [hp]; omega)

/-- Another value as near to n / d as the nearest pattern's makes a tie, which goes to the even pattern. -/
theorem nearestPat_even_of_gap_eq (hd : 0 < d) {q : Nat} (hne : fixOf q ≠ fixOf (nearestPat n d))
    (heq : gap n d (nearestPat n d) = gap n d q) : nearestPat n d % 2 = 0 := by
  have hfloor := gap_of_le_floorPat (le_refl (floorPat n d))
  have hsucc := gap_of_floorPat_lt hd (Nat.lt_succ_self (floorPat n d))
  have hr := Nat.mod_lt n (roundUnit_pos (n := n) hd)
  simp only [Nat.sub_self, Nat.zero_mul, Nat.add_zero, Nat.succ_eq_add_one] at hfloor hsucc
  rcases nearestPat_cases (n := n) (d := d) with ⟨h, hp⟩ | ⟨h, hp⟩ | ⟨-, heven, -⟩
  case inr.inr => exact heven
  all_goals
    exfalso
    rw [hp] at hne heq
    rcases Nat.lt_or_ge (floorPat n d) q with hlt | hge
  · have := gap_of_floorPat_lt hd hlt
    omega
  · have hmono := fixOf_mono hge
    have := gap_of_le_floorPat hge
    have hpos : 0 < (fixOf (floorPat n d) - fixOf q) * d := Nat.mul_pos (by omega) hd
    omega
  · have hmono : fixOf (floorPat n d + 1) ≤ fixOf q := fixOf_mono hlt
    have := gap_of_floorPat_lt hd hlt
    have hpos : 0 < (fixOf q - fixOf (floorPat n d + 1)) * d := Nat.mul_pos (by omega) hd
    omega
  · have := gap_of_le_floorPat hge
    omega

/-- Rounding stays finite exactly below the midpoint of the greatest finite value and the next one. -/
theorem nearestPat_lt_infPat_iff (hd : 0 < d) :
    nearestPat n d < infPat ↔ n < (2 ^ 25 - 1) * 2 ^ 252 * d := by
  have hmax := gap_nearestPat_le (n := n) hd (infPat - 1)
  have hinf := gap_nearestPat_le (n := n) hd infPat
  have heven := nearestPat_even_of_gap_eq (n := n) hd (q := infPat)
  simp only [gap, fixOf_infPat_sub_one, fixOf_infPat] at hmax hinf heven
  constructor
  · intro hlt
    by_contra hge
    have hle : fixOf (nearestPat n d) ≤ fixOf (infPat - 1) := fixOf_mono (by omega)
    rw [fixOf_infPat_sub_one] at hle
    have hmul := Nat.mul_le_mul_right d hle
    have hval : fixOf (nearestPat n d) * d = (2 ^ 24 - 1) * 2 ^ 253 * d := by omega
    have hpat : nearestPat n d = infPat - 1 :=
      fixOf_injOn_finite hlt (by decide)
        ((Nat.eq_of_mul_eq_mul_right hd hval).trans fixOf_infPat_sub_one.symm)
    have := heven (by omega) (by omega)
    rw [hpat] at this
    exact absurd this (by decide)
  · intro hlt
    by_contra hge
    have hle : fixOf infPat ≤ fixOf (nearestPat n d) := fixOf_mono (by omega)
    rw [fixOf_infPat] at hle
    have hmul := Nat.mul_le_mul_right d hle
    omega

theorem roundPat_of_lt (h : nearestPat n d < infPat) : roundPat n d = nearestPat n d :=
  min_eq_left h.le

end
end Sys2Proof.Machine
end
section
/-! The binary32 operations round their exact results to nearest even (00_scope R14). -/

namespace Sys2Proof.Machine

open Sys2Proof

/-! ### Signs -/

theorem sfixOf_mkNum (neg : Bool) {p : Nat} (hp : p < 2 ^ 31) :
    sfixOf (mkNum neg p) = if neg then -(fixOf p : Int) else fixOf p := by
  rw [sfixOf, isNeg_mkNum neg hp, magOf_mkNum neg hp]

theorem natAbs_sfixOf (x : Word) : (sfixOf x).natAbs = fixOf (magOf x) := by
  rw [sfixOf]; split <;> simp

theorem fneg_fneg (x : Word) : fneg (fneg x) = x := by
  rw [← mkNum_magOf (fneg (fneg x)), isNeg_fneg, isNeg_fneg, magOf_fneg, magOf_fneg, Bool.not_not,
    mkNum_magOf]

theorem fneg_mkNum (neg : Bool) {p : Nat} (hp : p < 2 ^ 31) : fneg (mkNum neg p) = mkNum (!neg) p := by
  rw [← mkNum_magOf (fneg (mkNum neg p)), isNeg_fneg, magOf_fneg, isNeg_mkNum neg hp, magOf_mkNum neg hp]

theorem isFinite_fneg (x : Word) : isFinite (fneg x) = isFinite x := by
  simp only [isFinite, magOf_fneg]

theorem isFinite_mkNum (neg : Bool) {p : Nat} (hp : p < infPat) : isFinite (mkNum neg p) = true := by
  rwa [isFinite_iff, magOf_mkNum neg (hp.trans (by decide))]

theorem isNaN_of_isFinite {x : Word} (h : isFinite x = true) : isNaN x = false :=
  (isNaN_false_iff x).2 ((isFinite_iff x).1 h).le

theorem isInf_of_isFinite {x : Word} (h : isFinite x = true) : isInf x = false :=
  (isInf_false_iff x).2 ((isFinite_iff x).1 h).ne

/-! ### Nearest numbers -/

/-- Any number is at least as far from n / d as some pattern of a number that is not negative, and as far
only where their values agree: a negative number is farther than 0. -/
theorem exists_gap_le_dist (n : Nat) {d : Nat} (hd : 0 < d) (q : Word) :
    ∃ p, gap n d p ≤ (sfixOf q * d - n).natAbs ∧
      (gap n d p = (sfixOf q * d - n).natAbs → sfixOf q = fixOf p) := by
  cases hneg : isNeg q with
  | false =>
    have hq : sfixOf q = fixOf (magOf q) := by simp [sfixOf, hneg]
    exact ⟨magOf q, by rw [hq, gap], fun _ => hq⟩
  | true =>
    have hq : sfixOf q = -(fixOf (magOf q) : Int) := by simp [sfixOf, hneg]
    have hdist : (sfixOf q * d - n).natAbs = fixOf (magOf q) * d + n := by
      rw [hq, Int.neg_mul, ← Nat.cast_mul]; omega
    refine ⟨0, by rw [hdist, gap, fixOf_zero]; simp, fun h => ?_⟩
    have hzero : fixOf (magOf q) * d = 0 := by
      rw [hdist, gap, fixOf_zero] at h; simp at h; simp; omega
    rw [hq, (Nat.mul_eq_zero.1 hzero).resolve_right hd.ne']; rfl

/-- Rounding a magnitude gives the nearest number. -/
theorem nearestEven_roundPat (n : Nat) {d : Nat} (hd : 0 < d) :
    NearestEven (mkNum false (roundPat n d)) n d := by
  have hmag : magOf (mkNum false (roundPat n d)) = roundPat n d := magOf_mkNum false (roundPat_lt n d)
  have hval : sfixOf (mkNum false (roundPat n d)) = fixOf (roundPat n d) := by
    simp [sfixOf_mkNum false (roundPat_lt n d)]
  have hiff : isFinite (mkNum false (roundPat n d)) = true ↔ nearestPat n d < infPat := by
    rw [isFinite_iff, hmag, roundPat_eq_min, min_lt_iff, or_iff_left (lt_irrefl _)]
  refine ⟨?_, fun hfin q _ => ?_, fun hfin q _ hne heq => ?_, fun hinf => ?_⟩
  case refine_1 => rw [hiff, nearestPat_lt_infPat_iff hd, Int.natAbs_natCast, Int.natAbs_natCast]
  case refine_2 =>
    obtain ⟨p, hp, -⟩ := exists_gap_le_dist n hd q
    rw [hval, roundPat_of_lt (hiff.1 hfin)]
    exact (gap_nearestPat_le hd p).trans hp
  case refine_3 =>
    obtain ⟨p, hp, hpq⟩ := exists_gap_le_dist n hd q
    rw [hval, roundPat_of_lt (hiff.1 hfin)] at hne heq
    have hle : gap n d (nearestPat n d) ≤ gap n d p := gap_nearestPat_le hd p
    have hgap : gap n d p = (sfixOf q * d - n).natAbs := le_antisymm hp (heq ▸ hle)
    rw [hmag, roundPat_of_lt (hiff.1 hfin)]
    refine nearestPat_even_of_gap_eq hd (q := p) (fun h => hne ?_) (heq.trans hgap.symm)
    rw [hpq hgap, h]
  case refine_4 =>
    have hpat : infPat ≤ nearestPat n d := by
      rw [← not_lt, ← hiff, hinf]; exact Bool.false_ne_true
    refine ⟨?_, ?_⟩
    · rw [isInf_iff, hmag, roundPat_eq_min, min_eq_right hpat]
    · rw [isNeg_mkNum false (roundPat_lt n d)]
      exact iff_of_false Bool.false_ne_true (not_lt.2 (by positivity))

/-- Rounding is symmetric in the sign of the result. -/
theorem NearestEven.fneg {w : Word} {n d : Int} (hd : d ≠ 0) (h : NearestEven w n d) :
    NearestEven (fneg w) (-n) d := by
  have hdist : ∀ q, (sfixOf (Machine.fneg q) * d - -n).natAbs = (sfixOf q * d - n).natAbs := by
    intro q
    rw [sfixOf_fneg, Int.neg_mul, ← neg_sub', Int.natAbs_neg]
  have hdist' : ∀ q, (sfixOf q * d - -n).natAbs = (sfixOf (Machine.fneg q) * d - n).natAbs := fun q => by
    rw [← hdist, fneg_fneg]
  refine ⟨by rw [isFinite_fneg, Int.natAbs_neg, h.finite], fun hfin q hq => ?_,
    fun hfin q hq hne heq => ?_, fun hfin => ?_⟩
  all_goals rw [isFinite_fneg] at hfin
  · rw [hdist, hdist']
    exact h.nearest hfin _ (by rwa [isFinite_fneg])
  · rw [hdist, hdist'] at heq
    rw [magOf_fneg]
    refine h.even hfin _ (by rwa [isFinite_fneg]) (fun he => hne ?_) heq
    rw [sfixOf_fneg, ← he, sfixOf_fneg, Int.neg_neg]
  · obtain ⟨hw, hsign⟩ := h.overflow hfin
    have hn : n ≠ 0 := by
      rintro rfl
      have := h.finite.2 (by simpa using hd)
      rw [hfin] at this; exact absurd this Bool.false_ne_true
    refine ⟨by rwa [isInf_fneg], ?_⟩
    rw [isNeg_fneg, Bool.not_eq_true', ← Bool.not_eq_true, hsign, Int.neg_mul, neg_lt_zero, not_lt]
    exact ⟨fun hle => hle.lt_of_ne (mul_ne_zero hn hd).symm, le_of_lt⟩

/-- n / d is the quotient of -n by -d. -/
theorem NearestEven.neg_neg {w : Word} {n d : Int} (h : NearestEven w n d) :
    NearestEven w (-n) (-d) := by
  have hdist : ∀ q, (sfixOf q * -d - -n).natAbs = (sfixOf q * d - n).natAbs := by
    intro q
    rw [Int.mul_neg, ← neg_sub', Int.natAbs_neg]
  refine ⟨?_, fun hfin q hq => ?_, fun hfin q hq hne heq => ?_, fun hinf => ?_⟩
  · rw [Int.natAbs_neg, Int.natAbs_neg]; exact h.finite
  · rw [hdist, hdist]; exact h.nearest hfin q hq
  · rw [hdist, hdist] at heq; exact h.even hfin q hq hne heq
  · rw [Int.neg_mul_neg]; exact h.overflow hinf

/-- A sign and a rounded magnitude give the number nearest to the quotient with that sign. -/
theorem nearestEven_mkNum (neg : Bool) (n : Nat) {d : Nat} (hd : 0 < d) :
    NearestEven (mkNum neg (roundPat n d)) (if neg then -(n : Int) else n) d := by
  have hpos := nearestEven_roundPat n hd
  cases neg with
  | false => exact hpos
  | true =>
    have hneg := hpos.fneg (by omega)
    rwa [fneg_mkNum false (roundPat_lt n d)] at hneg

/-! ### The four operations on finite numbers -/

section
variable {a b : Word} (ha : isFinite a = true) (hb : isFinite b = true)
include ha hb

theorem fadd_nearestEven : NearestEven (fadd a b) (sfixOf a + sfixOf b) 1 := by
  rw [fadd, isNaN_of_isFinite ha, isNaN_of_isFinite hb, isInf_of_isFinite ha, isInf_of_isFinite hb]
  simp only [Bool.or_self, Bool.false_eq_true, if_false]
  split
  case isTrue hzero =>
    have h := nearestEven_mkNum (isNeg a && isNeg b) 0 one_pos
    have hround : roundPat 0 1 = 0 := roundPat_fixOf (p := 0) (by decide)
    rw [hround] at h
    rw [hzero]
    simpa using h
  case isFalse hne =>
    have h := nearestEven_mkNum (decide (sfixOf a + sfixOf b < 0)) (sfixOf a + sfixOf b).natAbs one_pos
    have hsum : (if decide (sfixOf a + sfixOf b < 0) = true then -((sfixOf a + sfixOf b).natAbs : Int)
        else ((sfixOf a + sfixOf b).natAbs : Int)) = sfixOf a + sfixOf b := by
      simp only [decide_eq_true_eq]; omega
    rwa [hsum] at h

theorem fsub_nearestEven : NearestEven (fsub a b) (sfixOf a - sfixOf b) 1 := by
  have h := fadd_nearestEven ha (b := fneg b) (by rwa [isFinite_fneg])
  rwa [sfixOf_fneg, ← sub_eq_add_neg] at h

theorem fmul_nearestEven : NearestEven (fmul a b) (sfixOf a * sfixOf b) (2 ^ 149) := by
  have hmul : fmul a b = mkNum (isNeg a != isNeg b)
      (roundPat (fixOf (magOf a) * fixOf (magOf b)) (2 ^ 149)) := by
    rw [fmul, isNaN_of_isFinite ha, isNaN_of_isFinite hb, isInf_of_isFinite ha, isInf_of_isFinite hb]
    rfl
  have h := nearestEven_mkNum (isNeg a != isNeg b) (fixOf (magOf a) * fixOf (magOf b))
    (d := 2 ^ 149) (by positivity)
  have hval : (if (isNeg a != isNeg b) = true then -((fixOf (magOf a) * fixOf (magOf b) : Nat) : Int)
      else ((fixOf (magOf a) * fixOf (magOf b) : Nat) : Int)) = sfixOf a * sfixOf b := by
    rw [sfixOf, sfixOf]
    cases isNeg a <;> cases isNeg b <;> simp
  rw [hval] at h
  rw [hmul]
  exact_mod_cast h

theorem fdiv_nearestEven (hz : isZero b = false) :
    NearestEven (fdiv a b) (sfixOf a * 2 ^ 149) (sfixOf b) := by
  have hdiv : fdiv a b = mkNum (isNeg a != isNeg b)
      (roundPat (fixOf (magOf a) * 2 ^ 149) (fixOf (magOf b))) := by
    rw [fdiv, isNaN_of_isFinite ha, isNaN_of_isFinite hb, isInf_of_isFinite ha, isInf_of_isFinite hb, hz]
    rfl
  have hpos : 0 < fixOf (magOf b) := fixOf_pos (Nat.pos_of_ne_zero ((isZero_false_iff b).1 hz))
  have h := nearestEven_mkNum (isNeg a != isNeg b) (fixOf (magOf a) * 2 ^ 149) hpos
  rw [hdiv, sfixOf, sfixOf]
  cases hna : isNeg a <;> cases hnb : isNeg b <;> rw [hna, hnb] at h
  · simpa using h
  · simpa using h.neg_neg
  · simpa using h
  · simpa using h.neg_neg

end

end Sys2Proof.Machine
end
section
/-! fmod is exact, the comparisons order the values, and what NaN, infinities and zeros give (00_scope R14,
R15). -/

namespace Sys2Proof.Machine

open Sys2Proof

/-! ### Exact remainders -/

/-- A significand of 24 bits at any exponent is a value of the grid. -/
theorem exists_fixOf_eq_mul_two_pow (e : Nat) {m : Nat} (hm : m < 2 ^ 24) :
    ∃ p, fixOf p = m * 2 ^ e := by
  induction e generalizing m with
  | zero => exact ⟨0 * 2 ^ 23 + m, fixOf_exp_add_significand hm.le (.inl rfl)⟩
  | succ e ih =>
    rcases Nat.lt_or_ge m (2 ^ 23) with hlt | hge
    · obtain ⟨p, hp⟩ := ih (m := 2 * m) (by omega)
      exact ⟨p, by rw [hp]; ring⟩
    · exact ⟨_, fixOf_exp_add_significand hm.le (.inr hge)⟩

/-- The exponent and the significand of a pattern. -/
theorem exists_fixOf_eq (p : Nat) : ∃ e m, m < 2 ^ 24 ∧ fixOf p = m * 2 ^ e := by
  rw [fixOf]
  split
  · exact ⟨0, p, by omega, by simp⟩
  · exact ⟨_, _, by omega, rfl⟩

/-- The remainder of two values of the grid is one: it is a multiple of the smaller of the two grid
distances, and below the operand that has it. -/
theorem exists_fixOf_eq_mod (p : Nat) {q : Nat} (hq : 0 < fixOf q) :
    ∃ r, fixOf r = fixOf p % fixOf q := by
  obtain ⟨ep, mp, hmp, hp⟩ := exists_fixOf_eq p
  obtain ⟨eq, mq, hmq, hq'⟩ := exists_fixOf_eq q
  rcases Nat.le_total eq ep with h | h
  · obtain ⟨k, rfl⟩ := Nat.exists_eq_add_of_le h
    have hpos : 0 < mq := Nat.pos_of_ne_zero fun h0 => by rw [hq', h0] at hq; simp at hq
    have hr : fixOf p % fixOf q = mp * 2 ^ k % mq * 2 ^ eq := by
      rw [hp, hq', pow_add, mul_comm (2 ^ eq), ← mul_assoc, Nat.mul_mod_mul_right]
    rw [hr]
    exact exists_fixOf_eq_mul_two_pow eq ((Nat.mod_lt _ hpos).trans hmq)
  · obtain ⟨k, rfl⟩ := Nat.exists_eq_add_of_le h
    have hr : fixOf p % fixOf q = mp % (mq * 2 ^ k) * 2 ^ ep := by
      rw [hp, hq', pow_add, mul_comm (2 ^ ep), ← mul_assoc, Nat.mul_mod_mul_right]
    rw [hr]
    exact exists_fixOf_eq_mul_two_pow ep ((Nat.mod_le _ _).trans_lt hmp)

/-- fmod of finite numbers is a finite number with the dividend's sign and the exact remainder of the
magnitudes. -/
theorem fmod_eq_mkNum {a b : Word} (ha : isFinite a = true) (hb : isFinite b = true)
    (hz : isZero b = false) :
    ∃ p < infPat, fmod a b = mkNum (isNeg a) p ∧ fixOf p = fixOf (magOf a) % fixOf (magOf b) := by
  have hpos : 0 < fixOf (magOf b) := fixOf_pos (Nat.pos_of_ne_zero ((isZero_false_iff b).1 hz))
  obtain ⟨p, hp⟩ := exists_fixOf_eq_mod (magOf a) hpos
  have hlt : p < infPat := by
    by_contra hge
    have hinf := fixOf_mono (Nat.le_of_not_lt hge)
    have hmax : fixOf (magOf b) ≤ fixOf (infPat - 1) :=
      fixOf_mono (Nat.le_sub_one_of_lt ((isFinite_iff b).1 hb))
    have hmod := Nat.mod_lt (fixOf (magOf a)) hpos
    rw [fixOf_infPat] at hinf
    rw [fixOf_infPat_sub_one] at hmax
    omega
  refine ⟨p, hlt, ?_, hp⟩
  rw [fmod, isNaN_of_isFinite ha, isNaN_of_isFinite hb, isInf_of_isFinite ha, isInf_of_isFinite hb, hz,
    ← hp, roundPat_fixOf hlt]
  rfl

theorem fmod_exact {a b : Word} (ha : isFinite a = true) (hb : isFinite b = true)
    (hz : isZero b = false) :
    isFinite (fmod a b) = true ∧ isNeg (fmod a b) = isNeg a ∧
      sfixOf (fmod a b) = (sfixOf a).tmod (sfixOf b) ∧
      (sfixOf (fmod a b)).natAbs < (sfixOf b).natAbs := by
  obtain ⟨p, hlt, hmod, hp⟩ := fmod_eq_mkNum ha hb hz
  have hlt' : p < 2 ^ 31 := hlt.trans (by decide)
  have hpos : 0 < fixOf (magOf b) := fixOf_pos (Nat.pos_of_ne_zero ((isZero_false_iff b).1 hz))
  rw [hmod]
  refine ⟨isFinite_mkNum _ hlt, isNeg_mkNum _ hlt', ?_, ?_⟩
  · rw [sfixOf_mkNum _ hlt', hp, sfixOf, sfixOf]
    cases isNeg a <;> cases isNeg b <;>
      simp only [if_true, if_false, Bool.false_eq_true, Int.neg_tmod, Int.tmod_neg, Int.ofNat_tmod]
  · rw [natAbs_sfixOf, natAbs_sfixOf, magOf_mkNum _ hlt', hp]
    exact Nat.mod_lt _ hpos

theorem isNaN_fmod_of_not_finite_or_zero {a b : Word} (h : isFinite a = false ∨ isZero b = true) :
    isNaN (fmod a b) = true := by
  have hcond : (isNaN a || isNaN b || isInf a || isZero b) = true := by
    rcases h with ha | hb
    · rcases ((isFinite_false_iff a).1 ha).eq_or_lt with heq | hlt
      · simp [(isInf_iff a).2 heq.symm]
      · simp [(isNaN_iff a).2 hlt]
    · simp [hb]
  rw [fmod, if_pos hcond, isNaN_nanOf]

theorem isZero_of_isInf {x : Word} (h : isInf x = true) : isZero x = false :=
  (isZero_false_iff x).2 (by rw [(isInf_iff x).1 h]; decide)

theorem isNaN_of_isInf {x : Word} (h : isInf x = true) : isNaN x = false :=
  (isNaN_false_iff x).2 ((isInf_iff x).1 h).le

theorem fmod_isInf {a b : Word} (ha : isFinite a = true) (hb : isInf b = true) : fmod a b = a := by
  rw [fmod, isNaN_of_isFinite ha, isInf_of_isFinite ha, isNaN_of_isInf hb, isZero_of_isInf hb, hb]
  rfl

/-! ### Comparisons -/

/-- Ranks order finite numbers as their values do. -/
theorem rank_lt_iff_sfixOf_lt {a b : Word} (ha : isFinite a = true) (hb : isFinite b = true) :
    rank a < rank b ↔ sfixOf a < sfixOf b := by
  have hfa := (isFinite_iff a).1 ha
  have hfb := (isFinite_iff b).1 hb
  have hab := fixOf_lt_iff hfa hfb
  have hba := fixOf_lt_iff hfb hfa
  have hzero : (0 : Nat) < infPat := by decide
  have ha0 := fixOf_lt_iff hzero hfa
  have hb0 := fixOf_lt_iff hzero hfb
  rw [fixOf_zero] at ha0 hb0
  rw [rank, rank, sfixOf, sfixOf]
  cases isNeg a <;> cases isNeg b <;> simp only [if_true, if_false, Bool.false_eq_true] <;> omega

theorem fle_eq_not_flt {a b : Word} (ha : isNaN a = false) (hb : isNaN b = false) :
    fle a b = !flt b a := by
  rw [fle, flt, ha, hb, Bool.not_and, Bool.eq_iff_iff]
  simp

theorem flt_iff_sfixOf_lt {a b : Word} (ha : isFinite a = true) (hb : isFinite b = true) :
    flt a b = true ↔ sfixOf a < sfixOf b := by
  rw [flt_iff, ← rank_lt_iff_sfixOf_lt ha hb]
  simp [isNaN_of_isFinite ha, isNaN_of_isFinite hb]

theorem fle_iff_sfixOf_le {a b : Word} (ha : isFinite a = true) (hb : isFinite b = true) :
    fle a b = true ↔ sfixOf a ≤ sfixOf b := by
  rw [fle_eq_not_flt (isNaN_of_isFinite ha) (isNaN_of_isFinite hb), Bool.not_eq_true',
    ← Bool.not_eq_true, flt_iff_sfixOf_lt hb ha, not_lt]

/-- An infinity is the only number of its rank, which bounds all others. -/
theorem flt_isInf_iff {a b : Word} (ha : isInf a = true) (hb : isNaN b = false) :
    (flt a b = true ↔ isNeg a = true ∧ b ≠ a) ∧ (flt b a = true ↔ isNeg a = false ∧ b ≠ a) := by
  have hma := (isInf_iff a).1 ha
  have hmb := (isNaN_false_iff b).1 hb
  have heq : b = a ↔ isNeg b = isNeg a ∧ magOf b = infPat := by
    refine ⟨fun h => by rw [h, hma]; exact ⟨rfl, rfl⟩, fun ⟨hs, hm⟩ => ?_⟩
    rw [← mkNum_magOf b, hs, hm, ← hma, mkNum_magOf]
  have hpos : 0 < infPat := by decide
  rw [flt_iff, flt_iff, isNaN_of_isInf ha, hb, rank, rank, hma, Ne, heq]
  cases isNeg a <;> cases isNeg b <;> simp <;> omega

/-- NaN operands give NaN, and false comparisons. -/
theorem results_of_isNaN {a b : Word} (h : isNaN a = true ∨ isNaN b = true) :
    isNaN (fadd a b) = true ∧ isNaN (fsub a b) = true ∧ isNaN (fmul a b) = true ∧
      isNaN (fdiv a b) = true ∧ isNaN (fmod a b) = true ∧ flt a b = false ∧ fle a b = false := by
  have hor : (isNaN a || isNaN b) = true := by simpa using h
  have hnot : (!isNaN a && !isNaN b) = false := by rw [← Bool.not_or, hor]; rfl
  refine ⟨?_, ?_, ?_, ?_, ?_, ?_, ?_⟩
  · rw [fadd, if_pos hor, isNaN_nanOf]
  · rw [fsub, fadd, isNaN_fneg, if_pos hor, isNaN_nanOf]
  · rw [fmul, if_pos hor, isNaN_nanOf]
  · rw [fdiv, if_pos hor, isNaN_nanOf]
  · rw [fmod, hor, Bool.true_or, Bool.true_or, if_pos rfl, isNaN_nanOf]
  · rw [flt, hnot, Bool.false_and]
  · rw [fle, hnot, Bool.false_and]

/-! ### abs -/

theorem magOf_fabs (x : Word) : magOf (fabs x) = magOf x := by
  have hmask : (0x7FFFFFFF#32).toNat = 2 ^ 31 - 1 := rfl
  rw [magOf, fabs, BitVec.toNat_and, hmask, Nat.and_two_pow_sub_one_eq_mod, Nat.mod_mod, magOf]

theorem isNeg_fabs (x : Word) : isNeg (fabs x) = false := by
  have hmask : (0x7FFFFFFF#32).msb = false := rfl
  rw [isNeg, fabs, BitVec.msb_and, hmask, Bool.and_false]

theorem sfixOf_fabs (x : Word) : sfixOf (fabs x) = |sfixOf x| := by
  rw [sfixOf, isNeg_fabs, magOf_fabs, Int.abs_eq_natAbs, natAbs_sfixOf]
  rfl

end Sys2Proof.Machine
end

section
/-! Numbers at either NUMERICS: their values and words, and the operations of another NUMERICS on values
(00_scope R14, R15; 46_commands R290; log 1). -/

namespace Sys2Proof

open Sys2Proof.Machine

/-! ### Values and words -/

theorem Number.value_single_of_isFinite {w : Word} (h : isFinite w = true) :
    (Number.single w).value = .fin ((sfixOf w : ℚ) / 2 ^ 149) := by
  simp [Number.value, isNaN_of_isFinite h, isInf_of_isFinite h]

theorem Number.value_single_eq_fin_iff {w : Word} {p : ℚ} :
    (Number.single w).value = .fin p ↔ isFinite w = true ∧ p = (sfixOf w : ℚ) / 2 ^ 149 := by
  cases hfin : isFinite w with
  | true => rw [Number.value_single_of_isFinite hfin]; simp [eq_comm]
  | false =>
    rcases ((isFinite_false_iff w).1 hfin).eq_or_lt with heq | hlt
    · have hinf : isInf w = true := (isInf_iff w).2 heq.symm
      simp [Number.value, isNaN_of_isInf hinf, hinf]
    · simp [Number.value, (isNaN_iff w).2 hlt]

theorem Number.value_single_eq_nan_iff {w : Word} : (Number.single w).value = .nan ↔ isNaN w = true := by
  rw [Number.value]
  split_ifs <;> simp_all

theorem Number.value_wide_eq_fin_iff {neg : Bool} {n d : Nat} {p : ℚ} :
    (Number.wide neg n d).value = .fin p ↔ d ≠ 0 ∧ p = if neg then -((n : ℚ) / d) else (n : ℚ) / d := by
  rw [Number.value]
  split_ifs <;> simp_all [eq_comm]

theorem Number.isNaN_toWord {a : Number} (h : a.value = .nan) : isNaN a.toWord = true := by
  cases a with
  | single w => exact Number.value_single_eq_nan_iff.1 h
  | wide neg n d =>
    have hnd : d = 0 ∧ n = 0 := by
      rw [Number.value] at h
      split_ifs at h with hd hn
      exact ⟨hd, hn⟩
    rw [Number.toWord, if_pos hnd.1, if_pos hnd.2, isNaN_nanOf]

theorem Number.isFinite_toWord_eq_false {a : Number} (h : ∀ p, a.value ≠ .fin p) :
    isFinite a.toWord = false := by
  cases a with
  | single w =>
    rw [← Bool.not_eq_true]
    exact fun hfin => h _ (Number.value_single_of_isFinite hfin)
  | wide neg n d =>
    have hd : d = 0 := by
      by_contra hd
      exact h _ (Number.value_wide_eq_fin_iff.2 ⟨hd, rfl⟩)
    rw [Number.toWord, if_pos hd, isFinite_false_iff]
    split
    · exact ((isNaN_iff _).1 (isNaN_nanOf ..)).le
    · rw [magOf_mkNum _ (by decide)]

theorem Number.toWord_wide {neg : Bool} {n d : Nat} (hd : 0 < d) :
    (Number.wide neg n d).toWord = mkNum neg (roundPat (n * 2 ^ 149) d) := by
  rw [Number.toWord, if_neg hd.ne']

theorem Number.nearestEven_toWord_wide (neg : Bool) (n : Nat) {d : Nat} (hd : 0 < d) :
    NearestEven (Number.wide neg n d).toWord ((if neg then -(n : Int) else n) * 2 ^ 149) d := by
  have h := nearestEven_mkNum neg (n * 2 ^ 149) hd
  rw [Number.toWord_wide hd]
  cases neg <;> simpa using h

/-- `Number.ofRat` has the value it is given. -/
theorem Number.value_ofRat (neg : Bool) (q : ℚ) : (Number.ofRat neg q).value = .fin q := by
  rw [Number.ofRat, Number.value_wide_eq_fin_iff]
  refine ⟨q.den_nz, ?_⟩
  have habs : ((q.num.natAbs : ℚ) / q.den) = |q| := by
    rw [Nat.cast_natAbs, Int.cast_abs, ← abs_of_nonneg (Nat.cast_nonneg (α := ℚ) q.den), ← abs_div,
      Rat.num_div_den]
  rw [habs]
  rcases lt_trichotomy q 0 with hlt | rfl | hgt
  · simp [hlt, abs_of_neg hlt]
  · simp
  · simp [hgt.not_gt, hgt.ne', abs_of_pos hgt]

/-! ### Comparisons, abs and fmod of another NUMERICS -/

theorem Value.le_fin (p q : ℚ) : (Value.fin p).le (.fin q) = true ↔ p ≤ q := by
  simp [Value.le, Value.lt]

theorem Value.not_lt_of_nan {a b : Value} (h : a = .nan ∨ b = .nan) : a.lt b = false := by
  rcases h with rfl | rfl
  · cases b <;> rfl
  · cases a <;> rfl

theorem Value.not_le_of_nan {a b : Value} (h : a = .nan ∨ b = .nan) : a.le b = false := by
  rcases h with rfl | rfl <;> simp [Value.le]

theorem Numerics.value_abs_other {a : Number} {p : ℚ} (ha : a.value = .fin p) :
    (Numerics.other.abs a).value = .fin |p| := by
  cases a with
  | single w =>
    obtain ⟨hfin, rfl⟩ := Number.value_single_eq_fin_iff.1 ha
    refine Number.value_single_eq_fin_iff.2 ⟨?_, ?_⟩
    · rwa [isFinite_iff, magOf_fabs, ← isFinite_iff]
    · rw [sfixOf_fabs, abs_div, Int.cast_abs, abs_of_pos (by positivity : (0 : ℚ) < 2 ^ 149)]
  | wide neg n d =>
    obtain ⟨hd, rfl⟩ := Number.value_wide_eq_fin_iff.1 ha
    refine Number.value_wide_eq_fin_iff.2 ⟨hd, ?_⟩
    have hnonneg : 0 ≤ (n : ℚ) / d := by positivity
    cases neg <;> simp [abs_of_nonneg hnonneg]

/-- The integer part of t, rounded towards 0. -/
def truncRat (t : ℚ) : ℤ := if 0 ≤ t then t.floor else t.ceil

/-- What truncation cuts off is below 1 and has the sign of t. -/
theorem truncRat_spec (t : ℚ) : |t - truncRat t| < 1 ∧ 0 ≤ (t - truncRat t) * t := by
  unfold truncRat
  split
  case isTrue h =>
    have h1 : ((t.floor : ℤ) : ℚ) ≤ t := Int.floor_le t
    have h2 : t < (t.floor : ℤ) + 1 := Int.lt_floor_add_one t
    exact ⟨abs_lt.2 ⟨by linarith, by linarith⟩, mul_nonneg (by linarith) h⟩
  case isFalse h =>
    have h1 : t ≤ ((t.ceil : ℤ) : ℚ) := Rat.le_ceil
    have h2 : ((t.ceil : ℤ) : ℚ) < t + 1 := Rat.ceil_lt
    exact ⟨abs_lt.2 ⟨by linarith, by linarith⟩,
      mul_nonneg_of_nonpos_of_nonpos (by linarith) (by linarith)⟩

theorem value_fmodExact {x y : Number} {p q : ℚ} (hx : x.value = .fin p) (hy : y.value = .fin q)
    (hq : q ≠ 0) : (fmodExact x y).value = .fin (p - q * truncRat (p / q)) := by
  rw [fmodExact, hx, hy]
  simp only [if_neg hq]
  exact Number.value_ofRat _ _

theorem value_fmodExact_of_not_fin {x y : Number} (hx : ∀ p, x.value ≠ .fin p) :
    (fmodExact x y).value = .nan := by
  rw [fmodExact]
  split
  · rename_i p q hp hq
    exact absurd hp (hx _)
  · rename_i p neg hp hq
    exact absurd hp (hx _)
  · rfl

/-- fmod of another NUMERICS is the exact remainder, smaller than the divisor, with the dividend's
sign. -/
theorem fmodExact_spec {x y : Number} {p q : ℚ} (hx : x.value = .fin p) (hy : y.value = .fin q)
    (hq : q ≠ 0) :
    ∃ (r : ℚ) (k : ℤ), (fmodExact x y).value = .fin r ∧ r = p - q * k ∧ |r| < |q| ∧ 0 ≤ r * p := by
  obtain ⟨hlt, hsign⟩ := truncRat_spec (p / q)
  have hr : p - q * truncRat (p / q) = q * (p / q - truncRat (p / q)) := by field_simp
  refine ⟨_, _, value_fmodExact hx hy hq, rfl, ?_, ?_⟩
  · rw [hr, abs_mul]
    exact mul_lt_of_lt_one_right (abs_pos.2 hq) hlt
  · calc (0 : ℚ) ≤ q ^ 2 * ((p / q - truncRat (p / q)) * (p / q)) := mul_nonneg (sq_nonneg q) hsign
      _ = (p - q * truncRat (p / q)) * p := by field_simp

/-! ### Every NUMERICS -/

theorem Numerics.not_lt_of_nan (nx : Numerics) {a b : Number} (h : a.value = .nan ∨ b.value = .nan) :
    nx.lt a b = false ∧ nx.le a b = false := by
  cases nx with
  | binary32 =>
    obtain ⟨-, -, -, -, -, hlt, hle⟩ := results_of_isNaN (h.imp Number.isNaN_toWord Number.isNaN_toWord)
    exact ⟨hlt, hle⟩
  | other => exact ⟨Value.not_lt_of_nan h, Value.not_le_of_nan h⟩

theorem Numerics.value_fmod_of_not_fin (nx : Numerics) {a : Number} (b : Number)
    (h : ∀ p, a.value ≠ .fin p) : (nx.fmod a b).value = .nan := by
  cases nx with
  | binary32 =>
    exact Number.value_single_eq_nan_iff.2
      (isNaN_fmod_of_not_finite_or_zero (.inl (Number.isFinite_toWord_eq_false h)))
  | other => exact value_fmodExact_of_not_fin h

/-- clamp, by whether x is below lo, and whether what that leaves is above hi. -/
theorem Numerics.clamp_eq (nx : Numerics) (x lo hi : Number) :
    nx.clamp x lo hi =
      if nx.lt x lo then (if nx.lt hi lo then hi else lo) else (if nx.lt hi x then hi else x) := by
  rw [Numerics.clamp, Numerics.min, Numerics.max]
  split <;> rfl

/-- Neither zero is below the other. -/
theorem Numerics.lt_zeros (nx : Numerics) :
    nx.lt (.single 0x80000000#32) (.single 0#32) = false ∧
      nx.lt (.single 0#32) (.single 0x80000000#32) = false := by
  cases nx with
  | binary32 => decide
  | other =>
    have hneg : (Number.single 0x80000000#32).value = .fin 0 :=
      Number.value_single_eq_fin_iff.2 ⟨by decide, by simp [show sfixOf 0x80000000#32 = 0 by decide]⟩
    have hpos : (Number.single 0#32).value = .fin 0 :=
      Number.value_single_eq_fin_iff.2 ⟨by decide, by simp [show sfixOf 0#32 = 0 by decide]⟩
    simp [Numerics.lt, hneg, hpos, Value.lt]

theorem Numerics.min_max_zeros (nx : Numerics) {neg pos : Number} (hneg : neg = .single 0x80000000#32)
    (hpos : pos = .single 0#32) :
    nx.min neg pos = neg ∧ nx.min pos neg = pos ∧ nx.max neg pos = neg ∧ nx.max pos neg = pos := by
  obtain ⟨hnp, hpn⟩ := nx.lt_zeros
  subst hneg hpos
  simp [Numerics.min, Numerics.max, hnp, hpn]

/-- Settles O54: every operation of the datapath is treated by its own lemma above; the rounding of the
four operations and of the bus format is `nearestEven_mkNum`. -/
theorem resultsRoundToNearestEven : Obligations.ResultsRoundToNearestEven := by
  refine ⟨fun a b ha hb => ?_, fun a b => ?_, ?_, ?_, fun nx a b => ?_, fun nx x lo hi => ?_,
    fun nx neg pos hneg hpos => nx.min_max_zeros hneg hpos,
    fun neg n d hd => Number.nearestEven_toWord_wide neg n hd⟩
  · exact ⟨fadd_nearestEven ha hb, fsub_nearestEven ha hb, fmul_nearestEven ha hb,
      fdiv_nearestEven ha hb, fmod_exact ha hb, flt_iff_sfixOf_lt ha hb, fle_iff_sfixOf_le ha hb⟩
  · exact ⟨results_of_isNaN, fle_eq_not_flt, flt_isInf_iff, isNaN_fmod_of_not_finite_or_zero,
      fmod_isInf, magOf_fabs a, isNeg_fabs a⟩
  · rintro a b nx rfl
    exact ⟨rfl, rfl, rfl, rfl, rfl, rfl, rfl, rfl⟩
  · rintro a b p q nx rfl ha hb
    refine ⟨?_, ?_, Numerics.value_abs_other ha, fmodExact_spec ha hb⟩
    · simp [Numerics.lt, ha, hb, Value.lt]
    · rw [Numerics.le, ha, hb, Value.le_fin]
  · exact ⟨nx.not_lt_of_nan, nx.value_fmod_of_not_fin b, rfl, rfl⟩
  · rw [nx.clamp_eq]
    refine ⟨fun h1 h2 => ?_, fun h1 h2 => ?_, fun h1 h2 => ?_, fun h1 h2 => ?_⟩ <;> simp [h1, h2]

end Sys2Proof
end

section
/-! Ranges at binary32: differences, quotients by a positive number, and the phase wrap (40_oscillator R124;
41_envelope R151). -/

namespace Sys2Proof.Machine

open Sys2Proof

/-! ### Differences of numbers that are not negative -/

theorem isFinite_of_fle {x b : Word} (h0 : fle zero32 x = true) (h : fle x b = true)
    (hb : isFinite b = true) : isFinite x = true := by
  have hb0 := fle_trans h0 h
  have hr := ((fle_iff x b).1 h).2.2
  rw [rank_of_nonneg h0, rank_of_nonneg hb0] at hr
  rw [isFinite_iff] at hb ⊢
  omega

/-- What is taken off makes a number no greater, and no NaN. -/
theorem fsub_fle_self {a b : Word} (ha : fle zero32 a = true) (hfa : isFinite a = true)
    (hb : fle zero32 b = true) : fle (fsub a b) a = true := by
  have hna := notNaN_of_fle_right ha
  have hnb := notNaN_of_fle_right hb
  cases hfb : isFinite b with
  | false =>
    have hinf : isInf b = true :=
      (isInf_iff b).2 (le_antisymm ((isNaN_false_iff b).1 hnb) ((isFinite_false_iff b).1 hfb))
    have hsub : fsub a b = fneg b := by
      rw [fsub, fadd, hna, isNaN_fneg, hnb, isInf_of_isFinite hfa, isInf_fneg, hinf]; rfl
    have hneg : isNeg b = false := by
      by_contra hc
      have h0 := ((fle_zero_iff b).1 hb).2 (by simpa using hc)
      rw [(isInf_iff b).1 hinf] at h0
      exact absurd h0 (by decide)
    rw [hsub, fle_iff, isNaN_fneg, rank_of_nonneg ha, rank, isNeg_fneg, hneg, magOf_fneg]
    exact ⟨hnb, hna, by simp⟩
  | true =>
    cases hba : fle b a with
    | true => exact (fsub_between ha hb ((isFinite_iff a).1 hfa) hba).2
    | false =>
      have hlt : sfixOf a + sfixOf (fneg b) < 0 := by
        rw [fle_eq_not_flt hnb hna, Bool.not_eq_false', flt_iff_sfixOf_lt hfa hfb] at hba
        rw [sfixOf_fneg]; omega
      have hsub : fsub a b = mkNum true (roundPat (sfixOf a + sfixOf (fneg b)).natAbs 1) := by
        have hfnb : isFinite (fneg b) = true := by rwa [isFinite_fneg]
        rw [fsub, fadd, hna, isNaN_of_isFinite hfnb, isInf_of_isFinite hfa, isInf_of_isFinite hfnb,
          if_neg hlt.ne, decide_eq_true hlt]
        rfl
      rw [hsub, fle_iff, rank_of_nonneg ha, rank_mkNum true (roundPat_lt _ _)]
      exact ⟨isNaN_mkNum true (roundPat_le_infPat _ _), hna, by simp⟩

/-! ### Quotients -/

@[simp] theorem roundPat_zero (d : Nat) : roundPat 0 d = 0 := by
  simp [roundPat_eq, roundNat, roundExp]

/-- A finite number over a positive one: the rounded quotient of the magnitudes, with the dividend's sign. -/
theorem fdiv_pos {a d : Word} (ha : isFinite a = true) (hd : isFinite d = true) (hneg : isNeg d = false)
    (hz : isZero d = false) :
    fdiv a d = mkNum (isNeg a) (roundPat (fixOf (magOf a) * 2 ^ 149) (fixOf (magOf d))) := by
  rw [fdiv, isNaN_of_isFinite ha, isNaN_of_isFinite hd, isInf_of_isFinite ha, isInf_of_isFinite hd, hz,
    hneg, Bool.bne_false]
  rfl

/-- Division by a positive number keeps the order. -/
theorem fdiv_mono {a b d : Word} (ha : isFinite a = true) (hb : isFinite b = true)
    (hd : isFinite d = true) (hneg : isNeg d = false) (hz : isZero d = false) (h : fle a b = true) :
    fle (fdiv a d) (fdiv b d) = true := by
  have hab := (fle_iff_sfixOf_le ha hb).1 h
  rw [fdiv_pos ha hd hneg hz, fdiv_pos hb hd hneg hz, fle_iff, rank_mkNum _ (roundPat_lt _ _),
    rank_mkNum _ (roundPat_lt _ _)]
  refine ⟨isNaN_mkNum _ (roundPat_le_infPat _ _), isNaN_mkNum _ (roundPat_le_infPat _ _), ?_⟩
  have hmono : ∀ {m n : Nat}, m ≤ n →
      roundPat (m * 2 ^ 149) (fixOf (magOf d)) ≤ roundPat (n * 2 ^ 149) (fixOf (magOf d)) :=
    fun hmn => roundPat_mono _ (Nat.mul_le_mul_right _ hmn)
  rw [sfixOf, sfixOf] at hab
  cases hna : isNeg a <;> cases hnb : isNeg b <;> rw [hna, hnb] at hab <;>
    simp only [if_true, if_false, Bool.false_eq_true] at hab ⊢
  · exact_mod_cast hmono (by omega)
  · have h0a : fixOf (magOf a) = 0 := by omega
    have h0b : fixOf (magOf b) = 0 := by omega
    simp [h0a, h0b]
  · omega
  · have := hmono (show fixOf (magOf b) ≤ fixOf (magOf a) by omega)
    omega

/-! ### The phase wrap (40_oscillator R124) -/

/-- The guard leaves a number in [0, TWO_PI) of every number that is not negative. -/
theorem wrapGuard_range {r : Word} (hr : fle zero32 r = true) :
    fle zero32 (wrapGuard .binary32 (.single r)).toWord = true ∧
      flt (wrapGuard .binary32 (.single r)).toWord twoPi32 = true := by
  rw [wrapGuard]
  split
  case isTrue => decide
  case isFalse h =>
    have hnot : ¬fle twoPi32 r = true := h
    rw [fle_eq_not_flt (by decide) (notNaN_of_fle_right hr)] at hnot
    exact ⟨hr, by simpa using hnot⟩

/-- A finite number above -TWO_PI, and TWO_PI added where it is negative: not negative. -/
theorem fadd_twoPi_nonneg {r : Word} (hr : isFinite r = true) (hlt : -sfixOf twoPi32 < sfixOf r) :
    fle zero32 (fadd r twoPi32) = true := by
  obtain ⟨neg, hsum, hzero⟩ := fadd_of_sum_nonneg (b := twoPi32) ((isFinite_iff r).1 hr) (by decide)
    (by omega)
  rw [hsum]
  cases neg with
  | false => exact nonneg_mkNum (roundPat_le_infPat _ _)
  | true => have := hzero rfl; omega

/-- The wrapped phase is the guard's answer on the remainder, moved up once where it is negative. -/
theorem wrap_binary32 (p : Number) :
    wrap .binary32 p = wrapGuard .binary32
      (.single (if flt (fmod p.toWord twoPi32) zero32 then fadd (fmod p.toWord twoPi32) twoPi32
        else fmod p.toWord twoPi32)) := by
  simp only [wrap, Numerics.fmod_binary32, Numerics.lt_binary32, Numerics.add_binary32]
  exact congrArg _ (apply_ite Number.single _ _ _).symm

theorem wrap_range {p : Number} (hp : isFinite p.toWord = true) :
    fle zero32 (wrap .binary32 p).toWord = true ∧ flt (wrap .binary32 p).toWord twoPi32 = true := by
  obtain ⟨hfin, -, -, hmag⟩ := fmod_exact (b := twoPi32) hp (by decide) (by decide)
  have hpos : 0 < sfixOf twoPi32 := by decide +kernel
  rw [wrap_binary32]
  apply wrapGuard_range
  split
  case isTrue => exact fadd_twoPi_nonneg hfin (by omega)
  case isFalse h =>
    rw [fle_eq_not_flt (by decide) (isNaN_of_isFinite hfin)]
    simpa using h

/-- A phase that is not finite wraps to NaN. -/
theorem isNaN_wrap {p : Number} (hp : isFinite p.toWord = false) :
    isNaN (wrap .binary32 p).toWord = true := by
  have hnan : isNaN (fmod p.toWord twoPi32) = true := isNaN_fmod_of_not_finite_or_zero (.inl hp)
  have hlt : flt (fmod p.toWord twoPi32) zero32 = false := by simp [flt, hnan]
  have hle : fle twoPi32 (fmod p.toWord twoPi32) = false := by simp [fle, hnan]
  rw [wrap_binary32, hlt, if_neg (by simp), wrapGuard, Numerics.le_binary32, if_neg]
  · exact hnan
  · exact ne_true_of_eq_false hle

/-- Every wrapped phase meets the oscillator's invariant (10_state R23). -/
theorem phaseOk_wrap (p : Number) : phaseOk (wrap .binary32 p) = true := by
  rw [phaseOk, Bool.or_eq_true, Bool.and_eq_true]
  cases hp : isFinite p.toWord with
  | true => exact .inr (wrap_range hp)
  | false => exact .inl (isNaN_wrap hp)

/-- Settles O44: the remainder, moved up once where it is negative, is not negative, and the guard of
92_eei_decisions D9 keeps it below TWO_PI. -/
theorem wrapStaysBelowTwoPi : Obligations.WrapStaysBelowTwoPi :=
  fun p hp => wrap_range (p := .single p) hp

end Sys2Proof.Machine
end

section
/-! The envelope's and the voice's invariants: each operation of a unit keeps them (10_state R23 to R25;
44_voice R227). -/

namespace Sys2Proof.Machine

open Sys2Proof

/-! ### Envelopes -/

theorem inUnit_iff (x : Number) :
    inUnit x = true ↔ fle zero32 x.toWord = true ∧ fle x.toWord one32 = true := by
  rw [inUnit, Bool.and_eq_true]; rfl

theorem inUnit_isFinite {x : Number} (h : inUnit x = true) : isFinite x.toWord = true :=
  isFinite_of_fle ((inUnit_iff x).1 h).1 ((inUnit_iff x).1 h).2 (by decide)

/-- An accepted sample rate (46_commands R270). -/
def AcceptedRate (fs : Number) : Prop :=
  flt fsMinExcl fs.toWord = true ∧ fle fs.toWord fsMax = true

theorem AcceptedRate.one_le {fs : Number} (h : AcceptedRate fs) : fle one32 fs.toWord = true := by
  have hr := ((flt_iff _ _).1 h.1).2.2
  have hmin : rank one32 ≤ rank fsMinExcl := by decide
  exact (fle_iff _ _).2 ⟨rfl, notNaN_of_fle_left h.2, by omega⟩

theorem AcceptedRate.isFinite {fs : Number} (h : AcceptedRate fs) : isFinite fs.toWord = true :=
  isFinite_of_fle (fle_trans (by decide) h.one_le) h.2 (by decide)

/-- The step of a stage over a finite distance is not negative (41_envelope R151). -/
theorem rateOk_envRate {fs dist : Number} (t : Number) (hfs : AcceptedRate fs)
    (h0 : fle zero32 dist.toWord = true) (hfin : isFinite dist.toWord = true) :
    rateOk (envRate .binary32 fs dist t) = true := by
  rw [envRate]
  split
  case isFalse => rfl
  case isTrue ht =>
    obtain ⟨-, hnt, hpos⟩ := (flt_iff zero32 t.toWord).1 ht
    have ht0 : fle zero32 t.toWord = true := (fle_iff _ _).2 ⟨rfl, hnt, hpos.le⟩
    have htz : magOf t.toWord ≠ 0 := by
      rw [rank_zero, rank_of_nonneg ht0] at hpos; omega
    have hfs0 : fle zero32 fs.toWord = true := fle_trans (by decide) hfs.one_le
    have hfsz : magOf fs.toWord ≠ 0 := by
      have hr := ((fle_iff _ _).1 hfs.one_le).2.2
      rw [rank_one, rank_of_nonneg hfs0] at hr; omega
    have hfsf := (isFinite_iff _).1 hfs.isFinite
    exact fdiv_nonneg h0 (fmul_nonneg ht0 hfs0 hfsf hfsz) ((isFinite_iff _).1 hfin)
      (fmul_ne_zero ht0 hfs.one_le hfsf htz)

/-- A level that a stage lowered, and that is above the stage's target, lies between the two
(41_envelope R157, R159). -/
theorem stepDown_range {e : Env} {target : Number} (hl : inUnit e.level = true)
    (hr : rateOk e.rate = true) (ht : inUnit target = true)
    (habove : fle (stepDown .binary32 target e).toWord target.toWord = false) :
    inUnit (stepDown .binary32 target e) = true := by
  obtain ⟨hl0, hl1⟩ := (inUnit_iff _).1 hl
  obtain ⟨ht0, -⟩ := (inUnit_iff _).1 ht
  have hntgt := notNaN_of_fle_right ht0
  rw [stepDown] at habove ⊢
  split at habove
  case h_1 => rw [fle_refl hntgt] at habove; exact absurd habove (by decide)
  case h_2 x hx =>
    rw [hx] at hr
    have hle : fle (fsub e.level.toWord x.toWord) e.level.toWord = true :=
      fsub_fle_self hl0 (inUnit_isFinite hl) hr
    have hge : fle target.toWord (fsub e.level.toWord x.toWord) = true := by
      have hlt := (fle_false_iff (notNaN_of_fle_left hle) hntgt).1 habove
      exact (fle_iff _ _).2 ⟨hntgt, notNaN_of_fle_left hle, hlt.le⟩
    exact (inUnit_iff _).2 ⟨fle_trans ht0 hge, fle_trans hle hl1⟩

/-- A level that a stage raised, and that is below 1, is in range (41_envelope R156). -/
theorem stepUp_range {e : Env} (hl : inUnit e.level = true) (hr : rateOk e.rate = true)
    (hbelow : fle one32 (stepUp .binary32 one e).toWord = false) :
    inUnit (stepUp .binary32 one e) = true := by
  obtain ⟨hl0, -⟩ := (inUnit_iff _).1 hl
  rw [stepUp] at hbelow ⊢
  split at hbelow
  case h_1 => exact absurd hbelow (by decide)
  case h_2 x hx =>
    rw [hx] at hr
    have h0 : fle zero32 (fadd e.level.toWord x.toWord) = true := fadd_nonneg hl0 hr
    have hlt := (fle_false_iff rfl (notNaN_of_fle_right h0)).1 hbelow
    exact (inUnit_iff _).2 ⟨h0, (fle_iff _ _).2 ⟨notNaN_of_fle_right h0, rfl, hlt.le⟩⟩

section
variable {nx : Numerics} {fs : Number} {e : Env}

theorem inUnit_zero : inUnit zero = true := by decide
theorem inUnit_one : inUnit one = true := by decide
theorem phaseOk_zero : phaseOk zero = true := by decide

/-- The distance from a sustain level up to 1. -/
theorem one_sub_range {x : Number} (h : inUnit x = true) :
    fle zero32 (fsub one32 x.toWord) = true ∧ isFinite (fsub one32 x.toWord) = true := by
  obtain ⟨h0, h1⟩ := (inUnit_iff x).1 h
  have hsub := fsub_between (by decide) h0 (by decide) h1
  exact ⟨hsub.1, isFinite_of_fle hsub.1 hsub.2 (by decide)⟩

theorem attackStep_ok (hfs : AcceptedRate fs) (he : EnvOk nx true e) (hs : e.stage ≠ .idle) :
    EnvOk nx true (attackStep nx fs e) := by
  rw [attackStep]
  split
  case isTrue =>
    refine ⟨fun _ => inUnit_one, ?_, by simp, he.sustain, by simp⟩
    rintro rfl
    obtain ⟨h0, hfin⟩ := one_sub_range (he.sustain rfl rfl)
    exact rateOk_envRate _ hfs h0 hfin
  case isFalse hlt =>
    refine ⟨?_, he.rate, fun h => absurd h hs, he.sustain, by simp⟩
    rintro rfl
    exact stepUp_range (he.level rfl) (he.rate rfl) (Bool.eq_false_iff.2 hlt)

theorem decayStep_ok (he : EnvOk nx true e) (hs : e.stage ≠ .idle) : EnvOk nx true (decayStep nx e) := by
  rw [decayStep]
  split
  case isTrue => exact ⟨fun h => he.sustain h rfl, he.rate, by simp, he.sustain, by simp⟩
  case isFalse hlt =>
    refine ⟨?_, he.rate, fun h => absurd h hs, he.sustain, by simp⟩
    rintro rfl
    exact stepDown_range (he.level rfl) (he.rate rfl) (he.sustain rfl rfl) (by simpa using hlt)

theorem sustainStep_ok (he : EnvOk nx true e) (hs : e.stage ≠ .idle) : EnvOk nx true (sustainStep e) :=
  ⟨fun h => he.sustain h rfl, he.rate, fun h => absurd h hs, he.sustain, by simp⟩

theorem releaseStep_ok (he : EnvOk nx true e) (hs : e.stage ≠ .idle) :
    EnvOk nx true (releaseStep nx e) := by
  rw [releaseStep]
  split
  case isTrue => exact ⟨fun _ => inUnit_zero, he.rate, fun _ => rfl, he.sustain, by simp⟩
  case isFalse hlt =>
    refine ⟨?_, he.rate, fun h => absurd h hs, he.sustain, by simp⟩
    rintro rfl
    exact stepDown_range (he.level rfl) (he.rate rfl) inUnit_zero (by simpa using hlt)

/-- One sample keeps the envelope's invariant (41_envelope R155 to R159). -/
theorem envNext_ok (hfs : AcceptedRate fs) (he : EnvOk nx true e) : EnvOk nx true (envNext nx fs e) := by
  rw [envNext]
  split
  case h_1 => exact he
  case h_2 hs => exact attackStep_ok hfs he (by simp [hs])
  case h_3 hs => exact decayStep_ok he (by simp [hs])
  case h_4 hs => exact sustainStep_ok he (by simp [hs])
  case h_5 hs => exact releaseStep_ok he (by simp [hs])

theorem envNoteOn_ok (hfs : AcceptedRate fs) (he : EnvOk nx true e) : EnvOk nx true (envNoteOn nx fs e) := by
  refine ⟨he.level, ?_, by simp [envNoteOn], he.sustain, by simp⟩
  rintro rfl
  exact rateOk_envRate _ hfs (by decide) (by decide)

/-- A note-off leaves an idle envelope, and puts another one in RELEASE. -/
theorem envNoteOff_stage (nx : Numerics) (fs : Number) (e : Env) :
    (envNoteOff nx fs e).stage = if e.stage = .idle then .idle else .release := by
  unfold envNoteOff; split <;> simp_all

theorem envNoteOff_ok (hfs : AcceptedRate fs) (he : EnvOk nx true e) :
    EnvOk nx true (envNoteOff nx fs e) := by
  rw [envNoteOff]
  split
  case isTrue => exact he
  case isFalse =>
    refine ⟨he.level, ?_, by simp, he.sustain, by simp⟩
    rintro rfl
    obtain ⟨h0, -⟩ := (inUnit_iff _).1 (he.level rfl)
    exact rateOk_envRate _ hfs h0 (inUnit_isFinite (he.level rfl))

/-- A LATCH with a sustain level in range, which makes the envelope a latched one. -/
theorem envUpdate_ok {latched : Bool} {p : EnvParams} (hp : nx = .binary32 → inUnit p.s = true)
    (he : EnvOk nx latched e) : EnvOk nx true (envUpdate p e) :=
  ⟨he.level, he.rate, he.idle, fun h _ => hp h, by simp⟩

theorem envPrepared_ok (nx : Numerics) (p : EnvParams) : EnvOk nx false (envPrepared p) :=
  ⟨fun _ => inUnit_zero, fun _ => rfl, fun _ => rfl, by simp, fun _ => rfl⟩

end

/-! ### Voices -/

section
variable {cfg : Cfg} {fs : Number} {v : Voice}

theorem voiceIsActive_iff (v : Voice) : voiceIsActive v = true ↔ v.vstate ≠ .idle := by
  simp [voiceIsActive]

theorem voiceNoteOn_ok (f : Number) (hfs : AcceptedRate fs) (hv : VoiceOk cfg.numerics true v) :
    VoiceOk cfg.numerics true (voiceNoteOn cfg fs f v) where
  phases _ k := by rw [voiceNoteOn, Four.get_map]; exact phaseOk_zero
  envs k := by rw [voiceNoteOn, Four.get_map]; exact envNoteOn_ok hfs (hv.envs k)
  filterEnv := envNoteOn_ok hfs hv.filterEnv
  active _ := by simp [voiceNoteOn, Four.map, envNoteOn]
  unlatched := by simp

theorem voiceNoteOff_ok (tail : Bool) {nx : Numerics} (hfs : AcceptedRate fs) (hv : VoiceOk nx true v) :
    VoiceOk nx true (voiceNoteOff nx fs tail v) := by
  rw [voiceNoteOff]
  split
  case isTrue => exact hv
  case isFalse hact =>
    refine ⟨hv.phases, fun k => ?_, envNoteOff_ok hfs hv.filterEnv, fun _ => ?_, by simp⟩
    · rw [Four.get_map]; exact envNoteOff_ok hfs (hv.envs k)
    · have hk1 : v.env.k1.stage ≠ .idle := hv.active ((voiceIsActive_iff v).2 hact)
      simp [Four.map, envNoteOff_stage, hk1]

/-- The filter is no part of the voice's invariant. -/
theorem VoiceOk.setFilt {nx : Numerics} {latched : Bool} (f : Filt) (hv : VoiceOk nx latched v) :
    VoiceOk nx latched { v with filt := f } :=
  ⟨hv.phases, hv.envs, hv.filterEnv, hv.active, hv.unlatched⟩

/-- The routing renders each oscillator once, with some modulation input (43_router R200). -/
theorem route_osc (cfg : Cfg) (fs : Number) (a : Algo) (e : Four Number) (o : Four Osc) (k : OscId) :
    ∃ m, (route cfg fs a e o).1.get k = oscAdvance cfg fs m (o.get k) := by
  cases k <;> exact ⟨_, rfl⟩

/-- A rendered voice ends with its first envelope (44_voice R232). -/
theorem voiceRender_vstate (cfg : Cfg) (fs : Number) (p : Snapshot) (v : Voice) :
    (voiceRender cfg fs p v).1.vstate
      = if (voiceRender cfg fs p v).1.env.k1.stage = .idle then .idle else v.vstate := rfl

/-- One sample keeps the voice's invariant (44_voice R229 to R232). -/
theorem voiceRender_ok (p : Snapshot) (hfs : AcceptedRate fs) (hv : VoiceOk cfg.numerics true v) :
    VoiceOk cfg.numerics true (voiceRender cfg fs p v).1 where
  phases hnx k := by
    obtain ⟨m, hm⟩ := route_osc cfg fs p.algo
      (envValues v.env (v.env.map (envNext cfg.numerics fs))) v.osc k
    rw [voiceRender, hm]
    simp only [oscAdvance, hnx]
    exact phaseOk_wrap _
  envs k := by rw [voiceRender, Four.get_map]; exact envNext_ok hfs (hv.envs k)
  filterEnv := envNext_ok hfs hv.filterEnv
  active hact hidle := by
    rw [voiceIsActive_iff, voiceRender_vstate, if_pos hidle] at hact
    exact hact rfl
  unlatched := by simp

/-- The snapshot's sustain levels are in [0, 1] (10_state R33). -/
structure SustainOk (p : Snapshot) : Prop where
  env : ∀ k, inUnit (p.env.get k).s = true
  fenv : inUnit p.fenv.s = true

theorem voiceApply_ok {p : Snapshot} {latched : Bool} (hp : cfg.numerics = .binary32 → SustainOk p)
    (hv : VoiceOk cfg.numerics latched v) : VoiceOk cfg.numerics true (voiceApply cfg fs p v) where
  phases hnx k := by rw [voiceApply, Four.get_build]; exact hv.phases hnx k
  envs k := by
    rw [voiceApply, Four.get_build]
    exact envUpdate_ok (fun h => (hp h).env k) (hv.envs k)
  filterEnv := envUpdate_ok (fun h => (hp h).fenv) hv.filterEnv
  active := hv.active
  unlatched := by simp

theorem voicePrepared_ok (nx : Numerics) (draw v : Nat) : VoiceOk nx false (voicePrepared draw v) where
  phases _ k := by rw [voicePrepared, Four.get_build]; exact phaseOk_zero
  envs k := by rw [voicePrepared, Four.get_build]; exact envPrepared_ok nx _
  filterEnv := envPrepared_ok nx _
  active h := absurd h (by simp [voiceIsActive, voicePrepared])
  unlatched _ := rfl

/-- A voice after one sample: rendered when active (46_commands R283). -/
def voiceSampled (cfg : Cfg) (fs : Number) (p : Snapshot) (v : Voice) : Voice :=
  if voiceIsActive v then (voiceRender cfg fs p v).1 else v

theorem mixVoices_voices (cfg : Cfg) (fs : Number) (p : Snapshot) (vs : List Voice) (acc : Two Number) :
    (mixVoices cfg fs p vs acc).1 = vs.map (voiceSampled cfg fs p) := by
  induction vs generalizing acc with
  | nil => rfl
  | cons v vs ih => rw [mixVoices, List.map_cons, voiceSampled]; split <;> simp [ih]

theorem voiceSampled_ok (p : Snapshot) (hfs : AcceptedRate fs) (hv : VoiceOk cfg.numerics true v) :
    VoiceOk cfg.numerics true (voiceSampled cfg fs p v) := by
  rw [voiceSampled]
  split
  · exact voiceRender_ok p hfs hv
  · exact hv

end

end Sys2Proof.Machine
end

section
/-! The snapshot of a LATCH: what it converts, and the ranges of its numbers (10_state R33; 46_commands R272
to R274). -/

namespace Sys2Proof.Machine

open Sys2Proof

/-! ### The integers of the conversion's ranges, as binary32 numbers -/

theorem numOfNat_ten : numOfNat 10 = .single 0x41200000#32 := by decide +kernel
theorem numOfNat_sixteen : numOfNat 16 = .single 0x41800000#32 := by decide +kernel
theorem numOfNat_twenty : numOfNat 20 = .single 0x41A00000#32 := by decide +kernel
theorem numOfNat_hundred : numOfNat 100 = .single 0x42C80000#32 := by decide +kernel
theorem numOfNat_thousand : numOfNat 1000 = .single 0x447A0000#32 := by decide +kernel
theorem numOfNat_twoThousand : numOfNat 2000 = .single 0x44FA0000#32 := by decide +kernel
theorem numOfNat_sixThousand : numOfNat 6000 = .single 0x45BB8000#32 := by decide +kernel
theorem numOfNat_twentyThousand : numOfNat 20000 = .single 0x469C4000#32 := by decide +kernel
theorem num32_hundredth : num32 1 100 = 0x3C23D70A#32 := by decide +kernel

/-! ### The checks of LATCH (46_commands R272) -/

/-- LATCH accepts a local copy exactly when every register is written and every binary32 one finite. -/
theorem checkParams_eq_ok_iff (b : Shadow) :
    checkParams b = .ok () ↔
      (∀ r, (b.get r).written = true) ∧
        ∀ r, regKind r = .binary32 → isFinite (b.get r).value = true := by
  have hw : shadowRegs.find? (fun r => !(b.get r).written) = none ↔ ∀ r, (b.get r).written = true := by
    simp [List.find?_eq_none, mem_shadowRegs]
  have hf : shadowRegs.find? (isNonfiniteReg b) = none ↔
      ∀ r, regKind r = .binary32 → isFinite (b.get r).value = true := by
    simp [List.find?_eq_none, mem_shadowRegs, isNonfiniteReg]
  rw [checkParams, ← hw, ← hf]
  split
  case h_1 r h => simp [h]
  case h_2 h => split <;> simp_all

/-- A LATCH that would succeed, and that no HOST_CTRL write overlaps, converts the registers. -/
theorem exec_latch_of_latchReady {s : State} (h : s.LatchReady) :
    exec .latch s = .next (latchState (convert s.cfg.numerics s.shadow) s) := by
  have hcopy := latchCopy_quiet h.quiet
  have hland : latchLanded s = s := by rw [latchLanded, hcopy, ← h.quiet]
  have hcheck : checkParams s.shadow = .ok () := (checkParams_eq_ok_iff _).2 ⟨h.written, h.finite⟩
  have hexec : exec .latch s = execLatch s := rfl
  rw [hexec, execLatch, whenAccepted_of_ready h.unfaulted h.prepared, hland, hcopy, latchBody, hcheck,
    settle_ok]

/-- Settles O26: the registers are converted one by one as `convert` says, whose integers are the binary32
numbers of the statement. -/
theorem latchTakesTheSnapshot : Obligations.LatchTakesTheSnapshot := by
  rintro s _ h rfl
  refine ⟨_, exec_latch_of_latchReady h, rfl, rfl, rfl, rfl, ?_, ?_, rfl, rfl, ?_, ?_, ?_, ?_, ?_,
    fun k => ?_⟩
  · rw [← numOfNat_twenty, ← numOfNat_twentyThousand]; rfl
  · rw [← numOfNat_ten]; rfl
  · intro h32
    rw [h32, Numerics.num_binary32, num32_hundredth]
  · rw [← numOfNat_sixThousand, ← numOfNat_thousand]; rfl
  · rw [← numOfNat_sixThousand, ← numOfNat_thousand]; rfl
  · rw [← numOfNat_hundred]; rfl
  · rw [← numOfNat_sixThousand, ← numOfNat_thousand]; rfl
  · rw [← numOfNat_sixteen, ← numOfNat_thousand, ← numOfNat_twoThousand, ← numOfNat_sixThousand,
      ← numOfNat_twenty]
    cases k <;> exact ⟨rfl, rfl, rfl, rfl, rfl, rfl, rfl, rfl⟩

/-! ### Ranges -/

/-- A number lies between two binary32 numbers. -/
def Between (lo hi : Word) (x : Number) : Prop := fle lo x.toWord = true ∧ fle x.toWord hi = true

theorem Between.isFinite {lo hi : Word} {x : Number} (h : Between lo hi x)
    (hlo : Machine.isFinite lo = true) (hhi : Machine.isFinite hi = true) :
    Machine.isFinite x.toWord = true := by
  have h1 := ((fle_iff _ _).1 h.1).2.2
  have h2 := ((fle_iff _ _).1 h.2).2.2
  rw [isFinite_iff] at *
  unfold rank at h1 h2
  split_ifs at h1 h2 <;> omega

/-- Division by a positive number takes a range to the range of the quotients. -/
theorem Between.div {lo hi d : Word} {x : Number} (h : Between lo hi x)
    (hlo : Machine.isFinite lo = true) (hhi : Machine.isFinite hi = true)
    (hd : Machine.isFinite d = true) (hneg : isNeg d = false) (hz : isZero d = false) :
    Between (fdiv lo d) (fdiv hi d) (Numerics.binary32.div x (.single d)) := by
  have hx := h.isFinite hlo hhi
  exact ⟨fdiv_mono hlo hx hd hneg hz h.1, fdiv_mono hx hhi hd hneg hz h.2⟩

section
variable {w : Word} (hw : isFinite w = true)
include hw

theorem clampWord_between {lo hi : Word} (h : fle lo hi = true) :
    Between lo hi (clampWord .binary32 (.single lo) (.single hi) w) :=
  Numerics.clamp_binary32_mem (x := .single w) (lo := .single lo) (hi := .single hi)
    (isNaN_of_isFinite hw) h

/-- Milliseconds in a range are seconds in the range divided by 1000. -/
theorem msToSec_between {lo hi : Word} (hlo : isFinite lo = true) (hhi : isFinite hi = true)
    (h : fle lo hi = true) :
    Between (fdiv lo 0x447A0000#32) (fdiv hi 0x447A0000#32)
      (msToSec .binary32 (.single lo) (.single hi) w) := by
  rw [msToSec, numOfNat_thousand]
  exact (clampWord_between hw h).div hlo hhi (by decide) (by decide) (by decide)

/-- An attack time of 0 to 2000 ms. -/
theorem msToSec_attack : Between 0#32 0x40000000#32 (msToSec .binary32 zero (numOfNat 2000) w) := by
  have h := msToSec_between hw (lo := 0#32) (hi := 0x44FA0000#32) (by decide) (by decide) (by decide)
  have hlo : fdiv 0#32 0x447A0000#32 = 0#32 := by decide +kernel
  have hhi : fdiv 0x44FA0000#32 0x447A0000#32 = 0x40000000#32 := by decide +kernel
  rwa [hlo, hhi, ← numOfNat_twoThousand] at h

/-- A decay or release time of 1 to 6000 ms. -/
theorem msToSec_decay :
    Between 0x3A83126F#32 0x40C00000#32 (msToSec .binary32 one (numOfNat 6000) w) := by
  have h := msToSec_between hw (lo := 0x3F800000#32) (hi := 0x45BB8000#32) (by decide) (by decide)
    (by decide)
  have hlo : fdiv 0x3F800000#32 0x447A0000#32 = 0x3A83126F#32 := by decide +kernel
  have hhi : fdiv 0x45BB8000#32 0x447A0000#32 = 0x40C00000#32 := by decide +kernel
  rwa [hlo, hhi, ← numOfNat_sixThousand] at h

/-- A time of the filter envelope, of 0 to 6000 ms (92_eei_decisions D6). -/
theorem msToSec_fenv : Between 0#32 0x40C00000#32 (msToSec .binary32 zero (numOfNat 6000) w) := by
  have h := msToSec_between hw (lo := 0#32) (hi := 0x45BB8000#32) (by decide) (by decide) (by decide)
  have hlo : fdiv 0#32 0x447A0000#32 = 0#32 := by decide +kernel
  have hhi : fdiv 0x45BB8000#32 0x447A0000#32 = 0x40C00000#32 := by decide +kernel
  rwa [hlo, hhi, ← numOfNat_sixThousand] at h

/-- A percentage is a fraction of 0 to 1. -/
theorem pctToFrac_between : Between 0#32 0x3F800000#32 (pctToFrac .binary32 w) := by
  have h := (clampWord_between hw (lo := 0#32) (hi := 0x42C80000#32) (by decide)).div
    (d := 0x42C80000#32) (by decide) (by decide) (by decide) (by decide) (by decide)
  have hlo : fdiv 0#32 0x42C80000#32 = 0#32 := by decide +kernel
  have hhi : fdiv 0x42C80000#32 0x42C80000#32 = 0x3F800000#32 := by decide +kernel
  rwa [hlo, hhi, ← numOfNat_hundred] at h

/-- A level of -60 to 0 dB is an exponent of -3 to 0, and 10 to it a gain of about 0.001 to 1. -/
theorem dbToGain_between : Between 0x3A83126E#32 0x3F800000#32 (dbToGain .binary32 w) := by
  have h := (clampWord_between hw (lo := 0xC2700000#32) (hi := 0#32) (by decide)).div
    (d := 0x41A00000#32) (by decide) (by decide) (by decide) (by decide) (by decide)
  have hlo : fdiv 0xC2700000#32 0x41A00000#32 = 0xC0400000#32 := by decide +kernel
  have hhi : fdiv 0#32 0x41A00000#32 = 0#32 := by decide +kernel
  rw [hlo, hhi, ← numOfNat_twenty] at h
  exact fexp10_range h.1 h.2

end

/-- The sustain levels of a LATCH's snapshot are in [0, 1]. -/
theorem convert_sustainOk {b : Shadow}
    (hfin : ∀ r, regKind r = .binary32 → isFinite (b.get r).value = true) :
    SustainOk (convert .binary32 b) where
  env k := by
    have h := dbToGain_between (hfin (.osc k .sustainDb) rfl)
    rw [convert, Four.get_map]
    exact (inUnit_iff _).2 ⟨fle_trans (by decide) h.1, h.2⟩
  fenv := (inUnit_iff _).2 (pctToFrac_between (hfin .fenvSustainPct rfl))

/-- Settles O29: each number of the snapshot is a clamp to its range, a quotient of one, or 10 to a number
of [-3, 0]. -/
theorem snapshotStaysInRange : Obligations.SnapshotStaysInRange := by
  intro s t h h32 hexec
  rw [exec_latch_of_latchReady h, h32] at hexec
  injection hexec with hexec
  subst hexec
  refine ⟨?_, ?_, ?_, msToSec_fenv (h.finite .fenvAttackMs rfl), msToSec_fenv (h.finite .fenvDecayMs rfl),
    pctToFrac_between (h.finite .fenvSustainPct rfl), msToSec_fenv (h.finite .fenvReleaseMs rfl),
    fun k => ?_⟩
  · have hc := clampWord_between (h.finite .filtCutoff rfl) (lo := 0x41A00000#32) (hi := 0x469C4000#32)
      (by decide)
    rwa [← numOfNat_twenty, ← numOfNat_twentyThousand] at hc
  · have hc := clampWord_between (h.finite .filtRes rfl) (lo := 0x3F800000#32) (hi := 0x41200000#32)
      (by decide)
    rwa [← numOfNat_ten] at hc
  · have hc := clampWord_between (h.finite .vocSmooth rfl) (lo := num32 1 100) (hi := 0x3F000000#32)
      (by rw [num32_hundredth]; decide)
    rw [← num32_hundredth]
    exact hc
  · have hosc : (latchState (convert .binary32 s.shadow) s).snap.osc.get k
        = convertOsc .binary32 (s.shadow.osc.get k) := Four.get_map _ _ _
    have henv : (latchState (convert .binary32 s.shadow) s).snap.env.get k
        = convertEnv .binary32 (s.shadow.osc.get k) := Four.get_map _ _ _
    rw [hosc, henv]
    refine ⟨?_, ?_, clampWord_between (h.finite (.osc k .gain) rfl) (by decide),
      msToSec_attack (h.finite (.osc k .attackMs) rfl), msToSec_decay (h.finite (.osc k .decayMs) rfl),
      dbToGain_between (h.finite (.osc k .sustainDb) rfl),
      msToSec_decay (h.finite (.osc k .releaseMs) rfl)⟩
    · have hc := clampWord_between (h.finite (.osc k .coarse) rfl) (lo := 0x3F000000#32)
        (hi := 0x41800000#32) (by decide)
      rwa [← numOfNat_sixteen] at hc
    · have hc := clampWord_between (h.finite (.osc k .fine) rfl) (lo := 0#32) (hi := 0x447A0000#32)
        (by decide)
      rwa [← numOfNat_thousand] at hc

end Sys2Proof.Machine
end

section
/-! The block of a FLUSH: how long its output is, which bytes it writes, and what it leaves in the carrier
(46_commands R285 to R288; 45_vocoder R252). -/

namespace Sys2Proof.Machine

open Sys2Proof

/-! ### The length of the output -/

@[simp] theorem filtOutputs_length (nx : Numerics) (f : Filt) (xs : List Number) :
    (filtOutputs nx f xs).length = xs.length := by
  induction xs generalizing f with
  | nil => rfl
  | cons x xs ih => simp [filtOutputs, ih]

theorem addBand_length (nx : Numerics) (gain : Number) (f : Filt) {car : List Number} {out : List Word}
    (h : out.length = car.length) : (addBand nx gain f car out).length = car.length := by
  simp [addBand, h]

/-- The bands keep the length of both channels. -/
theorem vocOut_length (cfg : Cfg) (f : Number) (modulator : List Number) {car : Two (List Number)}
    (bands : List Band) {out : Two (List Word)} (h0 : out.c0.length = car.c0.length)
    (h1 : out.c1.length = car.c1.length) :
    (vocOut cfg f modulator car bands out).c0.length = car.c0.length ∧
      (vocOut cfg f modulator car bands out).c1.length = car.c1.length := by
  induction bands generalizing out with
  | nil => exact ⟨h0, h1⟩
  | cons b bs ih => exact ih (addBand_length _ _ _ h0) (addBand_length _ _ _ h1)

/-- Each channel's output has the block's length. -/
theorem blockOut_length (s : State) (c : Chan) : ((blockOut s).get c).length = blockLen s := by
  rw [blockOut]
  split
  case isTrue =>
    have h := vocOut_length s.cfg s.snap.vocSmooth (modulatorOf s) (car := carrierOf s) s.bands
      (out := ⟨List.replicate (modulatorOf s).length 0#32, List.replicate (modulatorOf s).length 0#32⟩)
      (by simp [modulatorOf, carrierOf]) (by simp [modulatorOf, carrierOf])
    cases c
    · exact h.1.trans (by simp [carrierOf])
    · exact h.2.trans (by simp [carrierOf])
  case isFalse => cases c <;> simp [Two.get, carrierOf]

/-! ### The bytes written -/

/-- A FLUSH writes OUT[0], OUT[1] and MON below N, and no other byte. -/
theorem readByte_blockMem_outside {s : State} (hw : s.mem.wf = true) {a : Nat}
    (ha : ¬InBlock (blockLen s) a) : readByte (blockMem s) a = readByte s.mem a := by
  have h0 : (blockOut s).c0.length = blockLen s := blockOut_length s .c0
  have h1 : (blockOut s).c1.length = blockLen s := blockOut_length s .c1
  have hw0 := writeWords_wf (blockOut s).c0 (outBase .c0) hw
  have hw1 := writeWords_wf (blockOut s).c1 (outBase .c1) hw0
  have hOut0 : outBase .c0 = 0x30000 := rfl
  have hOut1 : outBase .c1 = 0x40000 := rfl
  have hMon : monBase = 0x50000 := rfl
  unfold InBlock at ha
  rw [blockMem, readByte_writeWords_outside _ _ _ hw1 (by omega),
    readByte_writeWords_outside _ _ _ hw0 (by omega), readByte_writeWords_outside _ _ _ hw (by omega)]

/-- Element n of MON and of OUT[0] after a FLUSH: the output's word. -/
theorem readWord_blockMem {s : State} (hw : s.mem.wf = true) (hlen : blockLen s ≤ 16384) {n : Nat}
    (hn : n < (blockOut s).c0.length) :
    readWord (blockMem s) (outBase .c0 + 4 * n) = (blockOut s).c0[n] ∧
      readWord (blockMem s) (monBase + 4 * n) = (blockOut s).c0[n] := by
  have h0 : (blockOut s).c0.length = blockLen s := blockOut_length s .c0
  have h1 : (blockOut s).c1.length = blockLen s := blockOut_length s .c1
  have hw0 := writeWords_wf (blockOut s).c0 (outBase .c0) hw
  have hw1 := writeWords_wf (blockOut s).c1 (outBase .c1) hw0
  have hOut0 : outBase .c0 = 0x30000 := rfl
  have hOut1 : outBase .c1 = 0x40000 := rfl
  have hMon : monBase = 0x50000 := rfl
  constructor
  · rw [blockMem, readWord_writeWords_outside _ _ _ hw1 (by omega),
      readWord_writeWords_outside _ _ _ hw0 (by omega), readWord_writeWords _ _ _ hw hn]
  · rw [blockMem, readWord_writeWords _ _ _ hw1 hn]

theorem blockMem_wf {s : State} (hw : s.mem.wf = true) : (blockMem s).wf = true :=
  writeWords_wf _ _ (writeWords_wf _ _ (writeWords_wf _ _ hw))

/-! ### The carrier -/

/-- The elements below n are cleared, the others kept. -/
theorem sparseGet_clearCarrier {car : List (Nat × Number)} (hw : sparseWf zero car = true) (n k : Nat) :
    sparseGet zero (clearCarrier n car) k = if k < n then zero else sparseGet zero car k := by
  rw [clearCarrier, sparseGet_fill _ _ _ hw]
  by_cases hk : k < n <;> simp [hk]

theorem clearCarrier_wf {car : List (Nat × Number)} (n : Nat) (hw : sparseWf zero car = true) :
    sparseWf zero (clearCarrier n car) = true := sparseFill_wf _ _ hw

/-! ### The state after a FLUSH -/

theorem flushState_of_pos_eq_zero {s : State} (h : blockLen s = 0) : flushState s = s := by
  rw [flushState, if_pos h]

theorem flushState_of_pos_ne_zero {s : State} (h : blockLen s ≠ 0) :
    flushState s = { s with
      bands := blockBands s
      mem := blockMem s
      car := ⟨clearCarrier (blockLen s) s.car.c0, clearCarrier (blockLen s) s.car.c1⟩
      ctl := { s.ctl with pos := 0#16, monLen := s.ctl.pos }
      outLen := max s.outLen (blockLen s)
      draw := s.draw + 1 } := by
  rw [flushState, if_neg h]

@[simp] theorem blockBands_length (s : State) : (blockBands s).length = s.bands.length := by
  unfold blockBands vocBands; split <;> simp

end Sys2Proof.Machine
end

section
/-! The machine's invariant: every step keeps it. -/

namespace Sys2Proof.Machine

open Sys2Proof

/-! ### Updates that the invariant does not see, and its parts by field -/

theorem faultBits_range (code : FaultCode) :
    1 ≤ (faultBits code).toNat ∧ (faultBits code).toNat ≤ 10 := by
  cases code <;> decide

section
variable {s t : State} (h : s.Inv)
include h

/-- The invariant does not speak of the registers, the snapshot, and the model's inputs. -/
theorem State.Inv.frame (e : t = { s with
      snap := t.snap, shadow := t.shadow, prepRate := t.prepRate, prepMaxBlock := t.prepMaxBlock,
      host := t.host, ctrl := t.ctrl, rdata := t.rdata, draw := t.draw }) : t.Inv := by
  rw [e]
  exact ⟨h.voiceCount, h.bandCount, h.blockHw, h.ctl, h.voices, h.mem, h.inW, h.car, h.carClear,
    h.outLen, h.monLen⟩

/-- New voices and control fields at the same block position. -/
theorem State.Inv.setVoicesCtl {vs : List Voice} {c : Ctl} (hlen : vs.length = s.voices.length)
    (hvs : ∀ v ∈ vs, VoiceOk s.cfg.numerics c.latched v) (hc : CtlOk s.cfg.maxBlockHw c)
    (hpos : c.pos = s.ctl.pos) (hmon : c.monLen = s.ctl.monLen) :
    State.Inv { s with voices := vs, ctl := c } where
  voiceCount := by rw [numVoices, hlen]; exact h.voiceCount
  bandCount := h.bandCount
  blockHw := h.blockHw
  ctl := hc
  voices := hvs
  mem := h.mem
  inW := h.inW
  car := h.car
  carClear c' n hn := h.carClear c' n (by simpa [hpos] using hn)
  outLen := h.outLen
  monLen := by simpa [hmon] using h.monLen

/-- One voice changed by an operation that keeps its invariant. -/
theorem State.Inv.modifyVoice (v : Nat) {f : Voice → Voice}
    (hf : ∀ u, VoiceOk s.cfg.numerics s.ctl.latched u → VoiceOk s.cfg.numerics s.ctl.latched (f u)) :
    (Machine.modifyVoice v f s).Inv := by
  refine h.setVoicesCtl (modifyAt_length f s.voices v) (fun u hu => ?_) h.ctl rfl rfl
  rcases mem_modifyAt hu with hu | ⟨u', hu', rfl⟩
  · exact h.voices u hu
  · exact hf u' (h.voices u' hu')

theorem State.Inv.setMonFreq (f : Number) : State.Inv { s with ctl := { s.ctl with monFreq := f } } :=
  h.setVoicesCtl rfl h.voices
    ⟨h.ctl.pos, h.ctl.maxBlock, h.ctl.rate, h.ctl.latched, h.ctl.noFault, h.ctl.fault⟩ rfl rfl

/-- A recorded fault has one of the ten codes (60_exceptions R300). -/
theorem State.Inv.raiseFault (code : FaultCode) (info : Word) :
    (Machine.raiseFault code info s).Inv := by
  rw [Machine.raiseFault]
  split
  case isTrue => exact h
  case isFalse =>
    exact h.setVoicesCtl rfl h.voices
      ⟨h.ctl.pos, h.ctl.maxBlock, h.ctl.rate, h.ctl.latched, by simp, fun _ => faultBits_range code⟩
      rfl rfl

theorem State.Inv.latchLanded : (Machine.latchLanded s).Inv := h.frame (by simp only [Machine.latchLanded])

/-- Every voice takes the snapshot, and LATCH is recorded (46_commands R272, R275). -/
theorem State.Inv.latchState {p : Snapshot} (hp : s.ctl.prepared = true)
    (hs : s.cfg.numerics = .binary32 → SustainOk p) : (Machine.latchState p s).Inv := by
  have hvc : State.Inv { s with
      voices := s.voices.map (voiceApply s.cfg s.ctl.fs p), ctl := { s.ctl with latched := true } } := by
    refine h.setVoicesCtl (by simp) (fun v hv => ?_)
      ⟨h.ctl.pos, h.ctl.maxBlock, h.ctl.rate, fun _ => hp, h.ctl.noFault, h.ctl.fault⟩ rfl rfl
    obtain ⟨u, hu, rfl⟩ := List.mem_map.1 hv
    exact voiceApply_ok hs (h.voices u hu)
  exact hvc.frame rfl

/-- A host write to IN, a register, or a target that takes none. -/
theorem State.Inv.storeTarget (w : Word) (target : Target) : (Machine.storeTarget w s target).Inv := by
  cases target with
  | input c n =>
    refine ⟨h.voiceCount, h.bandCount, h.blockHw, h.ctl, h.voices, writeWord_wf _ _ h.mem, fun d => ?_,
      h.car, h.carClear, h.outLen, h.monLen⟩
    by_cases hd : d = c
    · subst hd
      rw [Machine.storeTarget, storeIn, Two.get_set_self]
      exact sparseSet_wf _ _ (h.inW d)
    · rw [Machine.storeTarget, storeIn, Two.get_set_of_ne _ _ hd]
      exact h.inW d
  | _ => exact h.frame rfl

end

/-! ### RENDER -/

/-- What one sample keeps of the voices and the carrier; from block index i on nothing is in the carrier. -/
structure RenderOk (i : Nat) (s : State) : Prop where
  voices : ∀ v ∈ s.voices, VoiceOk s.cfg.numerics true v
  car : ∀ c, sparseWf zero (s.car.get c) = true
  carClear : ∀ c n, i ≤ n → carGet s c n = zero

@[simp] theorem renderSample_voices (i : Nat) (s : State) :
    (renderSample i s).voices = s.voices.map (voiceSampled s.cfg s.ctl.fs s.snap) :=
  mixVoices_voices _ _ _ _ _

/-- The sums of the sample at block index i, for each channel (46_commands R283). -/
def sampleSums (i : Nat) (s : State) : Two Number :=
  (mixVoices s.cfg s.ctl.fs s.snap s.voices ⟨carGet s .c0 i, carGet s .c1 i⟩).2

theorem renderSample_car (i : Nat) (s : State) (c : Chan) :
    (renderSample i s).car.get c = sparseSet zero (s.car.get c) i ((sampleSums i s).get c) := by
  cases c <;> rfl

theorem renderSample_ok {i : Nat} {s : State} (hfs : AcceptedRate s.ctl.fs) (h : RenderOk i s) :
    RenderOk (i + 1) (renderSample i s) where
  voices v hv := by
    rw [renderSample_voices, List.mem_map] at hv
    obtain ⟨u, hu, rfl⟩ := hv
    exact voiceSampled_ok s.snap hfs (h.voices u hu)
  car c := by rw [renderSample_car]; exact sparseSet_wf _ _ (h.car c)
  carClear c n hn := by
    rw [carGet, renderSample_car, sparseGet_set (h.car c), if_neg (by omega)]
    exact h.carClear c n (by omega)

theorem renderLoop_ok (k : Nat) {i : Nat} {s : State} (hfs : AcceptedRate s.ctl.fs)
    (h : RenderOk i s) : RenderOk (i + k) (renderLoop k i s) := by
  induction k generalizing i s with
  | zero => exact h
  | succ k ih =>
    have hk := ih (s := renderSample i s) hfs (renderSample_ok hfs h)
    rwa [Nat.add_assoc, Nat.add_comm 1 k] at hk

@[simp] theorem renderLoop_voices_length (k i : Nat) (s : State) :
    (renderLoop k i s).voices.length = s.voices.length := by
  induction k generalizing i s with
  | zero => rfl
  | succ k ih => rw [renderLoop, ih]; simp

@[simp] theorem renderState_voices (count : BitVec 16) (s : State) :
    (renderState count s).voices = (renderLoop count.toNat s.ctl.pos.toNat s).voices := rfl

@[simp] theorem renderState_ctl (count : BitVec 16) (s : State) :
    (renderState count s).ctl = { s.ctl with pos := s.ctl.pos + count } := by
  rw [renderState]; simp

@[simp] theorem prepareState_latched (s : State) : (prepareState s).ctl.latched = false := rfl

@[simp] theorem prepareState_faulted (s : State) : (prepareState s).ctl.faulted = false := rfl

section
variable {s : State} (h : s.Inv)
include h

theorem State.Inv.acceptedRate (hp : s.ctl.prepared = true) : AcceptedRate s.ctl.fs := h.ctl.rate hp

theorem State.Inv.renderState {count : BitVec 16} (hr : s.Ready)
    (hb : s.ctl.pos.toNat + count.toNat ≤ s.ctl.maxBlock.toNat) :
    (Machine.renderState count s).Inv := by
  have hok : RenderOk (s.ctl.pos.toNat + count.toNat) (renderLoop count.toNat s.ctl.pos.toNat s) :=
    renderLoop_ok _ (h.acceptedRate hr.prepared) ⟨hr.latched ▸ h.voices, h.car, h.carClear⟩
  have hpos : (s.ctl.pos + count).toNat = s.ctl.pos.toNat + count.toNat := by
    have := s.ctl.maxBlock.isLt
    rw [BitVec.toNat_add]; omega
  exact {
    voiceCount := by simpa [numVoices] using h.voiceCount
    bandCount := by simpa using h.bandCount
    blockHw := by simpa using h.blockHw
    ctl := by
      simp only [renderState_ctl, renderState_cfg]
      exact ⟨by simpa only [hpos] using hb, h.ctl.maxBlock, h.ctl.rate, h.ctl.latched, h.ctl.noFault,
        h.ctl.fault⟩
    voices := by simpa [hr.latched] using hok.voices
    mem := by simpa using h.mem
    inW := by simpa using h.inW
    car := hok.car
    carClear := fun c n hn => hok.carClear c n (by simpa only [renderState_ctl, hpos] using hn)
    outLen := by simpa using h.outLen
    monLen := by simpa using h.monLen }

/-! ### FLUSH and PREPARE -/

theorem State.Inv.blockLen_le : blockLen s ≤ s.cfg.maxBlockHw := h.ctl.pos.trans h.ctl.maxBlock

theorem State.Inv.flushState : (Machine.flushState s).Inv := by
  by_cases hlen : blockLen s = 0
  · rwa [flushState_of_pos_eq_zero hlen]
  rw [flushState_of_pos_ne_zero hlen]
  exact {
    voiceCount := h.voiceCount
    bandCount := by simpa using h.bandCount
    blockHw := h.blockHw
    ctl := ⟨Nat.zero_le _, h.ctl.maxBlock, h.ctl.rate, h.ctl.latched, h.ctl.noFault, h.ctl.fault⟩
    voices := h.voices
    mem := blockMem_wf h.mem
    inW := h.inW
    car := fun c => by
      have hclear := clearCarrier_wf (blockLen s) (h.car c)
      cases c <;> exact hclear
    carClear := fun c n _ => by
      have hclear := sparseGet_clearCarrier (h.car c) (blockLen s) n
      have hbeyond : ¬n < blockLen s → sparseGet zero (s.car.get c) n = zero :=
        fun hn => h.carClear c n (Nat.le_of_not_lt hn)
      rw [ite_eq_left_iff.2 hbeyond] at hclear
      cases c <;> exact hclear
    outLen := max_le h.outLen h.blockLen_le
    monLen := le_max_right _ _ }

/-- A successful PREPARE needs nothing of the invariant but what no step changes (46_commands R270, R271). -/
theorem State.Inv.prepareState (hok : prepareOk s = true) : (Machine.prepareState s).Inv := by
  simp only [prepareOk, Bool.and_eq_true, decide_eq_true_eq] at hok
  obtain ⟨⟨⟨hmin, hmax⟩, -⟩, hhw⟩ := hok
  exact {
    voiceCount := by simpa [Machine.prepareState, numVoices] using h.voiceCount
    bandCount := by simp [Machine.prepareState]
    blockHw := h.blockHw
    ctl := ⟨Nat.zero_le _, hhw, fun _ => ⟨hmin, hmax⟩, by simp, fun _ => ⟨rfl, rfl⟩, by simp⟩
    voices := fun v hv => by
      obtain ⟨k, -, rfl⟩ := List.mem_map.1 hv
      exact voicePrepared_ok _ _ _
    mem := h.mem
    inW := fun c => by cases c <;> rfl
    car := fun c => by cases c <;> rfl
    carClear := fun c n _ => by cases c <;> rfl
    outLen := Nat.zero_le _
    monLen := Nat.zero_le _ }

end

/-! ### Every step -/

/-- Every instruction keeps the invariant. -/
theorem State.Inv.did {s t : State} {i : Instr} (h : s.Inv) (hd : Did i s t) : t.Inv := by
  cases hd with
  | stored => exact h.frame rfl
  | ignored => exact h
  | refused code info => exact h.raiseFault code info
  | latchRefused code info => exact h.latchLanded.raiseFault code info
  | prepared hok => exact h.prepareState hok
  | latched _ hp hc =>
    refine h.latchLanded.latchState hp fun h32 => ?_
    rw [show s.cfg.numerics = .binary32 from h32]
    exact convert_sustainOk ((checkParams_eq_ok_iff _).1 hc).2
  | notedOn vel note hr =>
    refine State.Inv.setMonFreq (h.modifyVoice _ ?_) _
    rw [hr.latched]
    exact fun u => voiceNoteOn_ok _ (h.acceptedRate hr.prepared)
  | notedOff vel tail hr =>
    refine h.modifyVoice _ ?_
    rw [hr.latched]
    exact fun u => voiceNoteOff_ok tail (h.acceptedRate hr.prepared)
  | filterWasReset => exact h.modifyVoice _ fun u => VoiceOk.setFilt _
  | rendered hr hb => exact h.renderState hr hb
  | flushed => exact h.flushState

theorem State.Inv.busStore {s : State} (h : s.Inv) (a : Addr) (w : Word) : (Machine.busStore a w s).Inv := by
  rw [Machine.busStore]
  split
  · exact h.storeTarget w _
  · exact h

theorem State.Inv.busRead {s : State} (h : s.Inv) (bits : Nat) (a : Addr) :
    (Machine.busRead bits a s).Inv := by
  rw [Machine.busRead]
  split
  · exact h.frame rfl
  · exact (h.raiseFault .busError (a.setWidth 32)).frame rfl

/-- Settles O6: each way a step can go keeps the invariant. -/
theorem stepKeepsTheMachineInvariant : Obligations.StepKeepsTheMachineInvariant := by
  intro s t h hstep
  have hrest : ∀ rest, State.Inv { s with host := rest } := fun rest => h.frame rfl
  cases step_cases hstep with
  | idle => exact h
  | read => exact (hrest _).busRead _ _
  | refusedWrite => exact (hrest _).raiseFault _ _
  | plainWrite => exact (hrest _).busStore _ _
  | ran _ _ _ hd => exact (hrest _).did hd
  | overlapped => exact h.frame rfl

end Sys2Proof.Machine
end

section
/-! What a step does to the configuration, the sample rate and the status flags, once (10_state R21, R34,
R43). -/

namespace Sys2Proof.Machine

open Sys2Proof

/-! ### Command words without a field (30_encoding R97) -/

/-- A word of the format without fields is its opcode. -/
theorem eq_setWidth_opcode {w : Word} (h : w &&& 0xFFFFFFF0#32 = 0#32) : w = (opcode w).setWidth 32 := by
  refine BitVec.eq_of_getLsbD_eq fun i hi => ?_
  have hbit : (w &&& 0xFFFFFFF0#32).getLsbD i = false := by rw [h, BitVec.getLsbD_zero]
  rw [BitVec.getLsbD_setWidth, opcode, BitVec.getLsbD_extractLsb']
  rcases Nat.lt_or_ge i 4 with hlow | hhigh
  · simp [hlow, hi]
  · have hmask : (0xFFFFFFF0#32).getLsbD i = true := by interval_cases i <;> decide
    rw [BitVec.getLsbD_and, hmask, Bool.and_true] at hbit
    simp [hbit, Nat.not_lt.2 hhigh]

/-- PREPARE, LATCH and FLUSH have one word each. -/
theorem eq_instrWord_of_decodeCommand {w : Word} {i : Instr} (h : decodeCommand w = i)
    (hi : i = .prepare ∨ i = .latch ∨ i = .flush) : w = instrWord i := by
  rw [decodeCommand] at h
  split at h
  case isTrue => subst h; simp at hi
  case isFalse hlegal =>
    simp only [isIllegalWord, Bool.or_eq_true, not_or, bne_iff_ne, not_not] at hlegal
    have hmask := hlegal.2
    have hword {n : Nat} (hop : (opcode w).toNat = n)
        (hm : w &&& reservedMask (opcode w) = w &&& 0xFFFFFFF0#32) : w = BitVec.ofNat 32 n := by
      have hw : w = (opcode w).setWidth 32 := eq_setWidth_opcode (hm ▸ hmask)
      rw [hw, ← hop, BitVec.ofNat_toNat]
    split at h <;> subst h
    case h_1 hop => exact hword hop (by rw [reservedMask, hop]; rfl)
    case h_2 hop => exact hword hop (by rw [reservedMask, hop]; rfl)
    case h_6 hop => exact hword hop (by rw [reservedMask, hop]; rfl)
    all_goals simp at hi

/-- A performed access is 32 bits wide. -/
theorem bits_of_writeAccepted {bits : Nat} {a : Addr} {s : State} (h : writeAccepted bits a s = true) :
    bits = 32 := by
  rw [writeAccepted] at h
  split at h
  case h_1 hloc => exact (locate_some hloc).1
  case h_2 => exact absurd h (by simp)

/-- A command that ran was issued by its word. -/
theorem issues_of_decode {s : State} {bits : Nat} {a : Addr} {w : Word} {rest : List Access} {i : Instr}
    (h : s.host = .write bits a w :: rest) (hw : writeAccepted bits a s = true)
    (hd : decode ⟨a, w⟩ = .ok i) (hi : i = .prepare ∨ i = .latch ∨ i = .flush) :
    issues s (instrWord i) := by
  have hs : selectorReg i = none := by rcases hi with rfl | rfl | rfl <;> rfl
  obtain ⟨rfl, hi'⟩ := decode_command hd hs
  rw [← eq_instrWord_of_decodeCommand hi'.symm hi]
  exact ⟨rest, by rw [h, bits_of_writeAccepted hw]⟩

/-! ### The status fields after the shared operations -/

@[simp] theorem raiseFault_fs (code : FaultCode) (info : Word) (s : State) :
    (raiseFault code info s).ctl.fs = s.ctl.fs := by
  unfold raiseFault; split <;> rfl

@[simp] theorem raiseFault_prepared (code : FaultCode) (info : Word) (s : State) :
    (raiseFault code info s).ctl.prepared = s.ctl.prepared := by
  unfold raiseFault; split <;> rfl

@[simp] theorem raiseFault_latched (code : FaultCode) (info : Word) (s : State) :
    (raiseFault code info s).ctl.latched = s.ctl.latched := by
  unfold raiseFault; split <;> rfl

@[simp] theorem raiseFault_monLen (code : FaultCode) (info : Word) (s : State) :
    (raiseFault code info s).ctl.monLen = s.ctl.monLen := by
  unfold raiseFault; split <;> rfl

@[simp] theorem raiseFault_faulted (code : FaultCode) (info : Word) (s : State) :
    (raiseFault code info s).ctl.faulted = true := by
  unfold raiseFault; split <;> simp_all

/-- A bus read leaves the state but for the word returned, or raises BUS_ERROR and returns 0. -/
theorem busRead_cases (bits : Nat) (a : Addr) (s : State) :
    (∃ target, locate s.cfg.maxBlockHw bits a.toNat = some target ∧
      busRead bits a s = { s with rdata := targetWord s target }) ∨
    busRead bits a s = { busError a s with rdata := 0#32 } := by
  rw [busRead]
  split
  case h_1 target hloc => exact .inl ⟨target, hloc, rfl⟩
  case h_2 => exact .inr rfl

/-- A plain write goes to the target of its address. -/
theorem busStore_cases (a : Addr) (w : Word) (s : State) :
    (∃ target, locate s.cfg.maxBlockHw 32 a.toNat = some target ∧
      busStore a w s = storeTarget w s target) ∨
    busStore a w s = s := by
  rw [busStore]
  split
  case h_1 target hloc => exact .inl ⟨target, hloc, rfl⟩
  case h_2 => exact .inr rfl

/-! ### What a step leaves of the configuration and the status -/

/-- t has the configuration, the sample rate and the flags of s, and a fault of s. -/
structure SameStatus (s t : State) : Prop where
  cfg : t.cfg = s.cfg
  voiceCount : t.voices.length = s.voices.length
  fs : t.ctl.fs = s.ctl.fs
  prepared : t.ctl.prepared = s.ctl.prepared
  latched : t.ctl.latched = s.ctl.latched
  faulted : s.ctl.faulted = true → t.ctl.faulted = true

theorem SameStatus.refl (s : State) : SameStatus s s := ⟨rfl, rfl, rfl, rfl, rfl, id⟩

theorem sameStatus_raiseFault (code : FaultCode) (info : Word) (s : State) :
    SameStatus s (raiseFault code info s) := by
  constructor <;> simp

theorem sameStatus_flushState (s : State) : SameStatus s (flushState s) := by
  by_cases hlen : blockLen s = 0
  · rw [flushState_of_pos_eq_zero hlen]; exact .refl s
  · rw [flushState_of_pos_ne_zero hlen]; exact ⟨rfl, rfl, rfl, rfl, rfl, id⟩

/-- An instruction keeps the status, but for a PREPARE and a LATCH that succeed. -/
theorem Did.status {i : Instr} {s t : State} (h : Did i s t) :
    SameStatus s t ∨ (i = .prepare ∧ t = prepareState s) ∨
      (i = .latch ∧ ∃ p, t = latchState p (latchLanded s)) := by
  cases h with
  | stored => exact .inl ⟨rfl, rfl, rfl, rfl, rfl, id⟩
  | ignored => exact .inl (.refl s)
  | refused code info => exact .inl (sameStatus_raiseFault code info s)
  | latchRefused code info => exact .inl (by constructor <;> simp)
  | prepared => exact .inr (.inl ⟨rfl, rfl⟩)
  | latched => exact .inr (.inr ⟨rfl, _, rfl⟩)
  | notedOn => exact .inl ⟨rfl, by simp [noteOnState], rfl, rfl, rfl, id⟩
  | notedOff => exact .inl ⟨rfl, by simp, rfl, rfl, rfl, id⟩
  | filterWasReset => exact .inl ⟨rfl, by simp, rfl, rfl, rfl, id⟩
  | rendered => exact .inl (by constructor <;> simp)
  | flushed => exact .inl (sameStatus_flushState s)

/-- A step keeps the status, but for a PREPARE and a LATCH that succeed. -/
theorem step_status {s t : State} (h : step s = .next t) :
    SameStatus s t ∨
      (issues s 0x00000001#32 ∧ ∃ rest, t = prepareState { s with host := rest }) ∨
      (issues s 0x00000002#32 ∧ ∃ p rest, t = latchState p (latchLanded { s with host := rest })) := by
  cases step_cases h with
  | idle => exact .inl (.refl s)
  | @read bits a rest =>
    rcases busRead_cases bits a { s with host := rest } with ⟨_, -, e⟩ | e <;> rw [e]
    · exact .inl ⟨rfl, rfl, rfl, rfl, rfl, id⟩
    · exact .inl (by constructor <;> simp [busError])
  | refusedWrite => exact .inl (by constructor <;> simp [busError])
  | @plainWrite _ a w rest =>
    rcases busStore_cases a w { s with host := rest } with ⟨target, -, e⟩ | e <;> rw [e]
    · exact .inl (by constructor <;> simp)
    · exact .inl ⟨rfl, rfl, rfl, rfl, rfl, id⟩
  | @ran _ _ _ rest i _ hh hw hd hi =>
    rcases hi.status with hs | ⟨rfl, e⟩ | ⟨rfl, p, e⟩
    · exact .inl ⟨hs.cfg, hs.voiceCount, hs.fs, hs.prepared, hs.latched, hs.faulted⟩
    · exact .inr (.inl ⟨issues_of_decode hh hw hd (by simp), rest, e⟩)
    · exact .inr (.inr ⟨issues_of_decode hh hw hd (by simp), p, rest, e⟩)
  | overlapped => exact .inl ⟨rfl, rfl, rfl, rfl, rfl, id⟩

/-- Settles O8: only a PREPARE that succeeds writes the sample rate, and it takes PREP_RATE. -/
theorem configurationNeverChanges : Obligations.ConfigurationNeverChanges := by
  intro s t h
  rcases step_status h with hs | ⟨hi, rest, rfl⟩ | ⟨-, p, rest, rfl⟩
  · exact ⟨hs.cfg, hs.voiceCount, fun hne => absurd hs.fs hne⟩
  · exact ⟨rfl, by simp [prepareState, numVoices], fun _ => ⟨hi, rfl⟩⟩
  · exact ⟨by simp, by simp [latchState], fun hne => absurd (by simp [latchState]) hne⟩

/-- Settles O9: a PREPARE that succeeds writes all three flags, a LATCH that succeeds sets latched, and
anything else only sets faulted. -/
theorem statusFlagsChangeOnlyAsTabled : Obligations.StatusFlagsChangeOnlyAsTabled := by
  intro s t h
  rcases step_status h with hs | ⟨hi, rest, rfl⟩ | ⟨hi, p, rest, rfl⟩
  · rw [hs.prepared, hs.latched]
    refine ⟨id, fun h0 h1 => ?_, fun h0 h1 => ?_, fun h0 h1 => ?_, fun h0 h1 => ?_⟩
    · simp [h0] at h1
    · simp [h0] at h1
    · simp [h0] at h1
    · simp [hs.faulted h0] at h1
  · exact ⟨fun _ => rfl, fun _ _ => hi, fun _ h1 => absurd h1 (by simp), fun _ _ => hi, fun _ _ => hi⟩
  · refine ⟨id, fun h0 h1 => ?_, fun _ _ => hi, fun _ h1 => ?_, fun h0 h1 => ?_⟩
    · exact absurd (h0.symm.trans h1) (by simp)
    · exact absurd h1 (by simp [latchState])
    · exact absurd (h0.symm.trans h1) (by simp)

end Sys2Proof.Machine
end

section
/-! What a step writes in the sample buffers, once (10_state R36 to R39; 20_memory R64). -/

namespace Sys2Proof.Machine

open Sys2Proof

/-! ### The addresses of IN -/

theorem ite_ne_of_ne {α : Type} {p : Prop} [Decidable p] {a b x : α} (ha : a ≠ x) (hb : b ≠ x) :
    (if p then a else b) ≠ x := by
  split <;> assumption

theorem registerAt_ne_input (a : Nat) (c : Chan) (n : Nat) : registerAt a ≠ some (.input c n) := by
  have hshadow : (shadowAt a).map Target.shadow ≠ some (.input c n) := by
    rw [Ne, Option.map_eq_some_iff]
    rintro ⟨r, -, h⟩
    exact Target.noConfusion h
  rw [registerAt]
  iterate 11 refine ite_ne_of_ne nofun ?_
  exact hshadow

/-- An access that reaches an element of IN is at its address. -/
theorem locate_input {hw bits a : Nat} {c : Chan} {n : Nat} (h : locate hw bits a = some (.input c n)) :
    n < hw ∧ a = inBase c + 4 * n := by
  obtain ⟨-, hal, ⟨-, hr⟩ | ⟨-, hb⟩⟩ := locate_some h
  · exact absurd hr (registerAt_ne_input a c n)
  · rw [bufferAt] at hb
    split at hb
    case isFalse => exact absurd hb (by simp)
    case isTrue hn =>
      split at hb
      case h_1 hreg =>
        simp only [Option.some.injEq, Target.input.injEq] at hb
        obtain ⟨rfl, rfl⟩ := hb
        exact ⟨hn, by rw [inBase]; omega⟩
      case h_2 hreg =>
        simp only [Option.some.injEq, Target.input.injEq] at hb
        obtain ⟨rfl, rfl⟩ := hb
        exact ⟨hn, by rw [inBase]; omega⟩
      all_goals simp at hb

/-! ### What a step writes -/

/-- The memory and the monitor window of t are those of s, or the window is empty. -/
def BuffersKept (s t : State) : Prop :=
  t.mem = s.mem ∧ (t.ctl.monLen = s.ctl.monLen ∨ t.ctl.monLen = 0#16)

/-- A FLUSH wrote its block. -/
def BlockWritten (s t : State) : Prop := t.mem = blockMem s ∧ t.ctl.monLen = s.ctl.pos

/-- The host wrote a word to IN[c][n]. -/
def InputWritten (c : Chan) (n : Nat) (w : Word) (s t : State) : Prop :=
  t.mem = writeWord s.mem (inBase c + 4 * n) w ∧ t.ctl.monLen = s.ctl.monLen

/-- An instruction other than a FLUSH of a block leaves the buffers. -/
theorem Did.buffers {i : Instr} {s t : State} (h : Did i s t) :
    BuffersKept s t ∨ (i = .flush ∧ BlockWritten s t) := by
  cases h with
  | stored => exact .inl ⟨rfl, .inl rfl⟩
  | ignored => exact .inl ⟨rfl, .inl rfl⟩
  | refused code info => exact .inl ⟨by simp, .inl (by simp)⟩
  | latchRefused code info => exact .inl ⟨by simp, .inl (by simp)⟩
  | prepared => exact .inl ⟨rfl, .inr rfl⟩
  | latched => exact .inl ⟨by simp, .inl (by simp [latchState])⟩
  | notedOn => exact .inl ⟨rfl, .inl rfl⟩
  | notedOff => exact .inl ⟨rfl, .inl rfl⟩
  | filterWasReset => exact .inl ⟨rfl, .inl rfl⟩
  | rendered => exact .inl ⟨by simp, .inl (by simp)⟩
  | flushed =>
    by_cases hlen : blockLen s = 0
    · rw [flushState_of_pos_eq_zero hlen]; exact .inl ⟨rfl, .inl rfl⟩
    · rw [flushState_of_pos_ne_zero hlen]; exact .inr ⟨rfl, rfl, rfl⟩

/-- A step leaves the buffers, or writes the block of a FLUSH or one word of IN. -/
theorem step_buffers {s t : State} (h : step s = .next t) :
    BuffersKept s t ∨ (issues s 0x00000006#32 ∧ BlockWritten s t) ∨
      ∃ c n w rest, n < s.cfg.maxBlockHw ∧
        s.host = .write 32 (BitVec.ofNat 20 (inBase c + 4 * n)) w :: rest ∧ InputWritten c n w s t := by
  cases step_cases h with
  | idle => exact .inl ⟨rfl, .inl rfl⟩
  | @read bits a rest =>
    rcases busRead_cases bits a { s with host := rest } with ⟨_, -, e⟩ | e <;> rw [e]
    · exact .inl ⟨rfl, .inl rfl⟩
    · exact .inl ⟨by simp, .inl (by simp [busError])⟩
  | refusedWrite => exact .inl ⟨by simp, .inl (by simp [busError])⟩
  | @plainWrite bits a w rest _ hh hw =>
    rcases busStore_cases a w { s with host := rest } with ⟨target, hloc, e⟩ | e <;> rw [e]
    · cases target with
      | input c n =>
        obtain ⟨hn, ha⟩ := locate_input hloc
        refine .inr (.inr ⟨c, n, w, rest, hn, ?_, rfl, rfl⟩)
        rw [hh, bits_of_writeAccepted hw, ← ha, BitVec.ofNat_toNat, BitVec.setWidth_eq]
      | _ => exact .inl ⟨rfl, .inl rfl⟩
    · exact .inl ⟨rfl, .inl rfl⟩
  | @ran _ _ _ rest i _ hh hw hd hi =>
    rcases hi.buffers with ⟨hm, hl⟩ | ⟨rfl, hm, hl⟩
    · exact .inl ⟨hm, hl⟩
    · exact .inr (.inl ⟨issues_of_decode hh hw hd (by simp), hm, hl⟩)
  | overlapped => exact .inl ⟨rfl, .inl rfl⟩

/-- Settles O12: outside the block of a FLUSH and the word a host write stores, every byte is kept. -/
theorem onlyFlushAndHostWritesStore : Obligations.OnlyFlushAndHostWritesStore := by
  intro s t a hinv hstep hne
  rcases step_buffers hstep with ⟨hm, -⟩ | ⟨hi, hm, -⟩ | ⟨c, n, w, rest, hn, hh, hm, -⟩ <;>
    rw [hm] at hne
  · exact absurd rfl hne
  · refine .inl ⟨hi, ?_⟩
    by_contra hout
    exact hne (readByte_blockMem_outside hinv.mem hout)
  · refine .inr ⟨c, n, w, rest, hn, ?_⟩
    rw [readByte_writeWord hinv.mem] at hne
    have hrange := (ite_ne_right_iff.1 hne).1
    exact ⟨hrange.1, hrange.2, hh⟩

/-- Settles O13: a FLUSH writes the same words to OUT[0] and MON, and a host write to IN reaches neither. -/
theorem monitorMirrorsOutputZero : Obligations.MonitorMirrorsOutputZero := by
  intro s t hinv hstep hmirror n hn
  have hhw := hinv.blockHw.2
  rcases step_buffers hstep with ⟨hm, hl⟩ | ⟨-, hm, hl⟩ | ⟨c, k, w, rest, hk, -, hm, hl⟩ <;> rw [hm]
  · rcases hl with hl | hl <;> rw [hl] at hn
    · exact hmirror n hn
    · exact absurd hn (Nat.not_lt_zero n)
  · have hlen : blockLen s ≤ 16384 := hinv.blockLen_le.trans hhw
    have hwords : (blockOut s).c0.length = blockLen s := blockOut_length s .c0
    rw [hl] at hn
    obtain ⟨hout, hmon⟩ := readWord_blockMem hinv.mem hlen (hn.trans_eq hwords.symm)
    exact hmon.trans hout.symm
  · have hbase : inBase c ≤ 0x20000 := by cases c <;> decide
    rw [hl] at hn
    rw [readWord_writeWord_of_disjoint hinv.mem _ (.inr (by omega)),
      readWord_writeWord_of_disjoint hinv.mem _ (.inr (by omega))]
    exact hmirror n hn

end Sys2Proof.Machine
end

section
/-! IN[1] is never read: every instruction takes states that differ only in it to such states (10_state R36;
45_vocoder R254). -/

namespace Sys2Proof.Machine

open Sys2Proof

/-- s with another memory and other written flags of IN[1]. -/
def withIn1 (m : Memory) (w : List (Nat × Bool)) (s : State) : State :=
  { s with mem := m, inW := ⟨s.inW.c0, w⟩ }

theorem EqualOffIn1.exists_withIn1 {s s' : State} (h : EqualOffIn1 s s') :
    ∃ m w, s' = withIn1 m w s ∧
      ∀ a, a < 0x20000 ∨ 0x30000 ≤ a → readByte m a = readByte s.mem a :=
  ⟨_, _, h.rest, h.bytes⟩

/-- An update that reads neither the memory nor the flags of IN[1], and leaves the memory. -/
theorem EqualOffIn1.map {s s' : State} (h : EqualOffIn1 s s') (f : State → State)
    (hf : ∀ m w, f (withIn1 m w s) = withIn1 m w (f s)) (hm : (f s).mem = s.mem) :
    EqualOffIn1 (f s) (f s') := by
  obtain ⟨m, w, rfl, hbytes⟩ := h.exists_withIn1
  rw [hf]
  exact ⟨rfl, fun a ha => (hbytes a ha).trans (by rw [hm])⟩

theorem renderLoop_withIn1 (k i : Nat) (m : Memory) (w : List (Nat × Bool)) (s : State) :
    renderLoop k i (withIn1 m w s) = withIn1 m w (renderLoop k i s) := by
  induction k generalizing i s with
  | zero => rfl
  | succ k ih => exact ih (i + 1) (renderSample i s)

/-! ### The shared operations -/

/-- Two commands raise the same fault, or lead to states that differ only in IN[1]. -/
def ResultsAgree : CmdResult → CmdResult → Prop
  | .ok t, .ok t' => EqualOffIn1 t t'
  | .error e, .error e' => e = e'
  | _, _ => False

section
variable {s s' : State} (h : EqualOffIn1 s s')
include h

theorem EqualOffIn1.ctl : s'.ctl = s.ctl := by rw [h.rest]

theorem EqualOffIn1.voices : s'.voices = s.voices := by rw [h.rest]

theorem EqualOffIn1.cfg : s'.cfg = s.cfg := by rw [h.rest]

theorem EqualOffIn1.snap : s'.snap = s.snap := by rw [h.rest]

theorem EqualOffIn1.raiseFault (code : FaultCode) (info : Word) :
    EqualOffIn1 (Machine.raiseFault code info s) (Machine.raiseFault code info s') := by
  refine h.map _ (fun m w => ?_) (raiseFault_mem code info s)
  have hctl : (withIn1 m w s).ctl = s.ctl := rfl
  cases hf : s.ctl.faulted with
  | true => rw [raiseFault_of_faulted hf, raiseFault_of_faulted (hctl ▸ hf)]
  | false => rw [raiseFault_of_unfaulted hf, raiseFault_of_unfaulted (hctl ▸ hf)]; rfl

theorem EqualOffIn1.settle {r r' : CmdResult} (hr : ResultsAgree r r') :
    EqualOffIn1 (Machine.settle s r) (Machine.settle s' r') := by
  cases r <;> cases r'
  case error.error e e' => cases hr; exact h.raiseFault _ _
  case ok.ok => exact hr
  all_goals exact hr.elim

theorem EqualOffIn1.whenAccepted (w : Word) {t t' : State} (ht : EqualOffIn1 t t') :
    EqualOffIn1 (Machine.whenAccepted w s t) (Machine.whenAccepted w s' t') := by
  rw [Machine.whenAccepted, Machine.whenAccepted, h.ctl]
  split
  · exact h
  · split
    · exact ht
    · exact h.raiseFault _ _

theorem EqualOffIn1.checkLatched (w : Word) : checkLatched w s' = checkLatched w s := by
  rw [Machine.checkLatched, Machine.checkLatched, h.ctl]

theorem EqualOffIn1.checkVoice (w : Word) (voice : BitVec 4) :
    checkVoice w voice s' = checkVoice w voice s := by
  rw [Machine.checkVoice, Machine.checkVoice, numVoices, numVoices, h.voices]

theorem EqualOffIn1.voiceCommand (w : Word) (voice : BitVec 4) {effect effect' : Nat → State}
    (he : ∀ v, EqualOffIn1 (effect v) (effect' v)) :
    ResultsAgree (Machine.voiceCommand w voice s effect) (Machine.voiceCommand w voice s' effect') := by
  rw [Machine.voiceCommand, Machine.voiceCommand, h.checkVoice, h.checkLatched]
  cases Machine.checkVoice w voice s with
  | error e => rfl
  | ok v =>
    cases Machine.checkLatched w s with
    | error e => rfl
    | ok u => exact he v

theorem EqualOffIn1.modifyVoice (v : Nat) (f : Voice → Voice) :
    EqualOffIn1 (Machine.modifyVoice v f s) (Machine.modifyVoice v f s') :=
  h.map _ (fun _ _ => rfl) rfl

theorem EqualOffIn1.carrierOf : carrierOf s' = carrierOf s := by
  rw [h.rest]; rfl

/-! ### PREPARE, LATCH and RENDER -/

theorem EqualOffIn1.prepareState : EqualOffIn1 (Machine.prepareState s) (Machine.prepareState s') := by
  obtain ⟨m, w, rfl, hbytes⟩ := h.exists_withIn1
  exact ⟨rfl, hbytes⟩

theorem EqualOffIn1.latchCopy : latchCopy s' = latchCopy s := by
  rw [Machine.latchCopy, Machine.latchCopy, h.rest]

theorem EqualOffIn1.latchLanded : EqualOffIn1 (Machine.latchLanded s) (Machine.latchLanded s') := by
  refine h.map _ (fun m w => ?_) (latchLanded_mem s)
  have hcopy : Machine.latchCopy (withIn1 m w s) = Machine.latchCopy s := by
    simp only [Machine.latchCopy, withIn1]
  rw [Machine.latchLanded, Machine.latchLanded, hcopy]
  simp only [withIn1]

theorem EqualOffIn1.latchBody (copy : Shadow) :
    ResultsAgree (Machine.latchBody copy s) (Machine.latchBody copy s') := by
  rw [Machine.latchBody, Machine.latchBody]
  split
  · rfl
  · rw [h.cfg]
    exact h.map (latchState (convert s.cfg.numerics copy)) (fun _ _ => rfl) rfl

theorem EqualOffIn1.renderState (count : BitVec 16) :
    EqualOffIn1 (Machine.renderState count s) (Machine.renderState count s') :=
  h.map (Machine.renderState count) (fun m w => by
    simp only [Machine.renderState, renderLoop_withIn1]; rfl) (renderState_mem count s)

theorem EqualOffIn1.renderBody (w : Word) (count : BitVec 16) :
    ResultsAgree (Machine.renderBody w count s) (Machine.renderBody w count s') := by
  rw [Machine.renderBody, Machine.renderBody, h.checkLatched, h.ctl]
  cases Machine.checkLatched w s with
  | error e => rfl
  | ok u =>
    by_cases hb : s.ctl.maxBlock.toNat < s.ctl.pos.toNat + count.toNat
    · simp only [if_pos hb]; rfl
    · simp only [if_neg hb]; exact h.renderState count

end

/-! ### FLUSH -/

/-- A block of words makes equal what was equal before. -/
theorem readByte_writeWords_congr (ws : List Word) {m m' : Memory} (k : Nat) {a : Nat} (hw : m.wf = true)
    (hw' : m'.wf = true) (h : readByte m' a = readByte m a) :
    readByte (writeWords m' k ws) a = readByte (writeWords m k ws) a := by
  induction ws generalizing m m' k with
  | nil => exact h
  | cons w ws ih =>
    refine ih (k + 4) (writeWord_wf k w hw) (writeWord_wf k w hw') ?_
    rw [readByte_writeWord hw, readByte_writeWord hw', h]

section
variable {s s' : State} (h : EqualOffIn1 s s') (hinv : s.Inv)
include h hinv

/-- The modulator lies in IN[0] (45_vocoder R254). -/
theorem EqualOffIn1.modulatorOf : modulatorOf s' = modulatorOf s := by
  have hlen := hinv.blockLen_le.trans hinv.blockHw.2
  have hbase : inBase .c0 = 0x10000 := rfl
  rw [Machine.modulatorOf, Machine.modulatorOf, blockLen, h.ctl]
  refine List.map_congr_left fun n hn => ?_
  have hn' : n < blockLen s := List.mem_range.1 hn
  rw [inSample, inSample, inWord, inWord, readWord, readWord, h.bytes _ (.inl (by omega)),
    h.bytes _ (.inl (by omega)), h.bytes _ (.inl (by omega)), h.bytes _ (.inl (by omega))]

theorem EqualOffIn1.blockOut : blockOut s' = blockOut s := by
  have hcar := h.carrierOf
  have hmod := h.modulatorOf hinv
  rw [Machine.blockOut, Machine.blockOut, hcar, hmod, h.rest]

theorem EqualOffIn1.blockBands : blockBands s' = blockBands s := by
  have hcar := h.carrierOf
  have hmod := h.modulatorOf hinv
  rw [Machine.blockBands, Machine.blockBands, hcar, hmod, h.rest]

theorem EqualOffIn1.blockMem (hinv' : s'.Inv) {a : Nat} (ha : a < 0x20000 ∨ 0x30000 ≤ a) :
    readByte (blockMem s') a = readByte (blockMem s) a := by
  have hw0 := fun ws => writeWords_wf ws (outBase .c0) hinv.mem
  have hw0' := fun ws => writeWords_wf ws (outBase .c0) hinv'.mem
  rw [Machine.blockMem, Machine.blockMem, h.blockOut hinv]
  exact readByte_writeWords_congr _ _ (writeWords_wf _ _ (hw0 _)) (writeWords_wf _ _ (hw0' _))
    (readByte_writeWords_congr _ _ (hw0 _) (hw0' _)
      (readByte_writeWords_congr _ _ hinv.mem hinv'.mem (h.bytes a ha)))

theorem EqualOffIn1.flushState (hinv' : s'.Inv) :
    EqualOffIn1 (Machine.flushState s) (Machine.flushState s') := by
  have hlen : blockLen s' = blockLen s := by rw [blockLen, blockLen, h.ctl]
  by_cases h0 : blockLen s = 0
  · rwa [flushState_of_pos_eq_zero h0, flushState_of_pos_eq_zero (hlen.trans h0)]
  · have hbands := h.blockBands hinv
    have hbytes : ∀ a, a < 0x20000 ∨ 0x30000 ≤ a →
        readByte (Machine.blockMem s') a = readByte (Machine.blockMem s) a :=
      fun a => h.blockMem hinv hinv'
    rw [flushState_of_pos_ne_zero h0, flushState_of_pos_ne_zero (hlen ▸ h0), hbands, hlen]
    refine ⟨?_, hbytes⟩
    have hrest := h.rest
    generalize Machine.blockMem s' = mem'
    rw [hrest]

theorem EqualOffIn1.flushBody (hinv' : s'.Inv) (w : Word) :
    ResultsAgree (Machine.flushBody w s) (Machine.flushBody w s') := by
  have hfirst : firstUnwritten s' = firstUnwritten s := by rw [h.rest]; rfl
  have hflush := h.flushState hinv hinv'
  rw [Machine.flushBody, Machine.flushBody, h.checkLatched, h.snap, hfirst]
  cases Machine.checkLatched w s with
  | error e => rfl
  | ok u =>
    cases s.snap.vocEn with
    | false => exact hflush
    | true =>
      cases firstUnwritten s with
      | none => exact hflush
      | some n => rfl

/-! ### Every instruction -/

/-- Every instruction takes states that differ only in IN[1] to such states. -/
theorem EqualOffIn1.exec (hinv' : s'.Inv) (i : Instr) :
    ∃ t t', Machine.exec i s = .next t ∧ Machine.exec i s' = .next t' ∧ EqualOffIn1 t t' := by
  have stored (r : ShadowReg) (w : Word) : EqualOffIn1 (storeShadow r w s) (storeShadow r w s') :=
    h.map _ (fun _ _ => rfl) rfl
  cases i with
  | prepare =>
    refine ⟨_, _, rfl, rfl, h.settle ?_⟩
    have hok : prepareOk s' = prepareOk s := by rw [h.rest]; rfl
    rw [hok]
    split
    · exact h.prepareState
    · rfl
  | latch =>
    refine ⟨_, _, rfl, rfl, h.whenAccepted _ (h.latchLanded.settle ?_)⟩
    rw [h.latchCopy]
    exact h.latchLanded.latchBody _
  | noteOn vel note voice =>
    refine ⟨_, _, rfl, rfl, h.whenAccepted _ (h.settle (h.voiceCommand _ _ fun v => ?_))⟩
    rw [h.cfg]
    exact h.map (noteOnState v _) (fun _ _ => rfl) rfl
  | noteOff vel tail voice =>
    refine ⟨_, _, rfl, rfl, h.whenAccepted _ (h.settle (h.voiceCommand _ _ fun v => ?_))⟩
    rw [h.cfg, h.ctl]
    exact h.modifyVoice _ _
  | filterReset voice =>
    exact ⟨_, _, rfl, rfl, h.whenAccepted _ (h.settle (h.voiceCommand _ _ fun v => h.modifyVoice _ _))⟩
  | render count => exact ⟨_, _, rfl, rfl, h.whenAccepted _ (h.settle (h.renderBody _ count))⟩
  | flush => exact ⟨_, _, rfl, rfl, h.whenAccepted _ (h.settle (h.flushBody hinv hinv' _))⟩
  | illegal w => exact ⟨_, _, rfl, rfl, h.raiseFault _ _⟩
  | _ => exact ⟨_, _, rfl, rfl, stored _ _⟩

end

/-- Settles O15: of IN a FLUSH reads channel 0 alone, and no other instruction reads it. -/
theorem inputOneIsNeverRead : Obligations.InputOneIsNeverRead := by
  intro i s s' t hinv hinv' h hexec
  obtain ⟨u, u', hu, hu', hoff⟩ := h.exec hinv hinv' i
  obtain rfl : u = t := by rw [hu] at hexec; injection hexec
  exact ⟨u', hu', hoff⟩

end Sys2Proof.Machine
end

section
/-! Bus reads: the target of each address of the map, and the word a read returns (20_memory R61 to R71;
46_commands R296). -/

namespace Sys2Proof.Machine

open Sys2Proof

/-! ### The map by address (20_memory R61) -/

/-- The element n of the buffer in the region k of the map. -/
def regionTarget (k n : Nat) : Option Target :=
  match k with
  | 1 => some (.input .c0 n)
  | 2 => some (.input .c1 n)
  | 3 => some (.output .c0 n)
  | 4 => some (.output .c1 n)
  | 5 => some (.monitor n)
  | _ => none

/-- An aligned address of a region names its element, below MAX_BLOCK_HW. -/
theorem locate_region {hw k n : Nat} (hk : 1 ≤ k) (hn : n < hw) (hhw : hw ≤ 16384) :
    locate hw 32 (0x10000 * k + 4 * n) = regionTarget k n := by
  have hdiv : (0x10000 * k + 4 * n) / 0x10000 = k := by omega
  have hmod : (0x10000 * k + 4 * n) % 0x10000 / 4 = n := by omega
  rw [locate, if_neg (by omega), if_neg (by omega), bufferAt, hmod, hdiv, if_pos hn]
  rfl

section
variable {hw n : Nat} (hn : n < hw) (hhw : hw ≤ 16384)
include hn hhw

theorem locate_inBase (c : Chan) : locate hw 32 (inBase c + 4 * n) = some (.input c n) := by
  cases c
  · exact locate_region (k := 1) (by decide) hn hhw
  · exact locate_region (k := 2) (by decide) hn hhw

theorem locate_outBase (c : Chan) : locate hw 32 (outBase c + 4 * n) = some (.output c n) := by
  cases c
  · exact locate_region (k := 3) (by decide) hn hhw
  · exact locate_region (k := 4) (by decide) hn hhw

theorem locate_monBase : locate hw 32 (monBase + 4 * n) = some (.monitor n) :=
  locate_region (k := 5) (by decide) hn hhw

end

/-- An aligned register address is the one of the register table. -/
theorem locate_register {hw a : Nat} (ha : a < 0x10000) (hal : a % 4 = 0) :
    locate hw 32 a = registerAt a := by
  rw [locate, if_neg (by omega), if_pos ha]

/-- The registers of the map (20_memory R62, R63, R65). -/
theorem registerAt_isSome : ∀ a ≤ 0x128, a % 4 = 0 →
    (a ≤ 0x018 ∨ (0x020 ≤ a ∧ a ≤ 0x02C) ∨ (0x040 ≤ a ∧ a ≤ 0x0BC) ∨ (0x100 ≤ a ∧ a ≤ 0x128)) →
    (registerAt a).isSome = true := by
  decide +kernel

/-- Every mapped address has a target. -/
theorem exists_locate_of_mapped {hw a : Nat} (hhw : hw ≤ 16384) (h : Mapped hw a) :
    ∃ target, locate hw 32 a = some target := by
  obtain ⟨hal, hrange⟩ := h
  by_cases hreg : a < 0x10000
  · rw [locate_register hreg hal]
    exact Option.isSome_iff_exists.1 (registerAt_isSome a (by omega) hal (by omega))
  · obtain ⟨k, hk, n, hn, rfl⟩ : ∃ k, (1 ≤ k ∧ k ≤ 5) ∧ ∃ n, n < hw ∧ a = 0x10000 * k + 4 * n :=
      ⟨a / 0x10000, by omega, a % 0x10000 / 4, by omega, by omega⟩
    rw [locate_region hk.1 hn hhw]
    obtain ⟨h1, h5⟩ := hk
    interval_cases k <;> exact ⟨_, rfl⟩

/-! ### The word a read returns -/

/-- The word of a target does not depend on the host's script. -/
theorem targetWord_host (s : State) (rest : List Access) (target : Target) :
    targetWord { s with host := rest } target = targetWord s target := by
  cases target with
  | status r => cases r <;> rfl
  | _ => rfl

/-- A read of a mapped address returns its target's word and changes nothing else. -/
theorem step_read {s : State} {a : Addr} {target : Target} (rest : List Access)
    (h : locate s.cfg.maxBlockHw 32 a.toNat = some target) :
    step { s with host := .read 32 a :: rest }
      = .next { s with host := rest, rdata := targetWord s target } := by
  have hstep : step { s with host := .read 32 a :: rest } = .next (busRead 32 a { s with host := rest }) :=
    rfl
  rw [hstep, ← targetWord_host s rest]
  simp only [busRead, h]

theorem rdata_of_step_read {s t : State} {a : Addr} {target : Target} {rest : List Access}
    (hstep : step { s with host := .read 32 a :: rest } = .next t)
    (h : locate s.cfg.maxBlockHw 32 a.toNat = some target) : t.rdata = targetWord s target := by
  rw [step_read rest h] at hstep
  injection hstep with hstep
  rw [← hstep]

/-- Settles O58: a mapped address has one target, and `targetWord` says its word. -/
theorem readsHaveNoSideEffect : Obligations.ReadsHaveNoSideEffect := by
  intro s a rest hinv hmapped
  have hhw := hinv.blockHw.2
  obtain ⟨target, htarget⟩ := exists_locate_of_mapped hhw hmapped
  have hword {target'} (h : locate s.cfg.maxBlockHw 32 a.toNat = some target') :
      targetWord s target = targetWord s target' := by
    rw [htarget] at h; injection h with h; rw [h]
  refine ⟨_, step_read rest htarget, rfl, fun ha => ?_, fun c n hn ha hin => ?_, fun c n hn ha => ?_,
    fun n hn ha => ?_⟩
  · exact hword (target' := .cmd) (by rw [ha]; rfl)
  · rw [hword (by rw [ha]; exact locate_inBase hn hhw c), ha]
    rcases hin with hin | hin <;> simp [targetWord, hin, inWord]
  · rw [hword (by rw [ha]; exact locate_outBase (hn.trans_le hinv.outLen) hhw c), ha]
    simp [targetWord, hn]
  · have hlen := hinv.monLen.trans hinv.outLen
    rw [hword (by rw [ha]; exact locate_monBase (hn.trans_le hlen) hhw), ha, targetWord, if_pos hn]
    rfl

/-! ### The status registers (20_memory R65 to R67) -/

theorem toNat_zero_append {k m : Nat} (w : BitVec m) : (0#k ++ w).toNat = w.toNat := by
  simp [BitVec.toNat_append]

/-- Bit b of the active voices is the activity of voice b. -/
theorem testBit_activeBits (vs : List Voice) (b : Nat) :
    (activeBits vs).testBit b = vs[b]?.any voiceIsActive := by
  induction vs generalizing b with
  | nil => simp [activeBits]
  | cons v vs ih =>
    rw [activeBits]
    cases b with
    | zero => cases hv : voiceIsActive v <;> simp [Nat.testBit_zero, hv, Nat.add_mod]
    | succ b =>
      have hdiv : ((if voiceIsActive v then 1 else 0) + 2 * activeBits vs) / 2 = activeBits vs := by
        split <;> omega
      rw [Nat.testBit_succ, hdiv, ih, List.getElem?_cons_succ]

theorem getLsbD_voiceActiveWord (s : State) {b : Nat} (hb : b < 32) :
    (voiceActiveWord s).getLsbD b = s.voices[b]?.any voiceIsActive := by
  rw [voiceActiveWord, BitVec.getLsbD_ofNat, testBit_activeBits, decide_eq_true hb, Bool.true_and]

theorem voiceIsActive_eq_true_iff (v : Voice) :
    voiceIsActive v = true ↔ v.vstate = .sounding ∨ v.vstate = .releasing := by
  rw [voiceIsActive]
  cases v.vstate <;> decide

theorem registerAt_status {a : Nat} (h1 : 0x10C ≤ a) (h2 : a ≤ 0x128) (hal : a % 4 = 0) :
    ∃ r, registerAt a = some (.status r) := by
  have hcases : a = 0x10C ∨ a = 0x110 ∨ a = 0x114 ∨ a = 0x118 ∨ a = 0x11C ∨ a = 0x120 ∨ a = 0x124 ∨
      a = 0x128 := by omega
  rcases hcases with rfl | rfl | rfl | rfl | rfl | rfl | rfl | rfl <;> exact ⟨_, rfl⟩

/-- No write to a status or configuration register is performed (20_memory R65). -/
theorem writeAccepted_status {a : Addr} (s : State) (h1 : 0x10C ≤ a.toNat) (h2 : a.toNat ≤ 0x128) :
    writeAccepted 32 a s = false := by
  rw [writeAccepted]
  by_cases hal : a.toNat % 4 = 0
  · obtain ⟨r, hr⟩ := registerAt_status h1 h2 hal
    rw [locate_register (by omega) hal, hr]
    rfl
  · rw [locate, if_pos (.inr hal)]

/-- A write that is not performed raises BUS_ERROR (60_exceptions R305). -/
theorem step_refusedWrite {s : State} {a : Addr} (w : Word) (rest : List Access)
    (h : writeAccepted 32 a { s with host := rest } = false) (hf : s.ctl.faulted = false) :
    step { s with host := .write 32 a w :: rest }
      = .next (withFault 10#8 (a.setWidth 32) { s with host := rest }) := by
  have hstep : step { s with host := .write 32 a w :: rest } = stepWrite 32 a w { s with host := rest } :=
    rfl
  have hf' : ({ s with host := rest } : State).ctl.faulted = false := hf
  rw [hstep, stepWrite, h, if_neg (by simp), busError, raiseFault_of_unfaulted hf']
  rfl

/-- Settles O56: each address reads its register's word, whose fields are as wide as their values. -/
theorem statusRegistersReadTheirContent : Obligations.StatusRegistersReadTheirContent := by
  intro s rest hinv
  obtain ⟨-, hvoices⟩ := hinv.voiceCount
  have hhw := hinv.blockHw.2
  refine ⟨fun t h => ?_, fun t h => ?_, fun t b h hb => ?_, fun t h => ?_, fun t h => ?_, fun t h => ?_,
    fun t h => ?_, fun a w h1 h2 hf => ?_⟩
  · rw [rdata_of_step_read (target := .status .faultCode) h rfl]
    exact toNat_zero_append _
  · exact rdata_of_step_read (target := .status .faultInfo) h rfl
  · have hword : t.rdata = voiceActiveWord s :=
      rdata_of_step_read (target := .status .voiceActive) h rfl
    rw [hword, getLsbD_voiceActiveWord s hb]
    refine ⟨fun v hv => ?_, fun hlen => ?_⟩
    · rw [hv]
      exact voiceIsActive_eq_true_iff v
    · rw [List.getElem?_eq_none hlen]
      rfl
  · exact rdata_of_step_read (target := .status .monFreq) h rfl
  · rw [rdata_of_step_read (target := .status .monLen) h rfl]
    exact toNat_zero_append _
  · rw [rdata_of_step_read (target := .status .cfgNumVoices) h rfl]
    exact (toNat_zero_append _).trans (Nat.mod_eq_of_lt (by rw [numVoices] at hvoices ⊢; omega))
  · rw [rdata_of_step_read (target := .status .cfgMaxBlock) h rfl]
    exact (toNat_zero_append _).trans (Nat.mod_eq_of_lt (by omega))
  · exact step_refusedWrite w rest (writeAccepted_status _ h1 h2) hf

end Sys2Proof.Machine
end

section
/-! The vocoder's bands: the bisection finds the pattern whose midpoints enclose the root, and with the
reference constants the clamp leaves the cutoff there (10_state R38; 45_vocoder R250, R251). -/

namespace Sys2Proof.Machine

open Sys2Proof

/-! ### Roots -/

/-- Twice the number midway between the patterns p - 1 and p, in units of 2^-149. -/
def lowerMid (p : Nat) : Nat := fixOf (p - 1) + fixOf p

theorem lowerMid_mono {p q : Nat} (h : p ≤ q) : lowerMid p ≤ lowerMid q :=
  Nat.add_le_add (fixOf_mono (Nat.sub_le_sub_right h 1)) (fixOf_mono h)

/-- A finite pattern whose lower midpoint is at most the m-th root of t. -/
def BelowRoot (m t p : Nat) : Prop := p < infPat ∧ lowerMid p ^ m ≤ 2 ^ m * t

theorem belowRoot_iff (m t p : Nat) : BelowRoot m t p ↔ (p < infPat && midAtMost m t p) = true := by
  simp [BelowRoot, midAtMost, lowerMid]

/-- The bisection keeps the last pattern below the root in its interval. -/
theorem bisectPat_spec {m t : Nat} (k : Nat) {lo : Nat} (hlo : BelowRoot m t lo)
    (hhi : ¬BelowRoot m t (lo + 2 ^ k)) :
    BelowRoot m t (bisectPat m t k lo) ∧ ¬BelowRoot m t (bisectPat m t k lo + 1) := by
  induction k generalizing lo with
  | zero => exact ⟨hlo, hhi⟩
  | succ k ih =>
    rw [bisectPat]
    split
    case isTrue hmid =>
      refine ih ((belowRoot_iff _ _ _).2 hmid) ?_
      rwa [Nat.add_assoc, ← Nat.two_mul, ← pow_succ']
    case isFalse hmid => exact ih hlo fun h => hmid ((belowRoot_iff _ _ _).1 h)

section
variable {m : Nat} (hm : 0 < m) (t : Nat)
include hm

/-- The midpoints next to the rounded root enclose the m-th root of t. -/
theorem rootPat_spec :
    rootPat m t < infPat ∧ lowerMid (rootPat m t) ^ m ≤ 2 ^ m * t ∧
      (rootPat m t + 1 < infPat → 2 ^ m * t ≤ lowerMid (rootPat m t + 1) ^ m) := by
  have h0 : BelowRoot m t 0 := ⟨by decide, by simp [lowerMid, hm.ne']⟩
  obtain ⟨⟨hfin, hbelow⟩, habove⟩ := bisectPat_spec 31 h0 (fun h => absurd h.1 (by decide))
  rw [rootPat]
  generalize bisectPat m t 31 0 = p at *
  split
  case isTrue htie =>
    rcases Nat.mod_two_eq_zero_or_one p with heven | hodd
    · rw [heven, Nat.sub_zero]
      exact ⟨hfin, hbelow, fun _ => htie.symm.le.trans (Nat.pow_le_pow_left (lowerMid_mono (by omega)) m)⟩
    · rw [hodd, Nat.sub_add_cancel (by omega)]
      exact ⟨by omega, (Nat.pow_le_pow_left (lowerMid_mono (by omega)) m).trans hbelow, fun _ => htie.symm.le⟩
  case isFalse =>
    refine ⟨hfin, hbelow, fun hlt => ?_⟩
    by_contra hc
    exact habove ⟨hlt, (Nat.lt_of_not_le hc).le⟩

variable {t}

/-- The root of at least a value rounds to at least its pattern. -/
theorem le_rootPat {q : Nat} (hq : q < infPat) (h : fixOf q ^ m ≤ t) : q ≤ rootPat m t := by
  obtain ⟨-, -, habove⟩ := rootPat_spec hm t
  by_contra hc
  have hlt : rootPat m t < q := Nat.lt_of_not_le hc
  have hmid : lowerMid (rootPat m t + 1) < 2 * fixOf q := by
    have h1 := (fixOf_lt_iff (hlt.trans hq) hq).2 hlt
    have h2 : fixOf (rootPat m t + 1) ≤ fixOf q := fixOf_mono hlt
    rw [lowerMid, Nat.add_sub_cancel]
    omega
  have hpow := Nat.pow_lt_pow_left hmid hm.ne'
  rw [mul_pow] at hpow
  exact absurd ((habove (by omega)).trans_lt hpow) (Nat.not_lt.2 (Nat.mul_le_mul_left _ h))

/-- The root of at most a value rounds to at most its pattern. -/
theorem rootPat_le {q : Nat} (hq : q < infPat) (h : t ≤ fixOf q ^ m) : rootPat m t ≤ q := by
  obtain ⟨hfin, hbelow, -⟩ := rootPat_spec hm t
  by_contra hc
  have hlt : q < rootPat m t := Nat.lt_of_not_le hc
  have hmid : 2 * fixOf q < lowerMid (rootPat m t) := by
    have h1 := (fixOf_lt_iff hq hfin).2 hlt
    have h2 : fixOf q ≤ fixOf (rootPat m t - 1) := fixOf_mono (by omega)
    rw [lowerMid]
    omega
  have hpow := Nat.pow_lt_pow_left hmid hm.ne'
  rw [mul_pow] at hpow
  exact absurd (hpow.trans_le hbelow) (Nat.not_lt.2 (Nat.mul_le_mul_left _ h))

end

/-! ### The cutoff of a band filter -/

/-- A zero added to a number that is none. -/
theorem fadd_isZero {x z : Word} (hx : isFinite x = true) (hx0 : isZero x = false)
    (hz : isZero z = true) : fadd x z = x := by
  have hz0 := (isZero_iff z).1 hz
  have hfz : isFinite z = true := (isFinite_iff z).2 (by rw [hz0]; decide)
  have hsz : sfixOf z = 0 := by rw [sfixOf, hz0]; simp
  have hpos := fixOf_pos (Nat.pos_of_ne_zero ((isZero_false_iff x).1 hx0))
  have hsx : sfixOf x ≠ 0 ∧ decide (sfixOf x < 0) = isNeg x := by
    rw [sfixOf]
    cases isNeg x <;> simp <;> omega
  rw [fadd, isNaN_of_isFinite hx, isNaN_of_isFinite hfz, isInf_of_isFinite hx, isInf_of_isFinite hfz, hsz,
    Int.add_zero, if_neg hsx.1, hsx.2, natAbs_sfixOf, roundPat_fixOf ((isFinite_iff x).1 hx), mkNum_magOf]
  rfl

/-- A zero times a finite number. -/
theorem isZero_fmul_zero {x : Word} (hx : isFinite x = true) : isZero (fmul zero32 x) = true := by
  have h0 : fixOf (magOf zero32) = 0 := by decide
  have hmul : fmul zero32 x = mkNum (isNeg zero32 != isNeg x) 0 := by
    rw [fmul, isNaN_of_isFinite hx, isInf_of_isFinite hx, h0, Nat.zero_mul, roundPat_zero]
    rfl
  rw [hmul, isZero_iff, magOf_mkNum _ (by decide)]

/-- Without modulation the cutoff in force is the base, where the clamp leaves it (42_filter R181). -/
theorem cutoffOf_zero {cfg : Cfg} {w hi lo : Word} (hnx : cfg.numerics = .binary32)
    (hmax : cfg.cutoffMax = .single hi) (hmin : cfg.cutoffMin = .single lo) (hlo : fle one32 lo = true)
    (hhi : isFinite hi = true) (h1 : fle lo w = true) (h2 : fle w hi = true) :
    cutoffOf cfg (.single w) zero = .single w := by
  have hw0 : fle zero32 w = true := fle_trans (fle_trans (by decide) hlo) h1
  have hfw := isFinite_of_fle hw0 h2 hhi
  have hhi0 := fle_trans hw0 h2
  have hsub := fsub_between hhi0 hw0 ((isFinite_iff hi).1 hhi) h2
  have hwz : isZero w = false := by
    have hr := ((fle_iff _ _).1 (fle_trans hlo h1)).2.2
    rw [rank_one, rank_of_nonneg hw0] at hr
    exact (isZero_false_iff w).2 (by omega)
  have hsum : fadd w (fmul zero32 (fsub hi w)) = w :=
    fadd_isZero hfw hwz (isZero_fmul_zero (isFinite_of_fle hsub.1 hsub.2 hhi))
  have hzero : zero = .single zero32 := rfl
  have hltlo : flt w lo = false := by
    simpa [fle_eq_not_flt (notNaN_of_fle_left h1) (notNaN_of_fle_right h1)] using h1
  have hlthi : flt hi w = false := by
    simpa [fle_eq_not_flt (notNaN_of_fle_left h2) (notNaN_of_fle_right h2)] using h2
  rw [cutoffOf, hnx, hmax, hmin, hzero]
  simp only [Numerics.add_binary32, Numerics.mul_binary32, Numerics.sub_binary32,
    Number.toWord_single, hsum, Numerics.clamp_eq, Numerics.lt_binary32, hltlo, hlthi]
  rfl

/-! ### The bands of the reference configuration -/

/-- The pattern of 200 * 80^(b/23), the frequency of band b. -/
def referenceBandPat (b : Nat) : Nat :=
  rootPat 23 (fixOf 0x43480000 ^ (23 - b) * fixOf 0x467A0000 ^ b)

theorem bandFreq_referenceCfg (b : Nat) :
    bandFreq referenceCfg b = .single (mkNum false (referenceBandPat b)) := rfl

section
variable {b : Nat} (hb : b ≤ 23)
include hb

/-- The 23rd power of the frequency, in units of 2^-149. -/
theorem referenceBand_radicand :
    fixOf 0x43480000 ^ (23 - b) * fixOf 0x467A0000 ^ b = 200 ^ (23 - b) * 16000 ^ b * 2 ^ (149 * 23) := by
  have hmin : fixOf 0x43480000 = 200 * 2 ^ 149 := by decide +kernel
  have hmax : fixOf 0x467A0000 = 16000 * 2 ^ 149 := by decide +kernel
  have hunits : (2 ^ 149) ^ (23 - b) * (2 ^ 149) ^ b = 2 ^ (149 * 23) := by
    rw [← pow_add, Nat.sub_add_cancel hb, ← pow_mul]
  rw [hmin, hmax, mul_pow, mul_pow, ← hunits]
  ring

theorem referenceBandPat_range :
    0x43480000 ≤ referenceBandPat b ∧ referenceBandPat b ≤ 0x467A0000 := by
  have hle : fixOf 0x43480000 ≤ fixOf 0x467A0000 := fixOf_mono (by decide)
  have hsplit (x : Nat) : x ^ 23 = x ^ (23 - b) * x ^ b := by rw [← pow_add, Nat.sub_add_cancel hb]
  constructor
  · refine le_rootPat (by decide) (by decide) ?_
    rw [hsplit]
    exact Nat.mul_le_mul_left _ (Nat.pow_le_pow_left hle b)
  · refine rootPat_le (by decide) (by decide) ?_
    rw [hsplit]
    exact Nat.mul_le_mul_right _ (Nat.pow_le_pow_left hle _)

theorem referenceBandPat_midpoints :
    lowerMid (referenceBandPat b) ^ 23 ≤ 2 ^ 23 * (200 ^ (23 - b) * 16000 ^ b * 2 ^ (149 * 23)) ∧
      2 ^ 23 * (200 ^ (23 - b) * 16000 ^ b * 2 ^ (149 * 23)) ≤ lowerMid (referenceBandPat b + 1) ^ 23 := by
  have hmax := (referenceBandPat_range hb).2
  have hinf : 0x467A0000 + 1 < infPat := by decide
  rw [← referenceBand_radicand hb]
  obtain ⟨-, hbelow, habove⟩ := rootPat_spec (m := 23) (by decide)
    (fixOf 0x43480000 ^ (23 - b) * fixOf 0x467A0000 ^ b)
  exact ⟨hbelow, habove ((Nat.succ_le_succ hmax).trans_lt hinf)⟩

/-- The frequency of the band, as a number. -/
theorem referenceBand_fle :
    fle 0x43480000#32 (mkNum false (referenceBandPat b)) = true ∧
      fle (mkNum false (referenceBandPat b)) 0x467A0000#32 = true := by
  obtain ⟨hmin, hmax⟩ := referenceBandPat_range hb
  have hinf : 0x467A0000 < infPat := by decide
  have hrmin : rank 0x43480000#32 = 0x43480000 := by decide
  have hrmax : rank 0x467A0000#32 = 0x467A0000 := by decide
  have hrank : rank (mkNum false (referenceBandPat b)) = referenceBandPat b :=
    rank_mkNum false (hmax.trans_lt (by decide))
  have hnan := isNaN_mkNum false (hmax.trans hinf.le)
  exact ⟨(fle_iff _ _).2 ⟨by decide, hnan, by omega⟩, (fle_iff _ _).2 ⟨hnan, by decide, by omega⟩⟩

end

theorem referenceBandPat_first : referenceBandPat 0 = 0x43480000 :=
  le_antisymm (rootPat_le (by decide) (by decide) (by simp)) (referenceBandPat_range (by decide)).1

theorem referenceBandPat_last : referenceBandPat 23 = 0x467A0000 :=
  le_antisymm (referenceBandPat_range le_rfl).2 (le_rootPat (by decide) (by decide) (by simp))

/-- A band filter with the reference constants, at a frequency from 200 to 16000 Hz (45_vocoder R251). -/
theorem bandFilter_referenceCfg (fs : Number) {w : Word} (h1 : fle 0x43480000#32 w = true)
    (h2 : fle w 0x467A0000#32 = true) :
    (bandFilter referenceCfg fs (.single w)).fc = .single w ∧
      (bandFilter referenceCfg fs (.single w)).res = .single 0x41200000#32 :=
  ⟨cutoffOf_zero rfl rfl rfl (by decide) (by decide) (fle_trans (by decide) h1)
    (fle_trans h2 (by decide)), by
    show Numerics.binary32.clamp (.single 0x41200000#32) one (numOfNat 10) = _
    rw [numOfNat_ten]; decide⟩

/-- Settles O25: the frequency is the rounded root, whose midpoints enclose the real, and the clamp of the
filters does not reach it. -/
theorem bandFiltersSitAtTheirFrequencies : Obligations.BandFiltersSitAtTheirFrequencies := by
  intro s t b x hcfg hexec hunfaulted hx
  obtain rfl : t = prepareState s := by
    cases exec_did hexec with
    | stored _ h => exact absurd h (by simp [selectorReg])
    | ignored _ hf => exact absurd hunfaulted (by simp [hf])
    | refused code info => exact absurd hunfaulted (by simp)
    | prepared => rfl
  obtain ⟨hb, rfl⟩ : b < 24 ∧ x = bandPrepared referenceCfg (.single s.prepRate) b := by
    simp only [prepareState, hcfg, List.getElem?_map, Option.map_eq_some_iff] at hx
    obtain ⟨k, hk, rfl⟩ := hx
    obtain ⟨hlt, rfl⟩ := List.getElem?_eq_some_iff.1 hk
    rw [List.getElem_range]
    exact ⟨by simpa [referenceCfg] using hlt, rfl⟩
  have hb' : b ≤ 23 := by omega
  have hmax := (referenceBandPat_range hb').2
  have hinf : 0x467A0000 < infPat := by decide
  have hlt : referenceBandPat b < 2 ^ 31 := hmax.trans_lt (by decide)
  have hnat : (mkNum false (referenceBandPat b)).toNat = referenceBandPat b :=
    (toNat_mkNum false hlt).trans (if_neg Bool.false_ne_true)
  obtain ⟨hbelow, habove⟩ := referenceBandPat_midpoints hb'
  rw [lowerMid] at hbelow
  rw [lowerMid, Nat.add_sub_cancel] at habove
  obtain ⟨hlo, hhi⟩ := referenceBand_fle hb'
  have hfilter := bandFilter_referenceCfg (.single s.prepRate) hlo hhi
  refine ⟨?_, mkNum false (referenceBandPat b), bandFreq_referenceCfg b, hb,
    isFinite_mkNum _ (hmax.trans_lt hinf), isNeg_mkNum _ hlt, ?_, ?_, hlo, hhi, ?_, ?_⟩
  · rintro f (rfl | rfl | rfl) <;> exact hfilter
  · rw [hnat]; exact hbelow
  · rw [hnat]; exact habove
  · rintro rfl; rw [referenceBandPat_first]; rfl
  · rintro rfl; rw [referenceBandPat_last]; rfl

end Sys2Proof.Machine
end

section
/-! Host writes and reads of one target: registers, selector rows and IN elements take the word and read it
back (20_memory R62 to R66, R68; 30_encoding R90 to R95). -/

namespace Sys2Proof.Machine

open Sys2Proof

/-! ### The read-back rules (30_encoding R90, R92, R94, R95) -/

theorem toNat_and_lowMask (w : Word) {k : Nat} (hk : k ≤ 32) :
    (w &&& BitVec.ofNat 32 (2 ^ k - 1)).toNat = w.toNat % 2 ^ k := by
  have hpow : 2 ^ k ≤ 2 ^ 32 := Nat.pow_le_pow_right (by decide) hk
  have hpos : 0 < 2 ^ k := Nat.two_pow_pos k
  rw [BitVec.toNat_and, BitVec.toNat_ofNat, Nat.mod_eq_of_lt (by omega), Nat.and_two_pow_sub_one_eq_mod]

@[simp] theorem toNat_readBack_enum3 (w : Word) : (readBack .enum3 w).toNat = w.toNat % 8 :=
  toNat_and_lowMask w (k := 3) (by decide)

@[simp] theorem toNat_readBack_enum2 (w : Word) : (readBack .enum2 w).toNat = w.toNat % 4 :=
  toNat_and_lowMask w (k := 2) (by decide)

@[simp] theorem toNat_readBack_bool (w : Word) : (readBack .bool w).toNat = w.toNat % 2 :=
  toNat_and_lowMask w (k := 1) (by decide)

@[simp] theorem toNat_readBack_fmode (w : Word) :
    (readBack .fmode w).toNat = if w.toNat % 4 = 3 then 0 else w.toNat % 4 := by
  have hlow : (w &&& 0x3#32).toNat = w.toNat % 4 := toNat_and_lowMask w (k := 2) (by decide)
  have hcode : w &&& 0x3#32 = 0x3#32 ↔ w.toNat % 4 = 3 := by
    rw [← BitVec.toNat_inj, hlow]; rfl
  rw [readBack]
  by_cases h : w.toNat % 4 = 3
  · rw [if_pos (hcode.2 h), if_pos h]; rfl
  · rw [if_neg (mt hcode.1 h), if_neg h, hlow]

/-- The code a write to ALGO carries is the field of its word. -/
theorem instrWord_decodeAlgo (w : Word) : instrWord (decodeAlgo w) = (w.extractLsb' 0 3).setWidth 32 := by
  rw [decodeAlgo]
  generalize w.extractLsb' 0 3 = c
  revert c; decide

theorem instrWord_decodeFmode (w : Word) :
    instrWord (decodeFmode w) = (w.extractLsb' 0 2).setWidth 32 := by
  rw [decodeFmode]
  generalize w.extractLsb' 0 2 = c
  revert c; decide

theorem instrWord_decodeWave (k : OscId) (w : Word) :
    instrWord (decodeWave k w) = (w.extractLsb' 0 2).setWidth 32 := by
  rw [decodeWave]
  generalize w.extractLsb' 0 2 = c
  cases k <;> revert c <;> decide

theorem selectorReg_decodeAlgo (w : Word) : selectorReg (decodeAlgo w) = some .algo := by
  unfold decodeAlgo; split <;> rfl

theorem selectorReg_decodeFmode (w : Word) : selectorReg (decodeFmode w) = some .filtMode := by
  unfold decodeFmode; split <;> rfl

theorem selectorReg_decodeWave (k : OscId) (w : Word) :
    selectorReg (decodeWave k w) = some (.osc k .wave) := by
  unfold decodeWave; split <;> rfl

/-- A write that decodes goes to CMD, or is a selector row of the register at its address and carries a code
that register reads back as it does the word. -/
theorem decode_ok_cases {a : Addr} {w : Word} {i : Instr} (h : decode ⟨a, w⟩ = .ok i) :
    a.toNat = cmdAddr ∨ ∃ r, shadowAt a.toNat = some r ∧ selectorReg i = some r ∧
      readBack (regKind r) (instrWord i) = readBack (regKind r) w := by
  rw [decode] at h
  split at h
  case isTrue ha => exact .inl ha
  case isFalse =>
    right
    split at h
    case h_1 ha =>
      injection h with h; subst h
      refine ⟨_, ha, selectorReg_decodeAlgo w, BitVec.eq_of_toNat_eq ?_⟩
      simp [regKind, instrWord_decodeAlgo]
    case h_2 ha =>
      injection h with h; subst h
      refine ⟨_, ha, selectorReg_decodeFmode w, BitVec.eq_of_toNat_eq ?_⟩
      simp [regKind, instrWord_decodeFmode]
    case h_3 k ha =>
      injection h with h; subst h
      refine ⟨_, ha, selectorReg_decodeWave k w, BitVec.eq_of_toNat_eq ?_⟩
      simp [regKind, oscRegKind, instrWord_decodeWave]
    case h_4 => exact nomatch h
    case h_5 => exact nomatch h

/-! ### Selector rows -/

/-- A selector row stores its code. -/
theorem exec_of_selectorReg {i : Instr} {r : ShadowReg} (h : selectorReg i = some r) (s : State) :
    exec i s = .next (storeShadow r (instrWord i) s) := by
  cases i with
  | prepare | latch | noteOn | noteOff | render | flush | filterReset | illegal => exact nomatch h
  | _ => injection h with h; subst h; rfl

/-- Settles O30: each row's code is what its register reads back of it. -/
theorem selectorRowsStoreTheirCode : Obligations.SelectorRowsStoreTheirCode := by
  intro k s i r code h
  obtain ⟨hreg, hcode⟩ : selectorReg i = some r ∧ readBack (regKind r) (instrWord i) = code := by
    rcases h with ⟨rfl, h⟩ | ⟨rfl, h⟩ | ⟨rfl, h⟩
    · rcases h with ⟨rfl, rfl⟩ | ⟨rfl, rfl⟩ | ⟨rfl, rfl⟩ | ⟨rfl, rfl⟩ <;> cases k <;> exact ⟨rfl, rfl⟩
    · rcases h with ⟨rfl, rfl⟩ | ⟨rfl, rfl⟩ | ⟨rfl, rfl⟩ | ⟨rfl, rfl⟩ <;> exact ⟨rfl, rfl⟩
    · rcases h with ⟨rfl, rfl⟩ | ⟨rfl, rfl⟩ | ⟨rfl, rfl⟩ | ⟨rfl, rfl⟩ | ⟨rfl, rfl⟩ | ⟨rfl, rfl⟩ |
        ⟨rfl, rfl⟩ | ⟨rfl, rfl⟩ <;> exact ⟨rfl, rfl⟩
  refine ⟨_, exec_of_selectorReg hreg s, ?_, fun q hq => ?_, rfl, fun _ => rfl⟩
  · rw [storeShadow_shadow, Shadow.get_store, if_pos rfl, hcode]
  · rw [storeShadow_shadow, Shadow.get_store, if_neg hq]

/-! ### Addresses of registers -/

theorem toNat_shadowAddr (r : ShadowReg) : (BitVec.ofNat 20 (shadowAddr r)).toNat = shadowAddr r := by
  cases r with
  | osc k r => cases k <;> cases r <;> rfl
  | _ => rfl

theorem locate_shadowAddr (hw : Nat) (r : ShadowReg) :
    locate hw 32 (shadowAddr r) = some (.shadow r) := by
  cases r with
  | osc k r => cases k <;> cases r <;> rfl
  | _ => rfl

/-! ### A write, and the read after it -/

section
variable {s : State} {a : Addr} {w : Word} {rest : List Access} {target : Target}
  (hl : locate s.cfg.maxBlockHw 32 a.toNat = some target) (hw : isWritable target = true)
  (hc : target ≠ .cmd)
include hl hw hc

/-- A host write to a target that takes writes, other than CMD, is taken by it, also where the write is a
selector row. -/
theorem step_write (h : s.host = .write 32 a w :: rest) :
    step s = .next (storeTarget w { s with host := rest } target) := by
  have hstep : step s = stepWrite 32 a w { s with host := rest } := by rw [step, h]
  have haccept : writeAccepted 32 a { s with host := rest } = true := by rw [writeAccepted, hl]; exact hw
  rw [hstep, stepWrite, if_pos haccept]
  split
  case h_1 i hd =>
    rcases decode_ok_cases hd with ha | ⟨r, ha, hreg, hback⟩
    · rw [ha] at hl
      exact absurd (Option.some.inj hl).symm hc
    · rw [← shadowAt_some ha, locate_shadowAddr] at hl
      obtain rfl := Option.some.inj hl
      rw [exec_of_selectorReg hreg, storeShadow, Shadow.store, hback]
      rfl
  case h_2 => rw [busStore, hl]

/-- The read back of a written target returns the target's word after the write. -/
theorem step_write_read (h : s.host = .write 32 a w :: .read 32 a :: rest) :
    step s = .next { storeTarget w s target with host := .read 32 a :: rest } ∧
    step { storeTarget w s target with host := .read 32 a :: rest }
      = .next { storeTarget w s target with
          host := rest, rdata := targetWord (storeTarget w s target) target } := by
  refine ⟨?_, step_read rest (by rw [storeTarget_cfg]; exact hl)⟩
  rw [step_write hl hw hc h]
  cases target <;> rfl

end

/-- Settles O60: PREP_RATE and PREP_MAXBLOCK are targets of their own, which keep the word or its low
half. -/
theorem prepRegistersTakeTheWord : Obligations.PrepRegistersTakeTheWord := by
  intro s w rest
  constructor
  · intro h
    exact ⟨_, step_write_read (target := .prepRate) rfl rfl nofun h⟩
  · intro h
    obtain ⟨h1, h2⟩ := step_write_read (target := .prepMaxBlock) rfl rfl nofun h
    refine ⟨_, _, h1, h2, rfl, ?_⟩
    exact (toNat_zero_append _).trans ((BitVec.extractLsb'_toNat ..).trans (by rw [Nat.shiftRight_zero]))

/-- Settles O32: the cell written holds what the register's kind reads back of the word. -/
theorem shadowRegistersReadBack : Obligations.ShadowRegistersReadBack := by
  intro s r w rest h
  have hl : locate s.cfg.maxBlockHw 32 (BitVec.ofNat 20 (shadowAddr r)).toNat = some (.shadow r) := by
    rw [toNat_shadowAddr, locate_shadowAddr]
  obtain ⟨h1, h2⟩ := step_write_read hl rfl nofun h
  have hcell (q : ShadowReg) : (storeTarget w s (.shadow r)).shadow.get q
      = if q = r then ⟨readBack (regKind r) w, true⟩ else s.shadow.get q := Shadow.get_store _ _ _ _
  have hword : targetWord (storeTarget w s (.shadow r)) (.shadow r) = readBack (regKind r) w := by
    rw [targetWord, hcell, if_pos rfl]
  refine ⟨_, _, h1, h2, rfl, fun q hq => (hcell q).trans (if_neg hq), ?_, ?_⟩
  · rw [hcell, if_pos rfl]
  rw [hword]
  refine ⟨?_, ?_, ?_, ?_, fun halgo hmode hfilt hvoc hwave => ?_⟩
  · rintro rfl; exact toNat_readBack_enum3 w
  · rintro rfl; exact toNat_readBack_fmode w
  · rintro (rfl | rfl) <;> exact toNat_readBack_bool w
  · rintro ⟨k, rfl⟩; exact toNat_readBack_enum2 w
  · have hkind : regKind r = .binary32 := by
      cases r with
      | algo => exact absurd rfl halgo
      | filtMode => exact absurd rfl hmode
      | filtEn => exact absurd rfl hfilt
      | vocEn => exact absurd rfl hvoc
      | osc k r =>
        cases r with
        | wave => exact absurd rfl (hwave k)
        | _ => rfl
      | _ => rfl
    rw [hkind, readBack]

/-! ### IN -/

theorem toNat_inBase {hw n : Nat} (hn : n < hw) (hhw : hw ≤ 16384) (c : Chan) :
    (BitVec.ofNat 20 (inBase c + 4 * n)).toNat = inBase c + 4 * n := by
  have hbase : inBase c ≤ 0x20000 := by cases c <;> decide
  exact Nat.mod_eq_of_lt (by omega)

/-- A host write to an element of IN sets its flag and no other. -/
theorem inWritten_storeIn {s : State} (hwf : ∀ c, sparseWf false (s.inW.get c) = true) (c d : Chan)
    (n m : Nat) (w : Word) :
    inWritten (storeIn c n w s) d m = if d = c ∧ m = n then true else inWritten s d m := by
  have hinW : (storeIn c n w s).inW = s.inW.set c (sparseSet false (s.inW.get c) n true) := rfl
  rw [inWritten, inWritten, hinW]
  by_cases hd : d = c
  · subst hd
    rw [Two.get_set_self, sparseGet_set (hwf d)]
    simp only [true_and]
  · rw [Two.get_set_of_ne _ _ hd, if_neg (fun h => hd h.1)]

/-- Settles O59: the element's word is stored byte by byte, its flag is set, and so a read returns it. -/
theorem hostWritesToInputAreStored : Obligations.HostWritesToInputAreStored := by
  intro s c n w rest hinv hn h
  have hhw := hinv.blockHw.2
  have hl : locate s.cfg.maxBlockHw 32 (BitVec.ofNat 20 (inBase c + 4 * n)).toNat
      = some (.input c n) := by
    rw [toNat_inBase hn hhw, locate_inBase hn hhw]
  obtain ⟨h1, h2⟩ := step_write_read hl rfl nofun h
  have hflag := inWritten_storeIn hinv.inW c
  have hset : inWritten (storeIn c n w s) c n = true := by rw [hflag, if_pos ⟨rfl, rfl⟩]
  have hword : targetWord (storeIn c n w s) (.input c n) = w := by
    rw [targetWord, hset]
    exact readWord_writeWord hinv.mem _ w
  refine ⟨_, _, h1, h2, hword, rfl, fun i hi => ?_, fun a ha => ?_, hset, fun d m hne => ?_⟩
  · exact (readByte_writeWord hinv.mem _ _ w).trans
      (by rw [if_pos (by omega), Nat.add_sub_cancel_left])
  · exact (readByte_writeWord hinv.mem _ _ w).trans (if_neg (by omega))
  · exact (hflag d n m w).trans (if_neg fun he => hne.elim (· he.1) (· he.2))

/-! ### STATUS (20_memory R66) -/

/-- A PREPARE that leaves no fault succeeded. -/
theorem eq_prepareState_of_exec {s t : State} (h : exec .prepare s = .next t)
    (hf : t.ctl.faulted = false) : t = prepareState s := by
  cases exec_did h with
  | stored _ hreg => exact nomatch hreg
  | ignored _ hs => exact absurd hf (by simp [hs])
  | refused code info => exact absurd hf (by simp)
  | prepared => rfl

/-- STATUS bit by bit. -/
theorem getLsbD_statusWord (s : State) (b : Nat) :
    (statusWord s).getLsbD b =
      if b = 0 then s.ctl.faulted else if b = 1 then s.ctl.prepared else if b = 2 then s.ctl.latched
      else if b < 16 then false else s.ctl.pos.getLsbD (b - 16) := by
  calc (statusWord s).getLsbD b
      = (s.ctl.pos ++ 0#13 ++ BitVec.ofBool s.ctl.latched ++ BitVec.ofBool s.ctl.prepared
          ++ BitVec.ofBool s.ctl.faulted).getLsbD b := rfl
    _ = _ := by
      rw [BitVec.getLsbD_append, BitVec.getLsbD_append, BitVec.getLsbD_append, BitVec.getLsbD_append]
      rcases b with _ | _ | _ | b
      · simp
      · simp
      · simp
      · by_cases hb : b < 13
        · simp [hb, show b + 3 < 16 by omega]
        · simp [hb, show ¬b + 3 < 16 by omega]

/-- After a PREPARE only PREPARED is set. -/
theorem statusWord_prepareState (s : State) : statusWord (prepareState s) = 0x00000002#32 := by
  have hfields : statusWord (prepareState s)
      = 0#16 ++ 0#13 ++ BitVec.ofBool false ++ BitVec.ofBool true ++ BitVec.ofBool false := rfl
  rw [hfields]; rfl

/-- Settles O55: STATUS is put together from its fields, which PREPARE and power-on leave at constants. -/
theorem statusRegisterFields : Obligations.StatusRegisterFields := by
  have hl (s : State) : locate s.cfg.maxBlockHw 32 (0x10C#20).toNat = some (.status .status) := rfl
  refine ⟨fun s rest h => ?_, fun t h => ?_, fun s t u hexec hf h => ?_⟩
  · have hstep := step_read rest (hl s)
    rw [← h] at hstep
    have hbit := getLsbD_statusWord s
    refine ⟨_, hstep, rfl, hbit 0, hbit 1, hbit 2, fun b h3 h15 => ?_,
      BitVec.eq_of_getLsbD_eq fun b hb => ?_⟩
    · refine (hbit b).trans ?_
      rw [if_neg (by omega), if_neg (by omega), if_neg (by omega), if_pos (by omega)]
    · rw [BitVec.getLsbD_extractLsb', decide_eq_true hb, Bool.true_and]
      refine (hbit (16 + b)).trans ?_
      rw [if_neg (by omega), if_neg (by omega), if_neg (by omega), if_neg (by omega),
        Nat.add_sub_cancel_left]
  · exact rdata_of_step_read h (hl State.reset)
  · obtain rfl := eq_prepareState_of_exec hexec hf
    exact (rdata_of_step_read h (hl (prepareState s))).trans (statusWord_prepareState s)

end Sys2Proof.Machine
end

section
/-! LATCH while HOST_CTRL writes land: what each read sees, what the checks find in the local copy, and the
two ways the command ends (46_commands R272, R275, R276). -/

namespace Sys2Proof.Machine

open Sys2Proof

/-! ### The reads -/

/-- The registers after the HOST_CTRL writes cs, in the order they were issued. -/
def landAll (cs : List CtrlWrite) (b : Shadow) : Shadow := cs.foldl (fun b c => b.store c.reg c.data) b

theorem landAll_append (cs ds : List CtrlWrite) (b : Shadow) :
    landAll (cs ++ ds) b = landAll ds (landAll cs b) := List.foldl_append

theorem landRest_eq (cs : List CtrlWrite) (b : Shadow) : landRest cs b = landAll cs b := by
  induction cs generalizing b with
  | nil => rfl
  | cons c cs ih => exact ih _

/-- The writes that land before read n are the first ones, as far as none waits for a later read. -/
theorem landBefore_eq (n : Nat) (cs : List CtrlWrite) (b : Shadow) :
    landBefore n cs b =
      (landAll (cs.takeWhile (fun c => c.after ≤ n)) b, cs.dropWhile (fun c => c.after ≤ n)) := by
  induction cs generalizing b with
  | nil => rfl
  | cons c cs ih =>
    rw [landBefore]
    by_cases h : c.after ≤ n
    · rw [if_pos h, ih, List.takeWhile_cons_of_pos (by simpa using h),
        List.dropWhile_cons_of_pos (by simpa using h)]
      rfl
    · rw [if_neg h, List.takeWhile_cons_of_neg (by simpa using h),
        List.dropWhile_cons_of_neg (by simpa using h)]
      rfl

/-- The writes that have landed before read m are those before read n and those after it. -/
theorem takeWhile_append_takeWhile {n m : Nat} (hnm : n ≤ m) (cs : List CtrlWrite) :
    cs.takeWhile (fun c => c.after ≤ n)
        ++ (cs.dropWhile (fun c => c.after ≤ n)).takeWhile (fun c => c.after ≤ m)
      = cs.takeWhile (fun c => c.after ≤ m) := by
  induction cs with
  | nil => rfl
  | cons c cs ih =>
    by_cases h : c.after ≤ n
    · simp [h, h.trans hnm, ih]
    · simp [h]

/-- In a list ordered by landing, the writes that land before read n are its first ones. -/
theorem takeWhile_eq_filter {cs : List CtrlWrite} (hs : cs.Pairwise (fun x y => x.after ≤ y.after))
    (n : Nat) : cs.takeWhile (fun c => c.after ≤ n) = cs.filter (fun c => c.after ≤ n) := by
  induction hs with
  | nil => rfl
  | @cons c cs hc _ ih =>
    by_cases h : c.after ≤ n
    · simp [h, ih]
    · have hnone : ∀ d ∈ cs, n < d.after := fun d hd => (Nat.lt_of_not_le h).trans_le (hc d hd)
      simpa [h] using hnone

/-- After the reads of a LATCH every write has landed; a register the reads do not name keeps its copy, and
the one read k-th is seen with the writes landed before that read. -/
theorem latchReads_spec {rs : List ShadowReg} (hrs : rs.Nodup) (n : Nat) (cs : List CtrlWrite)
    (b copy : Shadow) :
    (latchReads rs n cs b copy).2 = landAll cs b ∧
    (∀ r, r ∉ rs → (latchReads rs n cs b copy).1.get r = copy.get r) ∧
    ∀ k r, rs[k]? = some r → (latchReads rs n cs b copy).1.get r
      = (landAll (cs.takeWhile (fun c => c.after ≤ n + k)) b).get r := by
  induction rs generalizing n cs b copy with
  | nil => exact ⟨landRest_eq cs b, fun _ _ => rfl, nofun⟩
  | cons q rs ih =>
    obtain ⟨hq, hrs⟩ := List.nodup_cons.1 hrs
    rw [latchReads, landBefore_eq]
    obtain ⟨hland, hkeep, hread⟩ := ih hrs (n + 1) (cs.dropWhile (fun c => c.after ≤ n))
      (landAll (cs.takeWhile (fun c => c.after ≤ n)) b)
      (copy.set q ((landAll (cs.takeWhile (fun c => c.after ≤ n)) b).get q))
    refine ⟨?_, fun r hr => ?_, fun k r hk => ?_⟩
    · rw [hland, ← landAll_append, List.takeWhile_append_dropWhile]
    · obtain ⟨hne, hr⟩ := not_or.1 (mt List.mem_cons.2 hr)
      rw [hkeep r hr, Shadow.get_set, if_neg hne]
    · cases k with
      | zero =>
        obtain rfl : q = r := by simpa using hk
        rw [hkeep q hq, Shadow.get_set, if_pos rfl]
        rfl
      | succ k =>
        have hn : n + 1 + k = n + (k + 1) := by omega
        rw [hread k r (by simpa using hk), ← landAll_append, takeWhile_append_takeWhile (by omega), hn]

theorem shadowRegs_ascending : shadowRegs.Pairwise (fun r q => shadowAddr r < shadowAddr q) := by
  decide

theorem shadowRegs_nodup : shadowRegs.Nodup := by decide

/-- The registers after a LATCH: every write has landed. -/
theorem latchLanded_eq (s : State) :
    latchLanded s = { s with shadow := landAll s.ctrl s.shadow, ctrl := [] } := by
  rw [latchLanded, latchCopy, (latchReads_spec shadowRegs_nodup 0 s.ctrl s.shadow s.shadow).1]

/-- What a LATCH sees in the n-th register. -/
theorem get_latchCopy_fst {s : State} (hs : s.ctrl.Pairwise (fun x y => x.after ≤ y.after)) {n : Nat}
    {r : ShadowReg} (hr : shadowRegs[n]? = some r) :
    (latchCopy s).1.get r = (landAll (s.ctrl.filter (fun c => c.after ≤ n)) s.shadow).get r := by
  obtain ⟨-, -, hread⟩ := latchReads_spec shadowRegs_nodup 0 s.ctrl s.shadow s.shadow
  have h := hread n r hr
  rw [Nat.zero_add, takeWhile_eq_filter hs] at h
  exact h

/-! ### The checks -/

/-- The first register of a kind, in the order of the reads, is the one with the lowest address. -/
theorem find?_shadowRegs {p : ShadowReg → Bool} {r : ShadowReg} (hr : p r = true)
    (hlow : ∀ q, shadowAddr q < shadowAddr r → p q = false) : shadowRegs.find? p = some r := by
  obtain ⟨before, behind, hsplit⟩ := List.append_of_mem (mem_shadowRegs r)
  have hasc := shadowRegs_ascending
  rw [hsplit, List.pairwise_append] at hasc
  obtain ⟨-, -, hlt⟩ := hasc
  refine List.find?_eq_some_iff_append.2 ⟨hr, before, behind, hsplit, fun q hq => ?_⟩
  rw [hlow q (hlt q hq r List.mem_cons_self)]
  rfl

theorem checkParams_of_unwritten {b : Shadow} {r : ShadowReg} (hr : (b.get r).written = false)
    (hlow : ∀ q, shadowAddr q < shadowAddr r → (b.get q).written = true) :
    checkParams b = .error (.paramUninit, BitVec.ofNat 32 (shadowAddr r)) := by
  have hfind : shadowRegs.find? (fun q => !(b.get q).written) = some r :=
    find?_shadowRegs (by simp [hr]) fun q hq => by simp [hlow q hq]
  rw [checkParams, hfind]

theorem checkParams_of_nonfinite {b : Shadow} {r : ShadowReg} (hw : ∀ q, (b.get q).written = true)
    (hkind : regKind r = .binary32) (hr : isFinite (b.get r).value = false)
    (hlow : ∀ q, shadowAddr q < shadowAddr r → regKind q = .binary32 →
      isFinite (b.get q).value = true) :
    checkParams b = .error (.paramNonfinite, BitVec.ofNat 32 (shadowAddr r)) := by
  have hnone : shadowRegs.find? (fun q => !(b.get q).written) = none := by simp [hw]
  have hfind : shadowRegs.find? (isNonfiniteReg b) = some r := by
    refine find?_shadowRegs (by simp [isNonfiniteReg, hkind, hr]) fun q hq => ?_
    by_cases hq32 : regKind q = .binary32
    · simp [isNonfiniteReg, hlow q hq hq32]
    · simp [isNonfiniteReg, hq32]
  rw [checkParams, hnone]
  simp only [hfind]

/-! ### The command -/

section
variable {s : State} (hf : s.ctl.faulted = false) (hp : s.ctl.prepared = true)
include hf hp

/-- A LATCH whose local copy passes the checks takes it; the writes have landed. -/
theorem exec_latch_of_ok (hc : checkParams (latchCopy s).1 = .ok ()) :
    exec .latch s = .next (latchState (convert s.cfg.numerics (latchCopy s).1)
      { s with shadow := landAll s.ctrl s.shadow, ctrl := [] }) := by
  have hexec : exec .latch s = execLatch s := rfl
  rw [hexec, execLatch, whenAccepted_of_ready hf hp, latchBody, hc, latchLanded_eq]
  rfl

/-- A LATCH whose local copy fails them records the fault; the writes have landed. -/
theorem exec_latch_of_error {code : FaultCode} {info : Word}
    (hc : checkParams (latchCopy s).1 = .error (code, info)) :
    exec .latch s = .next (withFault (faultBits code) info
      { s with shadow := landAll s.ctrl s.shadow, ctrl := [] }) := by
  have hexec : exec .latch s = execLatch s := rfl
  rw [hexec, execLatch, whenAccepted_of_ready hf hp, latchBody, hc, latchLanded_eq]
  exact congrArg _ (raiseFault_of_unfaulted hf)

end

theorem voiceTakes_voiceApply (cfg : Cfg) (fs : Number) (p : Snapshot) (v : Voice) :
    VoiceTakes cfg fs p v (voiceApply cfg fs p v) where
  rest := rfl
  osc k := Four.get_build _ k
  env k := Four.get_build _ k
  envF := rfl

theorem step_overlap {s : State} {after : Nat} {reg : ShadowReg} {data : Word} {rest : List Access}
    (h : s.host = .overlap after reg data :: rest) :
    step s = .next { s with host := rest, ctrl := s.ctrl ++ [⟨after, reg, data⟩] } := by
  rw [step, h]

/-- Settles O28: the local copy decides, and its checks find the lowest address. -/
theorem latchReadsEachRegisterOnce : Obligations.LatchReadsEachRegisterOnce := by
  refine ⟨⟨shadowRegs_ascending, mem_shadowRegs⟩, fun s after reg data rest => step_overlap,
    fun s hf hp hs => ?_⟩
  have hseen := fun n r => get_latchCopy_fst hs (n := n) (r := r)
  have hok := exec_latch_of_ok hf hp
  have herror := fun code info => exec_latch_of_error hf hp (code := code) (info := info)
  generalize (latchCopy s).1 = seen at hseen hok herror
  have hiff := checkParams_eq_ok_iff seen
  cases hc : checkParams seen with
  | ok =>
    obtain ⟨hw, hfin⟩ := hiff.1 hc
    refine ⟨seen, _, hseen, hok hc, rfl, rfl, fun _ => ⟨rfl, List.length_map _, fun n v hv => ?_⟩,
      fun h => absurd ⟨hw, hfin⟩ h, fun r hr => absurd (hw r) (by simp [hr]),
      fun r _ hk hr => absurd (hfin r hk) (by simp [hr])⟩
    exact ⟨_, List.getElem?_map.trans (by rw [hv]; rfl), voiceTakes_voiceApply ..⟩
  | error e =>
    obtain ⟨code, info⟩ := e
    refine ⟨seen, _, hseen, herror _ _ hc, rfl, rfl, fun h => ?_, fun _ => ⟨rfl, rfl⟩,
      fun r hr hlow => ?_, fun r hw hk hr hlow => ?_⟩
    · rw [hiff.2 h] at hc
      exact nomatch hc
    · rw [checkParams_of_unwritten hr hlow] at hc
      cases hc; rfl
    · rw [checkParams_of_nonfinite hw hk hr hlow] at hc
      cases hc; rfl

end Sys2Proof.Machine
end

section
/-! The encoding: every bus write of an instruction decodes to it, every command word is one instruction, and
what a selector row stored is what the next LATCH takes (30_encoding R90 to R104; 46_commands R275). -/

namespace Sys2Proof.Machine

open Sys2Proof

/-! ### Where a write is decoded -/

theorem decode_cmdWrite (w : Word) : decode (cmdWrite w) = .ok (decodeCommand w) := if_pos rfl

/-- A selector row is written to a register whose codes select by name, and its code names the row. -/
theorem decode_encode_of_selectorReg {i : Instr} {r : ShadowReg} (h : selectorReg i = some r) :
    decode (encode i) = .ok i := by
  cases i with
  | prepare | latch | noteOn | noteOff | render | flush | filterReset | illegal => exact nomatch h
  | waveSine k | waveSaw k | waveSquare k | waveTriangle k => cases k <;> rfl
  | _ => rfl

theorem encode_of_selectorReg_eq_none {i : Instr} (h : selectorReg i = none) :
    encode i = cmdWrite (instrWord i) := by
  rw [encode, h]

/-! ### Legal command words (30_encoding R97 to R100) -/

theorem toNat_opcode (w : Word) : (opcode w).toNat = w.toNat % 16 := by
  simp [opcode, BitVec.extractLsb'_toNat]

theorem isIllegalWord_iff (w : Word) :
    isIllegalWord w = true ↔
      (opcode w).toNat = 0 ∨ 8 ≤ (opcode w).toNat ∨ w &&& reservedMask (opcode w) ≠ 0#32 := by
  simp [isIllegalWord, BitVec.ule, ← BitVec.toNat_inj, or_assoc]

/-- The opcodes that have a format. -/
theorem opcode_cases : ∀ op : BitVec 4, op.toNat ≠ 0 → op.toNat < 8 →
    op = 1#4 ∨ op = 2#4 ∨ op = 3#4 ∨ op = 4#4 ∨ op = 5#4 ∨ op = 6#4 ∨ op = 7#4 := by decide

/-- The reserved bits of each format, bit by bit (30_encoding R97). -/
theorem getLsbD_reservedMask : ∀ op : BitVec 4, ∀ b < 32, ((reservedMask op).getLsbD b = true ↔
    (op.toNat = 1 ∧ 4 ≤ b) ∨ (op.toNat = 2 ∧ 4 ≤ b) ∨ (op.toNat = 3 ∧ 22 ≤ b) ∨
    (op.toNat = 4 ∧ 16 ≤ b) ∨ (op.toNat = 5 ∧ 4 ≤ b ∧ b ≤ 15) ∨
    (op.toNat = 6 ∧ 4 ≤ b) ∨ (op.toNat = 7 ∧ 8 ≤ b)) := by decide

theorem and_ne_zero_iff (x y : Word) :
    x &&& y ≠ 0#32 ↔ ∃ b, b < 32 ∧ x.getLsbD b = true ∧ y.getLsbD b = true := by
  rw [ne_eq, BitVec.eq_of_getLsbD_eq_iff]
  simp

/-- The decoder's illegal words are the reserved words of R97 and R100. -/
theorem isIllegalWord_iff_reservedWord (w : Word) : isIllegalWord w = true ↔ ReservedWord w := by
  rw [isIllegalWord_iff, and_ne_zero_iff, ReservedWord, ← toNat_opcode]
  refine or_congr_right (or_congr_right (exists_congr fun b => and_congr_right fun hb => ?_))
  rw [getLsbD_reservedMask _ b hb]

/-- A format reserves no bit of the opcode, so its row's mask is its reserved bits and the opcode's. -/
theorem extractLsb'_rowMask : ∀ op : BitVec 4,
    (reservedMask op ||| 0xF#32).extractLsb' 0 4 = BitVec.allOnes 4 := by decide

theorem rowMask_and_reservedMask : ∀ op : BitVec 4,
    (reservedMask op ||| 0xF#32) &&& reservedMask op = reservedMask op := by decide

theorem setWidth_and_reservedMask : ∀ op : BitVec 4, op.setWidth 32 &&& reservedMask op = 0#32 := by
  decide

/-- A word that matches the row of an opcode's format is legal and has that opcode. -/
theorem legal_of_row {w : Word} {op : BitVec 4} (hop : op.toNat ≠ 0 ∧ op.toNat < 8)
    (h : w &&& (reservedMask op ||| 0xF#32) = op.setWidth 32) :
    opcode w = op ∧ isIllegalWord w = false := by
  have hcode : opcode w = op :=
    calc opcode w = (w &&& (reservedMask op ||| 0xF#32)).extractLsb' 0 4 := by
          rw [BitVec.extractLsb'_and, extractLsb'_rowMask, BitVec.and_allOnes, opcode]
      _ = op := by rw [h, BitVec.extractLsb'_setWidth_of_le (by decide), BitVec.extractLsb'_eq_self]
  have hreserved : w &&& reservedMask op = 0#32 := by
    rw [← rowMask_and_reservedMask, ← BitVec.and_assoc, h, setWidth_and_reservedMask]
  refine ⟨hcode, Bool.eq_false_iff.2 fun hill => ?_⟩
  rw [isIllegalWord_iff, hcode] at hill
  rcases hill with hzero | hhigh | hset
  · omega
  · omega
  · exact hset hreserved

/-! ### The fields of a legal word (30_encoding R97, R98) -/

section
variable {w : Word} (h : isIllegalWord w = false)
include h

theorem decodeCommand_prepare (hop : opcode w = 1#4) : decodeCommand w = .prepare := by
  rw [decodeCommand, h, hop]; rfl

theorem decodeCommand_latch (hop : opcode w = 2#4) : decodeCommand w = .latch := by
  rw [decodeCommand, h, hop]; rfl

theorem decodeCommand_noteOn (hop : opcode w = 3#4) :
    decodeCommand w = .noteOn (w.extractLsb' 15 7) (w.extractLsb' 8 7) (w.extractLsb' 4 4) := by
  rw [decodeCommand, h, hop]; rfl

theorem decodeCommand_noteOff (hop : opcode w = 4#4) :
    decodeCommand w = .noteOff (w.extractLsb' 9 7) (w.getLsbD 8) (w.extractLsb' 4 4) := by
  rw [decodeCommand, h, hop]; rfl

theorem decodeCommand_render (hop : opcode w = 5#4) :
    decodeCommand w = .render (w.extractLsb' 16 16) := by
  rw [decodeCommand, h, hop]; rfl

theorem decodeCommand_flush (hop : opcode w = 6#4) : decodeCommand w = .flush := by
  rw [decodeCommand, h, hop]; rfl

theorem decodeCommand_filterReset (hop : opcode w = 7#4) :
    decodeCommand w = .filterReset (w.extractLsb' 4 4) := by
  rw [decodeCommand, h, hop]; rfl

/-- A legal word's reserved bits are 0. -/
theorem extractLsb'_eq_zero_of_reserved {start len : Nat}
    (hm : (reservedMask (opcode w)).extractLsb' start len = BitVec.allOnes len) :
    w.extractLsb' start len = 0#len := by
  have hzero : w &&& reservedMask (opcode w) = 0#32 := by
    by_contra hne
    rw [(isIllegalWord_iff w).2 (.inr (.inr hne))] at h
    exact nomatch h
  calc w.extractLsb' start len
      = (w &&& reservedMask (opcode w)).extractLsb' start len := by
        rw [BitVec.extractLsb'_and, hm, BitVec.and_allOnes]
    _ = 0#len := by rw [hzero, BitVec.extractLsb'_zero]

end

theorem decodeCommand_of_illegal {w : Word} (h : isIllegalWord w = true) :
    decodeCommand w = .illegal w := by
  rw [decodeCommand, if_pos h]

/-! ### Encode, then decode -/

/-- A command's word decodes to it. -/
theorem decodeCommand_instrWord {i : Instr} (hs : selectorReg i = none) (hwf : i.wellFormed = true) :
    decodeCommand (instrWord i) = i := by
  cases i with
  | prepare | latch | flush => rfl
  | noteOn vel note voice =>
    obtain ⟨hop, hlegal⟩ := legal_of_row (w := instrWord (.noteOn vel note voice)) (op := 3#4) (by decide)
      (Laws.TableRow.noteOn vel note voice).2
    rw [decodeCommand_noteOn hlegal hop]
    simp (disch := omega) only [instrWord, BitVec.extractLsb'_append_eq_of_add_le,
      BitVec.extractLsb'_append_eq_of_le]
    simp
  | noteOff vel tail voice =>
    obtain ⟨hop, hlegal⟩ := legal_of_row (w := instrWord (.noteOff vel tail voice)) (op := 4#4) (by decide)
      (Laws.TableRow.noteOff vel tail voice).2
    rw [decodeCommand_noteOff hlegal hop]
    simp (disch := omega) only [instrWord, BitVec.extractLsb'_append_eq_of_add_le,
      BitVec.extractLsb'_append_eq_of_le, BitVec.getLsbD_append]
    simp
  | render count =>
    obtain ⟨hop, hlegal⟩ := legal_of_row (w := instrWord (.render count)) (op := 5#4) (by decide)
      (Laws.TableRow.render count).2
    rw [decodeCommand_render hlegal hop]
    simp (disch := omega) only [instrWord, BitVec.extractLsb'_append_eq_of_le]
    simp
  | filterReset voice =>
    obtain ⟨hop, hlegal⟩ := legal_of_row (w := instrWord (.filterReset voice)) (op := 7#4) (by decide)
      (Laws.TableRow.filterReset voice).2
    rw [decodeCommand_filterReset hlegal hop]
    simp (disch := omega) only [instrWord, BitVec.extractLsb'_append_eq_of_add_le,
      BitVec.extractLsb'_append_eq_of_le]
    simp
  | illegal w => exact decodeCommand_of_illegal hwf
  | _ => exact nomatch hs

/-- Settles O1: a selector row decodes by its register and code, a command by the fields of its word. -/
theorem decodeEncodeRoundTrip : Obligations.DecodeEncodeRoundTrip := by
  intro i hwf
  cases hs : selectorReg i with
  | some r => exact decode_encode_of_selectorReg hs
  | none => rw [encode_of_selectorReg_eq_none hs, decode_cmdWrite, decodeCommand_instrWord hs hwf]

/-! ### Decode, then encode -/

theorem ofBool_getLsbD (w : Word) (b : Nat) : BitVec.ofBool (w.getLsbD b) = w.extractLsb' b 1 := by
  ext i hi
  obtain rfl : i = 0 := by omega
  simp

/-- The word of a format without operands is its opcode. -/
theorem eq_opcode_of_reserved {w : Word} (h : w.extractLsb' 4 28 = 0#28) : w = 0#28 ++ opcode w := by
  rw [← h, opcode, BitVec.extractLsb'_append_extractLsb'_eq_extractLsb' (by rfl)]
  simp

/-- Every command word is the word of a well-formed command: a legal one is put together of its fields, its
opcode and its reserved bits, which are 0. -/
theorem exists_command (w : Word) :
    ∃ i : Instr, selectorReg i = none ∧ i.wellFormed = true ∧ instrWord i = w := by
  cases h : isIllegalWord w with
  | true => exact ⟨.illegal w, rfl, h, rfl⟩
  | false =>
    obtain ⟨hpos, hlt⟩ : (opcode w).toNat ≠ 0 ∧ (opcode w).toNat < 8 := by
      have hill := mt (isIllegalWord_iff w).2 (Bool.eq_false_iff.1 h)
      omega
    have hreserved := fun start len => extractLsb'_eq_zero_of_reserved h (start := start) (len := len)
    rcases opcode_cases _ hpos hlt with hop | hop | hop | hop | hop | hop | hop <;>
      rw [hop] at hreserved
    · refine ⟨.prepare, rfl, rfl, ?_⟩
      rw [eq_opcode_of_reserved (hreserved 4 28 (by decide)), hop]; rfl
    · refine ⟨.latch, rfl, rfl, ?_⟩
      rw [eq_opcode_of_reserved (hreserved 4 28 (by decide)), hop]; rfl
    · refine ⟨.noteOn (w.extractLsb' 15 7) (w.extractLsb' 8 7) (w.extractLsb' 4 4), rfl, rfl, ?_⟩
      rw [instrWord, ← hop, ← hreserved 22 10 (by decide), opcode]
      simp only [BitVec.extractLsb'_append_extractLsb'_eq_extractLsb']
      simp
    · refine ⟨.noteOff (w.extractLsb' 9 7) (w.getLsbD 8) (w.extractLsb' 4 4), rfl, rfl, ?_⟩
      rw [instrWord, ← hop, ← hreserved 16 16 (by decide), opcode, ofBool_getLsbD]
      simp only [BitVec.extractLsb'_append_extractLsb'_eq_extractLsb']
      simp
    · refine ⟨.render (w.extractLsb' 16 16), rfl, rfl, ?_⟩
      rw [instrWord, ← hop, ← hreserved 4 12 (by decide), opcode]
      simp only [BitVec.extractLsb'_append_extractLsb'_eq_extractLsb']
      simp
    · refine ⟨.flush, rfl, rfl, ?_⟩
      rw [eq_opcode_of_reserved (hreserved 4 28 (by decide)), hop]; rfl
    · refine ⟨.filterReset (w.extractLsb' 4 4), rfl, rfl, ?_⟩
      rw [instrWord, ← hop, ← hreserved 8 24 (by decide), opcode]
      simp only [BitVec.extractLsb'_append_extractLsb'_eq_extractLsb']
      simp

/-- Settles O2: a word decodes to the command whose word it is. -/
theorem commandWordsLoseNoBit : Obligations.CommandWordsLoseNoBit := by
  intro w
  obtain ⟨i, hs, hwf, rfl⟩ := exists_command w
  refine ⟨i, ?_, hwf, encode_of_selectorReg_eq_none hs⟩
  rw [decode_cmdWrite, decodeCommand_instrWord hs hwf]

/-- Settles O3: each line is what its word's opcode and fields decode to. -/
theorem exampleWordsDecode : Obligations.ExampleWordsDecode := by
  and_intros <;> exact decode_cmdWrite _

/-! ### Illegal words (30_encoding R100) -/

/-- The decoder answers ILLEGAL for the illegal words only: a command decodes to itself, and ILLEGAL is well
formed only with such a word. -/
theorem decodeCommand_eq_illegal_iff (w : Word) :
    decodeCommand w = .illegal w ↔ isIllegalWord w = true := by
  refine ⟨fun h => ?_, decodeCommand_of_illegal⟩
  obtain ⟨i, hs, hwf, rfl⟩ := exists_command w
  rw [decodeCommand_instrWord hs hwf] at h
  rwa [h] at hwf

/-- Settles O4: the words that decode to ILLEGAL are the decoder's illegal words, which are the reserved
ones. -/
theorem reservedWordsRaiseIllegalCommand : Obligations.ReservedWordsRaiseIllegalCommand := by
  refine fun w => ⟨?_, fun s hf => congrArg _ (raiseFault_of_unfaulted hf)⟩
  rw [decode_cmdWrite, Except.ok.injEq, decodeCommand_eq_illegal_iff, isIllegalWord_iff_reservedWord]

/-! ### Selector rows and LATCH (30_encoding R91 to R93; 46_commands R275) -/

theorem regKind_of_selectorReg {i : Instr} {r : ShadowReg} (h : selectorReg i = some r) :
    regKind r ≠ .binary32 := by
  cases i with
  | prepare | latch | noteOn | noteOff | render | flush | filterReset | illegal => exact nomatch h
  | _ => injection h with h; subst h; exact nofun

/-- A LATCH that would succeed still would after a code is stored: the register stays written, and codes are
not checked. -/
theorem State.LatchReady.storeShadow {s : State} (h : s.LatchReady) {r : ShadowReg}
    (hr : regKind r ≠ .binary32) (w : Word) : (Machine.storeShadow r w s).LatchReady where
  unfaulted := h.unfaulted
  prepared := h.prepared
  quiet := h.quiet
  written q := by
    rw [storeShadow_shadow, Shadow.get_store]
    split
    · rfl
    · exact h.written q
  finite q hq := by
    rw [storeShadow_shadow, Shadow.get_store, if_neg (by rintro rfl; exact hr hq)]
    exact h.finite q hq

/-- A selector row and the LATCH after it: the snapshot is the conversion of the registers with the row's code
in its register, and every voice takes it. -/
theorem exec_selector_latch {s : State} (h : s.LatchReady) {i : Instr} {r : ShadowReg}
    (hi : selectorReg i = some r) :
    ∃ t u, exec i s = .next t ∧ exec .latch t = .next u ∧
      u.snap = convert s.cfg.numerics (s.shadow.store r (instrWord i)) ∧
      u.voices = s.voices.map (voiceApply s.cfg s.ctl.fs u.snap) :=
  ⟨_, _, exec_of_selectorReg hi s,
    exec_latch_of_latchReady (h.storeShadow (regKind_of_selectorReg hi) _), rfl, rfl⟩

theorem convert_store_wave (nx : Numerics) (b : Shadow) (k : OscId) (w : Word) :
    ((convert nx (b.store (.osc k .wave) w)).osc.get k).wave
      = waveOfCode ((readBack .enum2 w).extractLsb' 0 2) := by
  have hconv : ∀ b : Shadow, ((convert nx b).osc.get k).wave
      = waveOfCode ((b.get (.osc k .wave)).value.extractLsb' 0 2) := fun b => by
    rw [convert, Four.get_map]; rfl
  rw [hconv, Shadow.get_store, if_pos rfl]; rfl

theorem convert_store_filtMode (nx : Numerics) (b : Shadow) (w : Word) :
    (convert nx (b.store .filtMode w)).filtMode = fmodeOfCode ((readBack .fmode w).extractLsb' 0 2) := rfl

theorem convert_store_algo (nx : Numerics) (b : Shadow) (w : Word) :
    (convert nx (b.store .algo w)).algo = algoOfCode ((readBack .enum3 w).extractLsb' 0 3) := rfl

/-- Settles O31: the register reads the row's code back, and the conversion of that code is the row's waveform,
mode or topology. -/
theorem selectorsReachTheDatapathAtLatch : Obligations.SelectorsReachTheDatapathAtLatch := by
  refine fun s hs => ⟨fun k i w h => ?_, fun i m h => ?_, fun i a h => ?_⟩
  · obtain ⟨hi, hw⟩ : selectorReg i = some (.osc k .wave) ∧
        waveOfCode ((readBack .enum2 (instrWord i)).extractLsb' 0 2) = w := by
      rcases h with ⟨rfl, rfl⟩ | ⟨rfl, rfl⟩ | ⟨rfl, rfl⟩ | ⟨rfl, rfl⟩ <;> cases k <;> exact ⟨rfl, rfl⟩
    obtain ⟨t, u, ht, hu, hsnap, hvoices⟩ := exec_selector_latch hs hi
    have hwave : (u.snap.osc.get k).wave = w := by rw [hsnap, convert_store_wave, hw]
    refine ⟨t, u, ht, hu, hwave, fun v hv => ?_⟩
    rw [hvoices] at hv
    obtain ⟨v', -, rfl⟩ := List.mem_map.1 hv
    rw [(voiceTakes_voiceApply s.cfg s.ctl.fs u.snap v').osc k, hwave]
  · obtain ⟨hi, hm⟩ : selectorReg i = some .filtMode ∧
        fmodeOfCode ((readBack .fmode (instrWord i)).extractLsb' 0 2) = m := by
      rcases h with ⟨rfl, rfl⟩ | ⟨rfl, rfl⟩ | ⟨rfl, rfl⟩ | ⟨rfl, rfl⟩ <;> exact ⟨rfl, rfl⟩
    obtain ⟨t, u, ht, hu, hsnap, -⟩ := exec_selector_latch hs hi
    exact ⟨t, u, ht, hu, by rw [hsnap, convert_store_filtMode, hm]⟩
  · obtain ⟨hi, ha⟩ : selectorReg i = some .algo ∧
        algoOfCode ((readBack .enum3 (instrWord i)).extractLsb' 0 3) = a := by
      rcases h with ⟨rfl, rfl⟩ | ⟨rfl, rfl⟩ | ⟨rfl, rfl⟩ | ⟨rfl, rfl⟩ | ⟨rfl, rfl⟩ | ⟨rfl, rfl⟩ |
        ⟨rfl, rfl⟩ | ⟨rfl, rfl⟩ <;> exact ⟨rfl, rfl⟩
    obtain ⟨t, u, ht, hu, hsnap, -⟩ := exec_selector_latch hs hi
    exact ⟨t, u, ht, hu, by rw [hsnap, convert_store_algo, ha]⟩

end Sys2Proof.Machine
end

section
/-! What NOTE_ON does to the voice it names (40_oscillator R122; 41_envelope R153; 44_voice R222; 46_commands
R278, R279). -/

namespace Sys2Proof.Machine

open Sys2Proof

theorem numOfNat_twelve : numOfNat 12 = .single 0x41400000#32 := by decide +kernel

/-- A command on a voice that exists has its effect on it, once the block is latched. -/
theorem whenAccepted_voiceCommand_of_ready {s : State} {voice : BitVec 4} (hr : s.Ready)
    (hv : voice.toNat < numVoices s) (w : Word) (effect : Nat → State) :
    whenAccepted w s (settle s (voiceCommand w voice s effect)) = effect voice.toNat := by
  obtain ⟨hf, hp, hl⟩ := hr
  rw [whenAccepted_of_ready hf hp, voiceCommand, checkVoice_of_lt hv, checkLatched_of_latched hl]
  rfl

theorem exec_noteOn_of_ready {s : State} {voice : BitVec 4} (hr : s.Ready)
    (hv : voice.toNat < numVoices s) (vel note : BitVec 7) :
    exec (.noteOn vel note voice) s = .next (noteOnState voice.toNat (noteFreq s.cfg note) s) :=
  congrArg _ (whenAccepted_voiceCommand_of_ready hr hv _ _)

theorem noteFreq_eq (cfg : Cfg) (note : BitVec 7) :
    noteFreq cfg note = cfg.numerics.mul cfg.a4Freq
      (cfg.numerics.exp2 (cfg.numerics.div
        (cfg.numerics.sub (.single (num32 note.toNat 1)) cfg.a4Note) (.single 0x41400000#32))) := by
  rw [noteFreq, numOfNat_twelve, numOfNat]

/-- The voice named is started, every other is kept. -/
theorem noteOnState_voices_getElem? (n i : Nat) (f : Number) (s : State) :
    (noteOnState n f s).voices[i]?
      = if i = n then s.voices[i]?.map (voiceNoteOn s.cfg s.ctl.fs f) else s.voices[i]? :=
  modifyAt_getElem? _ _ _ _

theorem oscNoteOn_eq (cfg : Cfg) (fs f : Number) (o : Osc) :
    oscNoteOn cfg fs f o = { o with
      base := f
      inc := cfg.numerics.mul (cfg.numerics.div (cfg.numerics.mul f
        (cfg.numerics.add o.coarse (cfg.numerics.mul o.fine cfg.fineScale))) fs) cfg.numerics.twoPi
      phase := .single 0#32
      hp := .single 0#32
      prevIn := .single 0#32 } := rfl

theorem envNoteOn_eq (nx : Numerics) (fs : Number) (e : Env) :
    envNoteOn nx fs e = { e with
      stage := .attack
      rate := if nx.lt (.single 0#32) e.a then
          .step (nx.div (.single 0x3F800000#32) (nx.mul e.a fs)) else .instant } := rfl

section
variable (cfg : Cfg) (fs f : Number) (v : Voice)

theorem voiceNoteOn_osc (k : OscId) :
    (voiceNoteOn cfg fs f v).osc.get k = oscNoteOn cfg fs f (v.osc.get k) := Four.get_map _ _ _

theorem voiceNoteOn_env (k : OscId) :
    (voiceNoteOn cfg fs f v).env.get k = envNoteOn cfg.numerics fs (v.env.get k) := Four.get_map _ _ _

theorem voiceNoteOn_filt :
    (voiceNoteOn cfg fs f v).filt = if cfg.filterResetOnNoteOn then
      { v.filt with s1 := .single 0#32, s2 := .single 0#32 } else v.filt := rfl

end

/-- Settles O33: NOTE_ON is `noteOnState`, which starts the voice named, and each unit of that voice takes its
own note-on. -/
theorem noteOnStartsTheVoice : Obligations.NoteOnStartsTheVoice := by
  rintro s vel note voice v f nx hr rfl hv rfl
  obtain ⟨hlt, -⟩ := List.getElem?_eq_some_iff.1 hv
  rw [← noteFreq_eq]
  refine ⟨_, voiceNoteOn s.cfg s.ctl.fs (noteFreq s.cfg note) v, exec_noteOn_of_ready hr hlt vel note, rfl,
    modifyAt_length _ _ _, fun n hn => ?_, ?_, rfl, rfl, fun k => ?_, fun k => ?_, ?_, ?_, fun _ => rfl⟩
  · rw [noteOnState_voices_getElem?, if_neg hn]
  · rw [noteOnState_voices_getElem?, if_pos rfl, hv, Option.map_some]
  · rw [voiceNoteOn_osc, oscNoteOn_eq]
  · rw [voiceNoteOn_env, envNoteOn_eq]
  · exact envNoteOn_eq _ _ _
  · exact voiceNoteOn_filt _ _ _ _

end Sys2Proof.Machine
end

section
/-! One sample of an oscillator (40_oscillator R123, R124, R126 to R129). -/

namespace Sys2Proof.Machine

open Sys2Proof

/-- The three lines of `wrap` (40_oscillator R124), their values named. -/
theorem wrap_eq {nx : Numerics} {p r u : Number} (hr : r = nx.fmod p nx.twoPi)
    (hu : u = if nx.lt r (.single 0#32) then nx.add r nx.twoPi else r) :
    wrap nx p = if nx.le nx.twoPi u then .single 0#32 else u := by
  subst hr hu; rfl

/-- One sample (40_oscillator R123), the DC blocker's output and the new phase named. -/
theorem oscRender_eq (cfg : Cfg) (fs m e : Number) (o : Osc) {hp phase : Number}
    (hhp : hp = cfg.numerics.mul (dcbAlpha cfg fs)
      (cfg.numerics.sub (cfg.numerics.add o.hp m) o.prevIn))
    (hphase : phase = wrap cfg.numerics (cfg.numerics.add o.phase
      (cfg.numerics.add o.inc (cfg.numerics.mul hp cfg.modIndex)))) :
    oscRender cfg fs m e o = ({ o with hp := hp, prevIn := m, phase := phase },
      cfg.numerics.mul (cfg.numerics.mul (waveAt cfg.numerics o.wave phase) o.gain) e) := by
  subst hphase hhp; rfl

section
variable (nx : Numerics) (p : Number)

theorem waveAt_sine : waveAt nx .sine p = nx.sin p := rfl

theorem waveAt_saw : waveAt nx .saw p
    = nx.sub (.single 0x3F800000#32) (nx.mul (.single 0x40000000#32) (nx.div p nx.twoPi)) := rfl

theorem waveAt_square : waveAt nx .square p
    = if nx.lt p nx.pi then .single 0x3F800000#32 else .single 0xBF800000#32 := rfl

theorem waveAt_triangle : waveAt nx .triangle p
    = nx.mul (nx.div (.single 0x40000000#32) nx.pi) (nx.asin (nx.sin p)) := rfl

end

/-- Settles O45: the sample, the wrap and each waveform by its own equation. -/
theorem oscillatorSampleFollowsItsSteps : Obligations.OscillatorSampleFollowsItsSteps := by
  refine ⟨?_, fun nx p r u => wrap_eq, fun nx p => ⟨waveAt_sine nx p, waveAt_saw nx p, waveAt_square nx p,
    waveAt_triangle nx p, ?_⟩⟩
  · rintro cfg fs m e o hp phase nx rfl
    exact oscRender_eq cfg fs m e o
  · rintro rfl
    exact ⟨Numerics.pi_binary32, Numerics.twoPi_binary32⟩

end Sys2Proof.Machine
end

section
/-! Rounding errors and order at binary32: how far a rounded integer is off, and that sums and products keep
the order of their operands. -/

namespace Sys2Proof.Machine

open Sys2Proof

/-! ### Rounding errors -/

/-- Rounding is off by at most half the distance of neighbouring values. -/
theorem two_mul_gap_nearestPat_le (n : Nat) {d : Nat} (hd : 0 < d) :
    2 * gap n d (nearestPat n d) ≤ roundUnit n d := by
  have hfloor := gap_of_le_floorPat (n := n) (le_refl (floorPat n d))
  have hsucc := gap_of_floorPat_lt hd (Nat.lt_succ_self (floorPat n d))
  simp only [Nat.sub_self, Nat.zero_mul, Nat.add_zero, Nat.succ_eq_add_one] at hfloor hsucc
  rcases nearestPat_cases (n := n) (d := d) with ⟨h, hp⟩ | ⟨h, hp⟩ | ⟨h, -, hp | hp⟩ <;>
    (rw [hp]; omega)

/-- An integer is rounded by at most one part in 2^24: below 2^24 it is exact, above it has 24 bits of
significand. -/
theorem gap_nearestPat_mul_le (n : Nat) : gap n 1 (nearestPat n 1) * 2 ^ 24 ≤ n := by
  have hhalf := two_mul_gap_nearestPat_le n one_pos
  rcases significand_cases (n := n) (d := 1) with he | hm
  · have hunit : roundUnit n 1 = 1 := by rw [roundUnit, he]; rfl
    omega
  · have hquot : 2 ^ 23 * roundUnit n 1 ≤ n :=
      (Nat.mul_le_mul_right _ hm).trans (Nat.div_mul_le_self _ _)
    omega

/-- The value of a rounded integer, for results that are finite. -/
theorem fixOf_roundPat_bounds {n : Nat} (h : roundPat n 1 < infPat) :
    fixOf (roundPat n 1) * 2 ^ 24 ≤ n * (2 ^ 24 + 1) ∧
      n * (2 ^ 24 - 1) ≤ fixOf (roundPat n 1) * 2 ^ 24 := by
  have hpat : roundPat n 1 = nearestPat n 1 := by rw [roundPat_eq_min] at h ⊢; omega
  have herr := gap_nearestPat_mul_le n
  rw [hpat]
  rw [gap] at herr
  omega

/-- A value of the grid rounds to itself, over any denominator. -/
theorem roundPat_fixOf_mul {p d : Nat} (hp : p < infPat) (hd : 0 < d) : roundPat (fixOf p * d) d = p := by
  have hgap := gap_nearestPat_le (n := fixOf p * d) hd p
  have hval : fixOf (nearestPat (fixOf p * d) d) = fixOf p := by
    simp only [gap, Nat.cast_mul, sub_self, Int.natAbs_zero, Nat.le_zero, Int.natAbs_eq_zero] at hgap
    have hmul : fixOf (nearestPat (fixOf p * d) d) * d = fixOf p * d := by
      exact_mod_cast sub_eq_zero.1 hgap
    exact Nat.eq_of_mul_eq_mul_right hd hmul
  have hfin : nearestPat (fixOf p * d) d < infPat := by
    by_contra hge
    have hinf := fixOf_mono (Nat.le_of_not_lt hge)
    have hlt := fixOf_mono (Nat.le_sub_one_of_lt hp)
    rw [fixOf_infPat] at hinf
    rw [fixOf_infPat_sub_one] at hlt
    omega
  rw [roundPat_of_lt hfin]
  exact fixOf_injOn_finite hfin hp hval

theorem roundPat_le_of_le_mul {n d p : Nat} (hp : p < infPat) (hd : 0 < d) (h : n ≤ fixOf p * d) :
    roundPat n d ≤ p :=
  (roundPat_mono d h).trans (roundPat_fixOf_mul hp hd).le

theorem le_roundPat_of_mul_le {n d p : Nat} (hp : p < infPat) (hd : 0 < d) (h : fixOf p * d ≤ n) :
    p ≤ roundPat n d :=
  (roundPat_fixOf_mul hp hd).ge.trans (roundPat_mono d h)

/-! ### Order -/

theorem flt_of_flt_of_fle {a b c : Word} (h1 : flt a b = true) (h2 : fle b c = true) :
    flt a c = true := by
  rw [flt_iff] at *
  rw [fle_iff] at h2
  exact ⟨h1.1, h2.2.1, h1.2.2.trans_le h2.2.2⟩

theorem flt_mkNum_iff {a : Word} {p : Nat} (ha : isNaN a = false) (hp : p ≤ infPat) :
    flt a (mkNum false p) = true ↔ rank a < p := by
  rw [flt_iff, rank_mkNum false (hp.trans_lt (by decide))]
  simp [ha, isNaN_mkNum false hp]

theorem mkNum_flt_iff {a : Word} {p : Nat} (ha : isNaN a = false) (hp : p ≤ infPat) :
    flt (mkNum false p) a = true ↔ p < rank a := by
  rw [flt_iff, rank_mkNum false (hp.trans_lt (by decide))]
  simp [ha, isNaN_mkNum false hp]

/-- The rank of a rounded sum. -/
def roundRank (s : Int) : Int := if s < 0 then -(roundPat s.natAbs 1 : Int) else roundPat s.natAbs 1

theorem roundRank_mono {s t : Int} (h : s ≤ t) : roundRank s ≤ roundRank t := by
  rw [roundRank, roundRank]
  split_ifs with hs ht
  · have := roundPat_mono 1 (show t.natAbs ≤ s.natAbs by omega)
    omega
  · omega
  · omega
  · exact_mod_cast roundPat_mono 1 (show s.natAbs ≤ t.natAbs by omega)

section
variable {a b c : Word} (ha : isFinite a = true) (hb : isFinite b = true)
include ha hb

/-- The sum of two finite numbers is no NaN, and ranks as the exact sum rounded. -/
theorem fadd_of_isFinite :
    isNaN (fadd a b) = false ∧ rank (fadd a b) = roundRank (sfixOf a + sfixOf b) := by
  rw [fadd, isNaN_of_isFinite ha, isNaN_of_isFinite hb, isInf_of_isFinite ha, isInf_of_isFinite hb]
  simp only [Bool.or_self, Bool.false_eq_true, if_false]
  split
  case isTrue hzero =>
    rw [hzero, rank_mkNum _ (by decide)]
    exact ⟨isNaN_mkNum _ (by decide), by simp [roundRank]⟩
  case isFalse =>
    rw [rank_mkNum _ (roundPat_lt _ _), roundRank]
    exact ⟨isNaN_mkNum _ (roundPat_le_infPat _ _), by simp⟩

/-- Taking more off leaves no more. -/
theorem fsub_anti (hc : isFinite c = true) (hbc : fle b c = true) :
    fle (fsub a c) (fsub a b) = true := by
  obtain ⟨hnb, hrb⟩ := fadd_of_isFinite ha (b := fneg b) (by rwa [isFinite_fneg])
  obtain ⟨hnc, hrc⟩ := fadd_of_isFinite ha (b := fneg c) (by rwa [isFinite_fneg])
  have hle := (fle_iff_sfixOf_le hb hc).1 hbc
  rw [fsub, fsub, fle_iff, hrb, hrc, sfixOf_fneg, sfixOf_fneg]
  exact ⟨hnc, hnb, roundRank_mono (by omega)⟩

theorem fmul_of_isFinite : fmul a b
    = mkNum (isNeg a != isNeg b) (roundPat (fixOf (magOf a) * fixOf (magOf b)) (2 ^ 149)) := by
  rw [fmul, isNaN_of_isFinite ha, isNaN_of_isFinite hb, isInf_of_isFinite ha, isInf_of_isFinite hb]
  rfl

/-- The difference of two numbers that are not negative, the first the greater. -/
theorem fsub_of_flt (ha0 : fle zero32 a = true) (hb0 : fle zero32 b = true) (hba : flt b a = true) :
    fsub a b = mkNum false (roundPat (fixOf (magOf a) - fixOf (magOf b)) 1) := by
  have hlt := (flt_iff_sfixOf_lt hb ha).1 hba
  have hsum : sfixOf a + sfixOf (fneg b) = (fixOf (magOf a) : Int) - fixOf (magOf b) := by
    rw [sfixOf_fneg, sfixOf_of_nonneg ha0, sfixOf_of_nonneg hb0]; ring
  rw [sfixOf_of_nonneg ha0, sfixOf_of_nonneg hb0] at hlt
  obtain ⟨neg, hsub, hzero⟩ := fadd_of_sum_nonneg ((isFinite_iff a).1 ha)
    (by rw [magOf_fneg]; exact (isFinite_iff b).1 hb) (by rw [hsum]; omega : 0 ≤ sfixOf a + sfixOf (fneg b))
  have hneg : neg = false := by
    by_contra hc
    have := hzero (by simpa using hc)
    omega
  have habs : (sfixOf a + sfixOf (fneg b)).natAbs = fixOf (magOf a) - fixOf (magOf b) := by omega
  rw [fsub, hsub, hneg, habs]

end

/-- A positive number times one that is not negative: a zero's sign makes no difference to the rank. -/
theorem fmul_of_nonneg {a b : Word} (ha : isFinite a = true) (hneg : isNeg a = false)
    (hb : isFinite b = true) (hb0 : fle zero32 b = true) :
    isNaN (fmul a b) = false ∧
      rank (fmul a b) = roundPat (fixOf (magOf a) * fixOf (magOf b)) (2 ^ 149) := by
  rw [fmul_of_isFinite ha hb, hneg, rank_mkNum _ (roundPat_lt _ _)]
  refine ⟨isNaN_mkNum _ (roundPat_le_infPat _ _), ?_⟩
  cases hs : isNeg b with
  | false => rfl
  | true => simp [((fle_zero_iff b).1 hb0).2 hs]

/-- A positive number times greater and greater numbers that are not negative. -/
theorem fmul_mono {a b c : Word} (ha : isFinite a = true) (hneg : isNeg a = false)
    (hc : isFinite c = true) (hb0 : fle zero32 b = true) (hbc : fle b c = true) :
    fle zero32 (fmul a b) = true ∧ fle (fmul a b) (fmul a c) = true := by
  have hc0 := fle_trans hb0 hbc
  obtain ⟨hnb, hrb⟩ := fmul_of_nonneg ha hneg (isFinite_of_fle hb0 hbc hc) hb0
  obtain ⟨hnc, hrc⟩ := fmul_of_nonneg ha hneg hc hc0
  have hmag : magOf b ≤ magOf c := by
    have hr := ((fle_iff b c).1 hbc).2.2
    rw [rank_of_nonneg hb0, rank_of_nonneg hc0] at hr
    exact_mod_cast hr
  have hmono := roundPat_mono (2 ^ 149) (Nat.mul_le_mul_left (fixOf (magOf a)) (fixOf_mono hmag))
  rw [fle_iff, fle_iff, hrb, hrc]
  exact ⟨⟨rfl, hnb, by simp⟩, hnb, hnc, by exact_mod_cast hmono⟩

end Sys2Proof.Machine
end

section
/-! The SAW and the DC blocker's coefficient at binary32 (40_oscillator R125, R127). -/

namespace Sys2Proof.Machine

open Sys2Proof

/-! ### SAW (40_oscillator R127) -/

theorem waveAt_saw_binary32 (p : Word) : (waveAt .binary32 .saw (.single p)).toWord
    = fsub one32 (fmul 0x40000000#32 (fdiv p twoPi32)) := rfl

/-- A phase below TWO_PI is at most the number next below it, whose quotient by TWO_PI is the number next
below 1. -/
theorem phase_div_twoPi_range {p : Word} (h0 : fle zero32 p = true) (hlt : flt p twoPi32 = true) :
    fle zero32 (fdiv p twoPi32) = true ∧ fle (fdiv p twoPi32) 0x3F7FFFFF#32 = true := by
  have hle : fle p 0x40C90FDA#32 = true := by
    obtain ⟨hn, -, hr⟩ := (flt_iff _ _).1 hlt
    have htwo : rank twoPi32 = 0x40C90FDB := by decide
    have hbelow : rank 0x40C90FDA#32 = 0x40C90FDA := by decide
    exact (fle_iff _ _).2 ⟨hn, by decide, by omega⟩
  have hfin : isFinite p = true := isFinite_of_fle h0 hle (by decide)
  have hlow : fdiv zero32 twoPi32 = zero32 := by decide +kernel
  have hhigh : fdiv 0x40C90FDA#32 twoPi32 = 0x3F7FFFFF#32 := by decide +kernel
  refine ⟨hlow ▸ fdiv_mono (by decide) hfin (by decide) (by decide) (by decide) h0, ?_⟩
  exact hhigh ▸ fdiv_mono hfin (by decide) (by decide) (by decide) (by decide) hle

/-- Settles O47: the SAW falls with the phase, from 1 at 0 to 1 - 2 * 0x3F7FFFFF, which is the number next
above -1. -/
theorem sawNeverReachesMinusOne : Obligations.SawNeverReachesMinusOne := by
  intro p h0 hlt
  obtain ⟨hq0, hq1⟩ := phase_div_twoPi_range h0 hlt
  have htwice : fmul 0x40000000#32 0x3F7FFFFF#32 = 0x3FFFFFFF#32 := by decide +kernel
  obtain ⟨ht0, ht1⟩ := fmul_mono (a := 0x40000000#32) (by decide) (by decide) (by decide) hq0 hq1
  rw [htwice] at ht1
  have hlast : flt 0xBF800000#32 (fsub one32 0x3FFFFFFF#32) = true := by decide +kernel
  rw [waveAt_saw_binary32]
  refine ⟨flt_of_flt_of_fle hlast ?_, fsub_fle_self (by decide) (by decide) ht0⟩
  exact fsub_anti (by decide) (isFinite_of_fle ht0 ht1 (by decide)) (by decide) ht1

/-! ### DCB_ALPHA (40_oscillator R125) -/

theorem dcbAlpha_corrected {cfg : Cfg} (h : cfg.dcb = .corrected) (fs : Number) :
    dcbAlpha cfg fs = cfg.numerics.div
      (cfg.numerics.sub fs (cfg.numerics.mul cfg.numerics.twoPi cfg.dcbFc)) fs := by
  rw [dcbAlpha, h]

/-- TWO_PI * 40. -/
theorem twoPi_mul_forty : fmul twoPi32 0x42200000#32 = 0x437B53D2#32 := by decide +kernel

theorem dcbAlpha_binary32 {cfg : Cfg} (hnx : cfg.numerics = .binary32) (hdcb : cfg.dcb = .corrected)
    (hfc : cfg.dcbFc = .single 0x42200000#32) (fs : Word) :
    (dcbAlpha cfg (.single fs)).toWord = fdiv (fsub fs 0x437B53D2#32) fs := by
  rw [dcbAlpha_corrected hdcb, hnx, hfc, ← twoPi_mul_forty]; rfl

/-- An accepted rate lies above 40000 and up to 384000, in units of 2^-149. -/
theorem AcceptedRate.fixOf_bounds {fs : Number} (h : AcceptedRate fs) :
    40000 * 2 ^ 149 ≤ fixOf (magOf fs.toWord) ∧ fixOf (magOf fs.toWord) ≤ 384000 * 2 ^ 149 := by
  have hfs0 : fle zero32 fs.toWord = true := fle_trans (by decide) h.one_le
  have hmin : sfixOf fsMinExcl = 40000 * 2 ^ 149 := by decide +kernel
  have hmax : sfixOf fsMax = 384000 * 2 ^ 149 := by decide +kernel
  have hlow := (flt_iff_sfixOf_lt (by decide) h.isFinite).1 h.1
  have hhigh := (fle_iff_sfixOf_le h.isFinite (by decide)).1 h.2
  rw [hmin, sfixOf_of_nonneg hfs0] at hlow
  rw [hmax, sfixOf_of_nonneg hfs0] at hhigh
  omega

/-- The rate less TWO_PI * 40, rounded: off from the exact difference by at most one part in 2^24. -/
theorem AcceptedRate.sub_dcb {fs : Number} (h : AcceptedRate fs) :
    ∃ q < infPat, fsub fs.toWord 0x437B53D2#32 = mkNum false q ∧
      fixOf q * 2 ^ 24 ≤ (fixOf (magOf fs.toWord) - fixOf 0x437B53D2) * (2 ^ 24 + 1) ∧
      (fixOf (magOf fs.toWord) - fixOf 0x437B53D2) * (2 ^ 24 - 1) ≤ fixOf q * 2 ^ 24 := by
  have hfs0 : fle zero32 fs.toWord = true := fle_trans (by decide) h.one_le
  have hlt : flt 0x437B53D2#32 fs.toWord = true :=
    flt_of_flt_of_fle (b := fsMinExcl) (by decide) ((fle_iff _ _).2
      ⟨by decide, notNaN_of_fle_right hfs0, ((flt_iff _ _).1 h.1).2.2.le⟩)
  have hfin : roundPat (fixOf (magOf fs.toWord) - fixOf 0x437B53D2) 1 < infPat :=
    (roundPat_le_of_le ((isFinite_iff _).1 h.isFinite) (Nat.sub_le _ _)).trans_lt
      ((isFinite_iff _).1 h.isFinite)
  exact ⟨_, hfin, fsub_of_flt h.isFinite (by decide) hfs0 (by decide) hlt, fixOf_roundPat_bounds hfin⟩

/-- The margins of R125's bounds, for a rate F and its rounded distance D from TWO_PI * 40, in units of
2^-149: they are wider than one part in 2^24. -/
theorem dcb_margins {F D : Nat} (hmin : 40000 * 2 ^ 149 ≤ F) (hmax : F ≤ 384000 * 2 ^ 149)
    (hupper : D * 2 ^ 24 ≤ (F - 0xFB53D2 * 2 ^ 133) * (2 ^ 24 + 1))
    (hlower : (F - 0xFB53D2 * 2 ^ 133) * (2 ^ 24 - 1) ≤ D * 2 ^ 24) :
    0xFE63C8 * 2 ^ 125 * F ≤ D * 2 ^ 149 ∧ D * 2 ^ 149 ≤ 0xFFD566 * 2 ^ 125 * F := by
  omega

/-- The pattern of 1 - TWO_PI * 40 / fs for an accepted fs: the margins of the two bounds cover the rounding
of the difference, and the bounds themselves are numbers, which the quotient's rounding does not cross. -/
theorem AcceptedRate.dcbAlpha_pattern {fs : Number} (h : AcceptedRate fs) :
    ∃ p, fdiv (fsub fs.toWord 0x437B53D2#32) fs.toWord = mkNum false p ∧
      0x3F7E63C7 < p ∧ p < 0x3F7FD567 := by
  obtain ⟨hmin, hmax⟩ := h.fixOf_bounds
  obtain ⟨q, hq, hsub, hupper, hlower⟩ := h.sub_dcb
  have hpos : 0 < fixOf (magOf fs.toWord) := by omega
  have hq' : q < 2 ^ 31 := hq.trans (by decide)
  have hfs0 : fle zero32 fs.toWord = true := fle_trans (by decide) h.one_le
  have hC : fixOf 0x437B53D2 = 0xFB53D2 * 2 ^ 133 := by decide +kernel
  have hL : fixOf 0x3F7E63C8 = 0xFE63C8 * 2 ^ 125 := by decide +kernel
  have hU : fixOf 0x3F7FD566 = 0xFFD566 * 2 ^ 125 := by decide +kernel
  rw [hC] at hupper hlower
  obtain ⟨hlow, hhigh⟩ := dcb_margins hmin hmax hupper hlower
  rw [← hL] at hlow
  rw [← hU] at hhigh
  refine ⟨_, ?_, le_roundPat_of_mul_le (by decide) hpos hlow,
    Nat.lt_succ_of_le (roundPat_le_of_le_mul (by decide) hpos hhigh)⟩
  have hneg : isNeg fs.toWord = false := by
    by_contra hc
    rw [((fle_zero_iff _).1 hfs0).2 (by simpa using hc), fixOf_zero] at hpos
    omega
  have hz : isZero fs.toWord = false :=
    (isZero_false_iff _).2 fun hc => by rw [hc, fixOf_zero] at hpos; omega
  rw [hsub, fdiv_pos (isFinite_mkNum false hq) h.isFinite hneg hz, isNeg_mkNum false hq',
    magOf_mkNum false hq']

/-- Settles O46: the formula is the definition's; its pattern lies between those of the bounds. -/
theorem dcBlockerCoefficientIsBelowOne : Obligations.DcBlockerCoefficientIsBelowOne := by
  refine ⟨?_, fun cfg fs hnx hdcb hfc hmin hmax => ?_⟩
  · rintro cfg fs nx rfl hdcb
    exact dcbAlpha_corrected hdcb fs
  · obtain ⟨p, hp, hlow, hhigh⟩ := AcceptedRate.dcbAlpha_pattern (fs := .single fs) ⟨hmin, hmax⟩
    have hrlow : rank 0x3F7E63C7#32 = 0x3F7E63C7 := by decide
    have hrhigh : rank 0x3F7FD567#32 = 0x3F7FD567 := by decide
    have hinf : p ≤ infPat := by rw [infPat]; omega
    rw [dcbAlpha_binary32 hnx hdcb hfc, ← Number.toWord_single fs, hp, flt_mkNum_iff (by decide) hinf,
      mkNum_flt_iff (by decide) hinf, hrlow, hrhigh]
    omega

end Sys2Proof.Machine
end

section
/-! One sample of an envelope: its steps, instantaneous stages, and the order of the levels (41_envelope R155
to R159, R161, R162, R164). -/

namespace Sys2Proof

open Sys2Proof.Machine

/-! ### A number compared with itself -/

theorem Numerics.lt_self (nx : Numerics) (a : Number) : nx.lt a a = false := by
  cases nx with
  | binary32 => simp [flt]
  | other => cases h : a.value <;> simp [Numerics.lt, Value.lt, h]

theorem Numerics.le_self (nx : Numerics) {w : Word} (hw : isFinite w = true) :
    nx.le (.single w) (.single w) = true := by
  cases nx with
  | binary32 => exact fle_refl (isNaN_of_isFinite hw)
  | other => rw [Numerics.le, Number.value_single_of_isFinite hw, Value.le_fin]

theorem Numerics.le_zero_zero (nx : Numerics) : nx.le zero zero = true := nx.le_self (by decide)

theorem Numerics.le_one_one (nx : Numerics) : nx.le one one = true := nx.le_self (by decide)

end Sys2Proof

namespace Sys2Proof.Machine

open Sys2Proof

/-- A time of 0 makes a stage instantaneous (41_envelope R151). -/
theorem envRate_zero (nx : Numerics) (fs dist : Number) : envRate nx fs dist zero = .instant := by
  rw [envRate, nx.lt_self, if_neg Bool.false_ne_true]

/-! ### One sample, by the stage -/

section
variable {nx : Numerics} {e : Env} (fs : Number)

theorem envNext_of_idle (h : e.stage = .idle) : envNext nx fs e = e := by rw [envNext, h]

theorem envNext_of_attack (h : e.stage = .attack) : envNext nx fs e = attackStep nx fs e := by
  rw [envNext, h]

theorem envNext_of_decay (h : e.stage = .decay) : envNext nx fs e = decayStep nx e := by rw [envNext, h]

theorem envNext_of_sustain (h : e.stage = .sustain) : envNext nx fs e = sustainStep e := by
  rw [envNext, h]

theorem envNext_of_release (h : e.stage = .release) : envNext nx fs e = releaseStep nx e := by
  rw [envNext, h]

/-! ### Instantaneous stages (41_envelope R162) -/

theorem stepUp_of_instant (h : e.rate = .instant) (target : Number) : stepUp nx target e = target := by
  rw [stepUp, h]

theorem stepDown_of_instant (h : e.rate = .instant) (target : Number) :
    stepDown nx target e = target := by
  rw [stepDown, h]

theorem attackStep_of_instant (h : e.rate = .instant) :
    attackStep nx fs e
      = { e with level := one, stage := .decay, rate := envRate nx fs (nx.sub one e.s) e.d } := by
  rw [attackStep, stepUp_of_instant h, if_pos nx.le_one_one]

theorem decayStep_of_instant (h : e.rate = .instant) (hs : nx.le e.s e.s = true) :
    decayStep nx e = { e with level := e.s, stage := .sustain } := by
  rw [decayStep, stepDown_of_instant h, if_pos hs]

theorem releaseStep_of_instant (h : e.rate = .instant) :
    releaseStep nx e = { e with level := zero, stage := .idle } := by
  rw [releaseStep, stepDown_of_instant h, if_pos nx.le_zero_zero]

/-- The first sample after a note-on with A = 0. -/
theorem envNext_envNoteOn (ha : e.a = zero) :
    envNext nx fs (envNoteOn nx fs e)
      = { e with level := one, stage := .decay, rate := envRate nx fs (nx.sub one e.s) e.d } := by
  have hrate : (envNoteOn nx fs e).rate = .instant := by rw [envNoteOn, ha, envRate_zero]
  rw [envNext_of_attack fs rfl, attackStep_of_instant fs hrate]; rfl

/-- The first sample after a note-off with R = 0. -/
theorem envNext_envNoteOff (hr : e.r = zero) (hs : e.stage ≠ .idle) :
    envNext nx fs (envNoteOff nx fs e) = { e with level := zero, stage := .idle, rate := .instant } := by
  have hoff : envNoteOff nx fs e = { e with stage := .release, rate := .instant } := by
    rw [envNoteOff, if_neg hs, hr, envRate_zero]
  rw [hoff, envNext_of_release fs rfl, releaseStep_of_instant rfl]

end

/-- Settles O50: each stage's step is its definition; a time of 0 gives the rate INSTANT, which reaches the
stage's target on its first sample. -/
theorem zeroTimesAreInstantaneous : Obligations.ZeroTimesAreInstantaneous := by
  refine ⟨fun nx fs e up down hup hdown => ?_, fun nx fs e => ⟨fun ha => ?_, fun ha hd hs => ?_,
    fun hr hs => ?_⟩⟩
  · have hup : up = stepUp nx one e := hup
    have hdown : ∀ target, down target = stepDown nx target e := hdown
    rw [hup, hdown, hdown]
    exact ⟨envNext_of_attack fs, envNext_of_decay fs, envNext_of_sustain fs, envNext_of_release fs,
      envNext_of_idle fs⟩
  · rw [envNext_envNoteOn fs ha]
    exact ⟨rfl, rfl⟩
  · have hrate : envRate nx fs (nx.sub one e.s) e.d = .instant := by rw [hd]; exact envRate_zero ..
    rw [envNext_envNoteOn fs ha, envNext_of_decay fs rfl, decayStep_of_instant]
    exacts [⟨rfl, rfl⟩, hrate, hs]
  · rw [envNext_envNoteOff fs hr hs]
    exact ⟨rfl, rfl⟩

/-! ### Monotone stages (41_envelope R164) -/

/-- A number that binary32 holds is not rounded. -/
theorem roundRank_sfixOf {a : Word} (ha : fle zero32 a = true) (hfa : isFinite a = true) :
    roundRank (sfixOf a) = rank a := by
  rw [roundRank, sfixOf_of_nonneg ha, rank_of_nonneg ha, if_neg (by omega), Int.natAbs_natCast,
    roundPat_fixOf ((isFinite_iff a).1 hfa)]

/-- What is added makes a number no smaller, and no NaN. -/
theorem fle_fadd_self {a b : Word} (ha : fle zero32 a = true) (hfa : isFinite a = true)
    (hb : fle zero32 b = true) : fle a (fadd a b) = true := by
  have hna := notNaN_of_fle_right ha
  have hnb := notNaN_of_fle_right hb
  cases hfb : isFinite b with
  | false =>
    have hmag : magOf b = infPat := le_antisymm ((isNaN_false_iff b).1 hnb) ((isFinite_false_iff b).1 hfb)
    have hadd : fadd a b = b := by
      rw [fadd, hna, hnb, isInf_of_isFinite hfa, (isInf_iff b).2 hmag]; rfl
    rw [hadd, fle_iff, rank_of_nonneg ha, rank_of_nonneg hb, hmag]
    exact ⟨hna, hnb, by exact_mod_cast ((isFinite_iff a).1 hfa).le⟩
  | true =>
    obtain ⟨hsum, hrank⟩ := fadd_of_isFinite hfa hfb
    have hle : sfixOf a ≤ sfixOf a + sfixOf b := by rw [sfixOf_of_nonneg hb]; omega
    rw [fle_iff, hrank, ← roundRank_sfixOf ha hfa]
    exact ⟨hna, hsum, roundRank_mono hle⟩

section
variable {e : Env} (hl : inUnit e.level = true) (hr : rateOk e.rate = true)
include hl hr

/-- A step up leads to the target or does not lower the level. -/
theorem stepUp_cases (target : Number) :
    stepUp .binary32 target e = target ∨ fle e.level.toWord (stepUp .binary32 target e).toWord = true := by
  rw [stepUp]
  split
  case h_1 => exact .inl rfl
  case h_2 x hx =>
    rw [hx] at hr
    exact .inr (fle_fadd_self ((inUnit_iff _).1 hl).1 (inUnit_isFinite hl) hr)

/-- A step down leads to the target or does not raise the level. -/
theorem stepDown_cases (target : Number) :
    stepDown .binary32 target e = target ∨
      fle (stepDown .binary32 target e).toWord e.level.toWord = true := by
  rw [stepDown]
  split
  case h_1 => exact .inl rfl
  case h_2 x hx =>
    rw [hx] at hr
    exact .inr (fsub_fle_self ((inUnit_iff _).1 hl).1 (inUnit_isFinite hl) hr)

theorem fle_level_attackStep (fs : Number) :
    fle e.level.toWord (attackStep .binary32 fs e).level.toWord = true := by
  have htop : fle e.level.toWord one.toWord = true := ((inUnit_iff _).1 hl).2
  rw [attackStep]
  split
  case isTrue => exact htop
  case isFalse =>
    rcases stepUp_cases hl hr one with hone | hup
    · rw [hone]; exact htop
    · exact hup

theorem decayStep_level_cases :
    (decayStep .binary32 e).level = e.s ∨ fle (decayStep .binary32 e).level.toWord e.level.toWord = true := by
  rw [decayStep]
  split
  case isTrue => exact .inl rfl
  case isFalse => exact stepDown_cases hl hr e.s

theorem releaseStep_level_fle : fle (releaseStep .binary32 e).level.toWord e.level.toWord = true := by
  have hbottom : fle zero.toWord e.level.toWord = true := ((inUnit_iff _).1 hl).1
  rw [releaseStep]
  split
  case isTrue => exact hbottom
  case isFalse =>
    rcases stepDown_cases hl hr zero with hzero | hdown
    · rw [hzero]; exact hbottom
    · exact hdown

end

/-- Settles O49: a stage's sample is its target, or what the rate, which is not negative, adds or takes off.
Only the target of DECAY, the sustain level, can lie on the other side of the level. -/
theorem envelopeIsMonotoneWithinAStage : Obligations.EnvelopeIsMonotoneWithinAStage := by
  rintro fs e _ _ he rfl rfl
  have hl := he.level rfl
  have hr := he.rate rfl
  refine ⟨fun h => ?_, fun h => ?_, fun h => ?_⟩
  · rw [envNext_of_attack fs h]
    exact fle_level_attackStep hl hr fs
  · rw [envNext_of_decay fs h]
    rcases decayStep_level_cases hl hr with hs | hdown
    · have hnl := isNaN_of_isFinite (inUnit_isFinite hl)
      have hns := isNaN_of_isFinite (inUnit_isFinite (he.sustain rfl rfl))
      rw [hs, fle_eq_not_flt hns hnl, ← Bool.or_eq_true]
      exact Bool.or_not_self _
    · exact .inr hdown
  · rw [envNext_of_release fs h]
    exact releaseStep_level_fle hl hr

end Sys2Proof.Machine
end

section
/-! What FILTER_RESET does to the voice it names, and one sample of a filter (42_filter R181 to R185, R187;
46_commands R281). -/

namespace Sys2Proof.Machine

open Sys2Proof

/-! ### FILTER_RESET (46_commands R281) -/

theorem exec_filterReset_of_ready {s : State} {voice : BitVec 4} (hr : s.Ready)
    (hv : voice.toNat < numVoices s) :
    exec (.filterReset voice) s
      = .next (modifyVoice voice.toNat (fun x => { x with filt := filtReset x.filt }) s) :=
  congrArg _ (whenAccepted_voiceCommand_of_ready hr hv _ _)

/-- The voice named is changed by the function, every other is kept. -/
theorem modifyVoice_voices_getElem? (n i : Nat) (f : Voice → Voice) (s : State) :
    (modifyVoice n f s).voices[i]? = if i = n then s.voices[i]?.map f else s.voices[i]? := by
  rw [modifyVoice_voices, modifyAt_getElem?]

/-- Settles O35: FILTER_RESET applies `filtReset` to the filter of the voice named, whatever its state. -/
theorem filterResetClearsTheIntegrators : Obligations.FilterResetClearsTheIntegrators := by
  intro s voice v hr hv
  obtain ⟨hlt, -⟩ := List.getElem?_eq_some_iff.1 hv
  refine ⟨_, exec_filterReset_of_ready hr hlt, rfl, ?_, fun n hn => ?_, ?_, fun _ => rfl⟩
  · rw [modifyVoice_voices, modifyAt_length]
  · rw [modifyVoice_voices_getElem?, if_neg hn]
  · rw [modifyVoice_voices_getElem?, if_pos rfl, hv]; rfl

/-! ### One sample (42_filter R183, R184) -/

/-- The integrators and the output of a sample, its three lines named; of the filter only the output depends
on the mode. -/
theorem filtProcess_eq {nx : Numerics} {f : Filt} {x yHP yBP yLP : Number}
    (hHP : yHP = nx.mul f.h (nx.sub (nx.sub x (nx.mul f.s1 (nx.add f.g f.r2))) f.s2))
    (hBP : yBP = nx.add (nx.mul yHP f.g) f.s1) (hLP : yLP = nx.add (nx.mul yBP f.g) f.s2)
    (mode : FMode) :
    filtProcess nx { f with mode := mode } x =
      ({ f with
          mode := mode
          s1 := nx.add (nx.mul yHP f.g) yBP
          s2 := nx.add (nx.mul yBP f.g) yLP },
        match mode with
        | .lp => yLP
        | .bp => yBP
        | .hp => yHP) := by
  subst hLP hBP hHP
  cases mode <;> rfl

/-! ### The block path (42_filter R187) -/

theorem filtRun_cons (nx : Numerics) (f : Filt) (x : Number) (xs : List Number) :
    filtRun nx f (x :: xs) = filtRun nx (filtProcess nx f x).1 xs := rfl

theorem filtOutputs_cons (nx : Numerics) (f : Filt) (x : Number) (xs : List Number) :
    filtOutputs nx f (x :: xs) = (filtProcess nx f x).2 :: filtOutputs nx (filtProcess nx f x).1 xs := rfl

/-! ### The update (42_filter R181, R182) -/

/-- The update, its values named; the integrators are the filter's own. -/
theorem filtUpdate_eq {cfg : Cfg} {base res ev fc q g r2 : Number} (fs : Number) (mode : FMode) (f : Filt)
    (hfc : fc = cutoffOf cfg base ev) (hq : q = cfg.numerics.clamp res one (.single 0x41200000#32))
    (hg : g = coefG cfg.numerics fs fc) (hr2 : r2 = coefR2 cfg.numerics q) :
    filtUpdate cfg fs mode base res ev f =
      { mode := mode, fc := fc, res := q, g := g, r2 := r2, h := coefH cfg.numerics g r2
        s1 := f.s1, s2 := f.s2 } := by
  subst hr2 hg hq hfc
  rw [filtUpdate, numOfNat_ten]; rfl

/-- Settles O51: the sample, the block path and the update each by its own equation. -/
theorem filterSampleFollowsItsSteps : Obligations.FilterSampleFollowsItsSteps := by
  refine ⟨fun nx f x yHP yBP yLP => filtProcess_eq, fun nx f x xs => ⟨rfl, filtRun_cons nx f x xs, rfl,
    filtOutputs_cons nx f x xs⟩, ?_⟩
  rintro cfg fs mode base res ev fc q g r2 f nx rfl hfc hq hg hr2
  exact filtUpdate_eq fs mode f hfc hq hg hr2

end Sys2Proof.Machine
end

section
/-! The cutoff in force and the coefficient g at binary32 (42_filter R181, R182, R186). -/

namespace Sys2Proof.Machine

open Sys2Proof

/-! ### Sums, products and clamps -/

/-- Two numbers whose magnitudes sum to less than the midpoint above the greatest number do not overflow. -/
theorem isFinite_fadd {a b : Word} (ha : isFinite a = true) (hb : isFinite b = true)
    (h : fixOf (magOf a) + fixOf (magOf b) < (2 ^ 25 - 1) * 2 ^ 252) : isFinite (fadd a b) = true := by
  have hna := natAbs_sfixOf a
  have hnb := natAbs_sfixOf b
  have hfin : roundPat (sfixOf a + sfixOf b).natAbs 1 < infPat := by
    rw [roundPat_eq_min, min_lt_iff]
    exact .inl ((nearestPat_lt_infPat_iff one_pos).2 (by omega))
  rw [fadd, isNaN_of_isFinite ha, isNaN_of_isFinite hb, isInf_of_isFinite ha, isInf_of_isFinite hb]
  simp only [Bool.or_self, Bool.false_eq_true, if_false]
  split
  · exact isFinite_mkNum _ (by decide)
  · exact isFinite_mkNum _ hfin

theorem isZero_fadd {a b : Word} (ha : isZero a = true) (hb : isZero b = true) :
    isZero (fadd a b) = true := by
  have hma := (isZero_iff a).1 ha
  have hmb := (isZero_iff b).1 hb
  have hfa : isFinite a = true := (isFinite_iff a).2 (by rw [hma]; decide)
  have hfb : isFinite b = true := (isFinite_iff b).2 (by rw [hmb]; decide)
  have hsum : sfixOf a + sfixOf b = 0 := by rw [sfixOf, sfixOf, hma, hmb]; simp
  rw [fadd, isNaN_of_isFinite hfa, isNaN_of_isFinite hfb, isInf_of_isFinite hfa, isInf_of_isFinite hfb,
    if_pos hsum, isZero_iff]
  exact magOf_mkNum _ (by decide)

/-- A zero, of either sign, is below every positive number. -/
theorem flt_of_isZero {z a : Word} (hz : isZero z = true) (ha : flt zero32 a = true) : flt z a = true := by
  have hmag := (isZero_iff z).1 hz
  have hrank : rank z = 0 := by rw [rank, hmag]; simp
  have hnan : isNaN z = false := (isNaN_false_iff z).2 (by rw [hmag]; decide)
  obtain ⟨-, hnana, hlt⟩ := (flt_iff _ _).1 ha
  exact (flt_iff _ _).2 ⟨hnan, hnana, hrank ▸ hlt⟩

/-- A product of finite numbers that are not negative is not negative. -/
theorem fmul_nonneg_of_isFinite {a b : Word} (ha : isFinite a = true) (hb : isFinite b = true)
    (ha0 : fle zero32 a = true) (hb0 : fle zero32 b = true) : fle zero32 (fmul a b) = true := by
  rw [fmul_of_isFinite ha hb]
  cases hna : isNeg a with
  | true =>
    rw [((fle_zero_iff a).1 ha0).2 hna, fixOf_zero, Nat.zero_mul, roundPat_zero]
    exact nonneg_mkNum_zero _
  | false =>
    cases hnb : isNeg b with
    | true =>
      rw [((fle_zero_iff b).1 hb0).2 hnb, fixOf_zero, Nat.mul_zero, roundPat_zero]
      exact nonneg_mkNum_zero _
    | false => exact nonneg_mkNum (roundPat_le_infPat _ _)

/-- A clamp does not pass a number that lies below both its argument and its upper limit. -/
theorem fle_clamp {w : Word} {x lo hi : Number} (hx : fle w x.toWord = true)
    (hhi : fle w hi.toWord = true) :
    fle w (Numerics.binary32.clamp x lo hi).toWord = true := by
  have hmax : fle w (Numerics.binary32.max x lo).toWord = true := by
    rw [Numerics.max]
    split
    case isTrue h =>
      rw [Numerics.lt_binary32, flt_iff] at h
      exact fle_trans hx ((fle_iff _ _).2 ⟨h.1, h.2.1, h.2.2.le⟩)
    case isFalse => exact hx
  rcases Numerics.min_cases .binary32 (Numerics.binary32.max x lo) hi with h | h
  · rwa [Numerics.clamp, h]
  · rwa [Numerics.clamp, h]

/-! ### The cutoff in force (42_filter R181, R186) -/

/-- The number the reference configuration clamps to its limits. -/
def modulated (base ev : Word) : Word := fadd base (fmul ev (fsub 0x469C4000#32 base))

theorem cutoffOf_referenceCfg (base ev : Word) :
    cutoffOf referenceCfg (.single base) (.single ev) = Numerics.binary32.clamp
      (.single (modulated base ev)) (.single 0x41A00000#32) (.single 0x469C4000#32) := rfl

/-- 20000 less any finite number is finite. -/
theorem isFinite_cutoffMax_sub {base : Word} (hb : isFinite base = true) :
    isFinite (fsub 0x469C4000#32 base) = true := by
  have hmag := fixOf_mono (Nat.le_sub_one_of_lt ((isFinite_iff base).1 hb))
  have hmax : fixOf (magOf 0x469C4000#32) = 20000 * 2 ^ 149 := by decide +kernel
  rw [fixOf_infPat_sub_one] at hmag
  apply isFinite_fadd (by decide) (by rwa [isFinite_fneg])
  rw [magOf_fneg, hmax]
  omega

/-- Without modulation the clamp is that of the base: the sum keeps a base that is not zero, and of every zero
the clamp makes 20. -/
theorem cutoffOf_unmodulated {base : Word} (hb : isFinite base = true) :
    cutoffOf referenceCfg (.single base) (.single 0#32) = Numerics.binary32.clamp (.single base)
      (.single 0x41A00000#32) (.single 0x469C4000#32) := by
  have hprod : isZero (fmul 0#32 (fsub 0x469C4000#32 base)) = true :=
    isZero_fmul_zero (isFinite_cutoffMax_sub hb)
  rw [cutoffOf_referenceCfg, modulated]
  cases hz : isZero base with
  | false => rw [fadd_isZero hb hz hprod]
  | true =>
    have hbase : flt base 0x41A00000#32 = true := flt_of_isZero hz (by decide)
    have hsum : flt (fadd base (fmul 0#32 (fsub 0x469C4000#32 base))) 0x41A00000#32 = true :=
      flt_of_isZero (isZero_fadd hz hprod) (by decide)
    simp only [Numerics.clamp_eq, Numerics.lt_binary32, Number.toWord_single, hbase, hsum, if_true]

/-- What the envelope adds is not negative, so the sum is not below the base. -/
theorem fle_modulated {base ev : Word} (hlo : fle 0x41A00000#32 base = true)
    (hhi : fle base 0x469C4000#32 = true) (hev0 : fle zero32 ev = true)
    (hev1 : fle ev one32 = true) : fle base (modulated base ev) = true := by
  have hb0 : fle zero32 base = true := fle_trans (by decide) hlo
  have hfb := isFinite_of_fle hb0 hhi (by decide)
  have hsub := (fsub_between (by decide) hb0 (by decide) hhi).1
  exact fle_fadd_self hb0 hfb (fmul_nonneg_of_isFinite (isFinite_of_fle hev0 hev1 (by decide))
    (isFinite_cutoffMax_sub hfb) hev0 hsub)

/-- Settles O52: with ev = 0 the sum is the base; otherwise it is not below the base, and the clamp ends it
at 20000. -/
theorem modulationOnlyRaisesTheCutoff : Obligations.ModulationOnlyRaisesTheCutoff := by
  rintro base ev _ hb rfl
  refine ⟨congrArg _ (cutoffOf_unmodulated hb), fun hlo hhi hev0 hev1 => ?_⟩
  have hraised := fle_modulated hlo hhi hev0 hev1
  rw [cutoffOf_referenceCfg]
  refine ⟨fle_clamp hraised hhi, (Numerics.clamp_binary32_mem ?_ (by decide)).2⟩
  exact notNaN_of_fle_right hraised

/-! ### The coefficient g (42_filter R182) -/

/-- A number from a positive one on is positive. -/
theorem positive_of_fle {a x : Word} (ha : 0 < rank a) (h : fle a x = true) :
    isNeg x = false ∧ isZero x = false := by
  have hr : 0 < rank x := ha.trans_le ((fle_iff a x).1 h).2.2
  rw [isZero_false_iff]
  rw [rank] at hr
  split at hr
  case isTrue => omega
  case isFalse hneg => exact ⟨by simpa using hneg, by omega⟩

/-- Numbers that are not negative are ordered as their values. -/
theorem fixOf_magOf_le {a b : Word} (ha : fle zero32 a = true) (h : fle a b = true) :
    fixOf (magOf a) ≤ fixOf (magOf b) := by
  have hr := ((fle_iff a b).1 h).2.2
  rw [rank_of_nonneg ha, rank_of_nonneg (fle_trans ha h)] at hr
  exact fixOf_mono (by exact_mod_cast hr)

/-- The least number above 40000 is the lowest rate. -/
theorem fle_rate_of_flt {fs : Word} (h : flt fsMinExcl fs = true) : fle 0x471C4001#32 fs = true := by
  obtain ⟨-, hnan, hr⟩ := (flt_iff _ _).1 h
  have hexcl : rank fsMinExcl = 0x471C4000 := by decide
  have hleast : rank 0x471C4001#32 = 0x471C4001 := by decide
  exact (fle_iff _ _).2 ⟨by decide, hnan, by omega⟩

/-- PI times a cutoff lies between PI * 20 and PI * 20000, rounded. -/
theorem pi_mul_cutoff_range {fc : Word} (hlo : fle 0x41A00000#32 fc = true)
    (hhi : fle fc 0x469C4000#32 = true) :
    fle 0x427B53D2#32 (fmul pi32 fc) = true ∧ fle (fmul pi32 fc) 0x47756FDB#32 = true := by
  have hleast : fmul pi32 0x41A00000#32 = 0x427B53D2#32 := by decide +kernel
  have hmost : fmul pi32 0x469C4000#32 = 0x47756FDB#32 := by decide +kernel
  have hfc0 : fle zero32 fc = true := fle_trans (by decide) hlo
  have hfin := isFinite_of_fle hfc0 hhi (by decide)
  exact ⟨hleast ▸ (fmul_mono (by decide) (by decide) hfin (by decide) hlo).2,
    hmost ▸ (fmul_mono (by decide) (by decide) (by decide) hfc0 hhi).2⟩

/-- The tangent's argument is positive and at most the number next below pi/2: so is the greatest argument,
that of 20000 Hz at the lowest rate. -/
theorem tan_argument_range {fs fc : Word} (hfs : AcceptedRate (.single fs))
    (hlo : fle 0x41A00000#32 fc = true) (hhi : fle fc 0x469C4000#32 = true) :
    ∃ q, fdiv (fmul pi32 fc) fs = mkNum false q ∧ 0 < q ∧ q ≤ 0x3FC90FDA := by
  obtain ⟨hleast, hmost⟩ := pi_mul_cutoff_range hlo hhi
  have hrate : fle 0x471C4001#32 fs = true := fle_rate_of_flt hfs.1
  have hfinp : isFinite (fmul pi32 fc) = true :=
    isFinite_of_fle (fle_trans (by decide) hleast) hmost (by decide)
  have hp1 := fixOf_magOf_le (by decide) hleast
  have hp2 := fixOf_magOf_le (fle_trans (by decide) hleast) hmost
  have hf1 := fixOf_magOf_le (by decide) hrate
  have hf2 : fixOf (magOf fs) ≤ 384000 * 2 ^ 149 := hfs.fixOf_bounds.2
  have hdpos : 0 < fixOf (magOf fs) := lt_of_lt_of_le (fixOf_pos (by decide)) hf1
  obtain ⟨hneg, hz⟩ := positive_of_fle (by decide) hrate
  have hdiv := fdiv_pos hfinp hfs.isFinite hneg hz
  rw [(positive_of_fle (by decide) hleast).1] at hdiv
  refine ⟨_, hdiv, le_roundPat_of_mul_le (p := 1) (by decide) hdpos ?_,
    roundPat_le_of_le_mul (by decide) hdpos ?_⟩
  · calc fixOf 1 * fixOf (magOf fs)
        ≤ fixOf 1 * (384000 * 2 ^ 149) := Nat.mul_le_mul_left _ hf2
      _ ≤ fixOf (magOf 0x427B53D2#32) * 2 ^ 149 := by decide +kernel
      _ ≤ fixOf (magOf (fmul pi32 fc)) * 2 ^ 149 := Nat.mul_le_mul_right _ hp1
  · calc fixOf (magOf (fmul pi32 fc)) * 2 ^ 149
        ≤ fixOf (magOf 0x47756FDB#32) * 2 ^ 149 := Nat.mul_le_mul_right _ hp2
      _ ≤ fixOf 0x3FC90FDA * fixOf (magOf 0x471C4001#32) := by decide +kernel
      _ ≤ fixOf 0x3FC90FDA * fixOf (magOf fs) := Nat.mul_le_mul_left _ hf1

/-- tan is positive and finite at every positive number below pi/2 (93_implementation_defined part 3). -/
theorem ftan_range {q : Nat} (h0 : 0 < q) (hq : q ≤ 0x3FC90FDA) :
    flt zero32 (ftan (mkNum false q)) = true ∧ isFinite (ftan (mkNum false q)) = true := by
  have hlt : q < 2 ^ 31 := by omega
  have hinf : 1 < infPat := by decide
  obtain ⟨t, ht0, htinf, ht⟩ : ∃ t, 0 < t ∧ t < infPat ∧ ftan (mkNum false q) = mkNum false t := by
    rw [ftan, isNeg_mkNum false hlt, magOf_mkNum false hlt, decide_eq_true h0, decide_eq_true hq]
    exact ⟨_, by omega, by omega, rfl⟩
  rw [ht]
  refine ⟨?_, isFinite_mkNum false htinf⟩
  rw [flt_iff, rank_zero, rank_mkNum false (htinf.trans (by decide))]
  exact ⟨rfl, isNaN_mkNum false htinf.le, by simpa using ht0⟩

/-- Settles O53: the tangent's argument lies between 0 and pi/2, where the tangent is positive and finite. -/
theorem filterCoefficientIsPositive : Obligations.FilterCoefficientIsPositive := by
  intro fs fc hmin hmax hlo hhi
  obtain ⟨q, hq, h0, hle⟩ := tan_argument_range ⟨hmin, hmax⟩ hlo hhi
  have hg : (coefG .binary32 (.single fs) (.single fc)).toWord = ftan (mkNum false q) := congrArg ftan hq
  rw [hg]
  exact ftan_range h0 hle

end Sys2Proof.Machine
end

section
/-! The eight topologies (43_router R200 to R209). -/

namespace Sys2Proof.Machine

open Sys2Proof

/-- A topology by its table of modulation inputs and its combination (43_router R200, R201): oscillator 4 gets
0.0 in every row, and each other oscillator what the row makes of the outputs before it. `r` renders
oscillator k with a given modulation input. -/
theorem route_eq {cfg : Cfg} {fs : Number} {e : Four Number} {o : Four Osc}
    {r : OscId → Number → Osc × Number}
    (hr : ∀ k m, r k m = oscRender cfg fs m (e.get k) (o.get k)) (a : Algo) (o4 o3 o2 o1 : Osc × Number)
    (h4 : o4 = r .k4 zero)
    (h3 : o3 = r .k3 (mod3 a o4.2))
    (h2 : o2 = r .k2 (mod2 cfg.numerics a o4.2 o3.2))
    (h1 : o1 = r .k1 (mod1 cfg.numerics a o4.2 o3.2 o2.2)) :
    route cfg fs a e o
      = (⟨o1.1, o2.1, o3.1, o4.1⟩, combine cfg.numerics a o4.2 o3.2 o2.2 o1.2) := by
  rw [hr] at h4 h3 h2 h1
  subst h4 h3 h2 h1
  rfl

/-- Settles O48: each row of the pseudocode is `route_eq` at its topology, where `mod3`, `mod2`, `mod1` and
`combine` evaluate to what the row writes. -/
theorem routerRowsAreTheTopologies : Obligations.RouterRowsAreTheTopologies := by
  rintro cfg fs e o r nx z rfl rfl hr
  exact ⟨route_eq hr .a0, route_eq hr .a1, route_eq hr .a2, route_eq hr .a3, route_eq hr .a4,
    route_eq hr .a5, route_eq hr .a6, route_eq hr .a7⟩

end Sys2Proof.Machine
end

section
/-! What a step does to a voice, once, and the voice's own operations: note-off, one sample, and the samples of
a RENDER (44_voice R220, R224 to R233; 46_commands R275, R280 to R283). -/

namespace Sys2Proof.Machine

open Sys2Proof

/-! ### Containers -/

/-- Two containers of four with equal elements are equal. -/
theorem Four.ext_get {α : Type} {a b : Four α} (h : ∀ k, a.get k = b.get k) : a = b := by
  have h1 : a.k1 = b.k1 := h .k1
  have h2 : a.k2 = b.k2 := h .k2
  have h3 : a.k3 = b.k3 := h .k3
  have h4 : a.k4 = b.k4 := h .k4
  cases a; cases b
  rw [Four.mk.injEq]
  exact ⟨h1, h2, h3, h4⟩

/-- A function that keeps the voice named changes nothing. -/
theorem modifyVoice_of_fixed {s : State} {n : Nat} {v : Voice} {f : Voice → Voice}
    (hv : s.voices[n]? = some v) (hf : f v = v) : modifyVoice n f s = s := by
  have hvoices : modifyAt f s.voices n = s.voices := by
    refine List.ext_getElem? fun i => ?_
    rw [modifyAt_getElem?]
    split
    case isTrue hi => rw [hi, hv, Option.map_some, hf]
    case isFalse => rfl
  rw [modifyVoice, hvoices]

/-! ### Note-off (41_envelope R154; 44_voice R224 to R226) -/

theorem envNoteOff_eq (nx : Numerics) (fs : Number) (e : Env) :
    envNoteOff nx fs e = if e.stage = .idle then e else { e with
      stage := .release
      rate := if nx.lt (.single 0#32) e.r then .step (nx.div e.level (nx.mul e.r fs)) else .instant } := rfl

section
variable {v : Voice} (nx : Numerics) (fs : Number) (tail : Bool)

theorem voiceNoteOff_of_idle (h : v.vstate = .idle) : voiceNoteOff nx fs tail v = v := by
  rw [voiceNoteOff, if_pos h]

theorem voiceNoteOff_of_active (h : v.vstate ≠ .idle) :
    voiceNoteOff nx fs tail v = { v with
      env := v.env.map (envNoteOff nx fs)
      envF := envNoteOff nx fs v.envF
      vstate := if tail then .releasing else .idle } := by
  rw [voiceNoteOff, if_neg h]

end

theorem exec_noteOff_of_ready {s : State} {voice : BitVec 4} (hr : s.Ready)
    (hv : voice.toNat < numVoices s) (vel : BitVec 7) (tail : Bool) :
    exec (.noteOff vel tail voice) s
      = .next (modifyVoice voice.toNat (voiceNoteOff s.cfg.numerics s.ctl.fs tail) s) :=
  congrArg _ (whenAccepted_voiceCommand_of_ready hr hv _ _)

/-- Settles O34: NOTE_OFF applies `voiceNoteOff` to the voice named, which keeps an idle voice and gives each
envelope of an active one its note-off. -/
theorem noteOffReleasesTheVoice : Obligations.NoteOffReleasesTheVoice := by
  rintro s vel tail voice v nx hr rfl hv
  obtain ⟨hlt, -⟩ := List.getElem?_eq_some_iff.1 hv
  refine ⟨fun hidle => ?_, fun hact => ?_⟩
  · rw [exec_noteOff_of_ready hr hlt, modifyVoice_of_fixed hv (voiceNoteOff_of_idle _ _ _ hidle)]
  · refine ⟨_, voiceNoteOff s.cfg.numerics s.ctl.fs tail v, exec_noteOff_of_ready hr hlt vel tail, rfl,
      modifyAt_length _ _ _, fun n hn => ?_, ?_, ?_⟩
    · rw [modifyVoice_voices_getElem?, if_neg hn]
    · rw [modifyVoice_voices_getElem?, if_pos rfl, hv, Option.map_some]
    · rw [voiceNoteOff_of_active _ _ _ hact]
      exact ⟨rfl, fun k => by rw [Four.get_map, envNoteOff_eq], envNoteOff_eq _ _ _, fun _ => rfl⟩

/-! ### One sample (44_voice R229 to R232) -/

theorem voiceFilter_eq (cfg : Cfg) (fs : Number) (p : Snapshot) (ef r : Number) (f : Filt) :
    voiceFilter cfg fs p ef r f =
      (if p.filtEn then (filtProcess cfg.numerics
          (filtUpdate cfg fs p.filtMode p.filtCutoff p.filtRes ef f) r).1 else f,
        if p.filtEn then (filtProcess cfg.numerics
          (filtUpdate cfg fs p.filtMode p.filtCutoff p.filtRes ef f) r).2 else r) := by
  rw [voiceFilter]; split <;> rfl

/-- Settles O38: the envelopes and their values are those of the hypotheses, and the filter runs or not. -/
theorem voiceSampleFollowsItsSteps : Obligations.VoiceSampleFollowsItsSteps := by
  rintro cfg fs p v e ef env f nx rfl henv he hef rfl
  have henv : env = v.env.map (envNext cfg.numerics fs) :=
    Four.ext_get fun k => (henv k).trans (Four.get_map _ _ k).symm
  have he : e = envValues v.env env := Four.ext_get fun k => by
    rw [he k, envValues, Four.get_build]; rfl
  subst henv he hef
  rw [voiceRender, voiceFilter_eq]; rfl

/-! ### The samples of a RENDER (46_commands R283) -/

section
variable (cfg : Cfg) (fs : Number) (p : Snapshot)

theorem voiceSampled_of_idle {v : Voice} (h : v.vstate = .idle) : voiceSampled cfg fs p v = v := by
  rw [voiceSampled, if_neg (by rw [voiceIsActive_iff]; exact not_not.2 h)]

theorem voiceSampled_of_active {v : Voice} (h : v.vstate ≠ .idle) :
    voiceSampled cfg fs p v = (voiceRender cfg fs p v).1 := by
  rw [voiceSampled, if_pos ((voiceIsActive_iff v).2 h)]

theorem voiceSampled_eq (v : Voice) :
    voiceSampled cfg fs p v = if v.vstate = .idle then v else (voiceRender cfg fs p v).1 := by
  split
  case isTrue h => exact voiceSampled_of_idle cfg fs p h
  case isFalse h => exact voiceSampled_of_active cfg fs p h

/-- An active voice keeps its state in a sample, or ends with its first envelope (44_voice R232). -/
theorem voiceSampled_vstate (v : Voice) :
    (voiceSampled cfg fs p v).vstate = v.vstate ∨
      (v.vstate ≠ .idle ∧ (voiceSampled cfg fs p v).vstate = .idle ∧
        (voiceSampled cfg fs p v).env.k1.stage = .idle) := by
  by_cases hv : v.vstate = .idle
  · exact .inl (by rw [voiceSampled_of_idle cfg fs p hv])
  · rw [voiceSampled_of_active cfg fs p hv, voiceRender_vstate]
    split
    case isTrue hend => exact .inr ⟨hv, rfl, hend⟩
    case isFalse => exact .inl rfl

theorem voiceSampled_iterate_of_idle {v : Voice} (h : v.vstate = .idle) (k : Nat) :
    (voiceSampled cfg fs p)^[k] v = v :=
  Function.iterate_fixed (voiceSampled_of_idle cfg fs p h) k

/-- In k samples an active voice keeps its state, or ends with its first envelope and is left so. -/
theorem voiceSampled_iterate_vstate (k : Nat) (v : Voice) :
    ((voiceSampled cfg fs p)^[k] v).vstate = v.vstate ∨
      (v.vstate ≠ .idle ∧ ((voiceSampled cfg fs p)^[k] v).vstate = .idle ∧
        ((voiceSampled cfg fs p)^[k] v).env.k1.stage = .idle) := by
  induction k generalizing v with
  | zero => exact .inl rfl
  | succ k ih =>
    rw [Function.iterate_succ_apply]
    rcases voiceSampled_vstate cfg fs p v with hkept | ⟨hv, hidle, hend⟩
    · rw [← hkept]; exact ih _
    · rw [voiceSampled_iterate_of_idle cfg fs p hidle]; exact .inr ⟨hv, hidle, hend⟩

/-- The sum of a sample on a channel: each active voice adds its own, in ascending index. -/
theorem mixVoices_sum (vs : List Voice) (acc : Two Number) (c : Chan) :
    (mixVoices cfg fs p vs acc).2.get c = vs.foldl (fun a v =>
      if v.vstate = .idle then a else cfg.numerics.add a (voiceRender cfg fs p v).2) (acc.get c) := by
  induction vs generalizing acc with
  | nil => rfl
  | cons v vs ih =>
    rw [mixVoices, List.foldl_cons]
    by_cases hv : v.vstate = .idle
    · have hact : voiceIsActive v ≠ true := mt (voiceIsActive_iff v).1 (not_not.2 hv)
      rw [if_neg hact, if_pos hv]; exact ih acc
    · rw [if_pos ((voiceIsActive_iff v).2 hv), if_neg hv]
      refine (ih _).trans ?_
      cases c <;> rfl

end

/-- Every voice takes the samples of a RENDER on its own. -/
theorem renderLoop_voices (k i : Nat) (s : State) :
    (renderLoop k i s).voices = s.voices.map (voiceSampled s.cfg s.ctl.fs s.snap)^[k] := by
  induction k generalizing i s with
  | zero => exact (List.map_id _).symm
  | succ k ih => rw [renderLoop, ih, renderSample_voices, List.map_map]; rfl

theorem exec_render_of_ready {s : State} {count : BitVec 16} (hr : s.Ready)
    (hb : s.ctl.pos.toNat + count.toNat ≤ s.ctl.maxBlock.toNat) :
    exec (.render count) s = .next (renderState count s) := by
  have hexec : exec (.render count) s = execRender count s := rfl
  rw [hexec, execRender, whenAccepted_of_ready hr.unfaulted hr.prepared, renderBody,
    checkLatched_of_latched hr.latched]
  simp only [if_neg (Nat.not_lt.2 hb), settle_ok]

/-- The carrier at the index of a sample holds the sample's sums. -/
theorem carGet_renderSample {s : State} {c : Chan} (hw : sparseWf zero (s.car.get c) = true) (i : Nat) :
    carGet (renderSample i s) c i = (sampleSums i s).get c := by
  rw [carGet, renderSample_car, sparseGet_set hw, if_pos rfl]

/-- Settles O37: a RENDER of one sample is `renderSample` at pos, the voices by `mixVoices_voices` and the sums
by `mixVoices_sum`. -/
theorem renderMixesTheActiveVoices : Obligations.RenderMixesTheActiveVoices := by
  intro s hr hinv hpos
  refine ⟨_, exec_render_of_ready hr hpos, ?_, fun c => ?_⟩
  · have hvoices : (renderState 1#16 s).voices = (renderSample s.ctl.pos.toNat s).voices := rfl
    rw [hvoices, renderSample_voices]
    exact List.map_congr_left fun v _ => voiceSampled_eq _ _ _ v
  · have hcar : carGet (renderState 1#16 s) c s.ctl.pos.toNat
        = carGet (renderSample s.ctl.pos.toNat s) c s.ctl.pos.toNat := rfl
    rw [hcar, carGet_renderSample (hinv.car c), sampleSums, mixVoices_sum]
    cases c <;> rfl

/-! ### What a step does to a voice -/

/-- A command that ran was issued by its word. -/
theorem issues_instrWord_of_decode {s : State} {bits : Nat} {a : Addr} {w : Word} {rest : List Access}
    {i : Instr} (h : s.host = .write bits a w :: rest) (hw : writeAccepted bits a s = true)
    (hd : decode ⟨a, w⟩ = .ok i) (hs : selectorReg i = none) : issues s (instrWord i) := by
  obtain ⟨rfl, rfl⟩ := decode_command hd hs
  obtain ⟨i, hi, hwf, rfl⟩ := exists_command w
  rw [decodeCommand_instrWord hi hwf]
  exact ⟨rest, by rw [h, bits_of_writeAccepted hw]⟩

/-- What the commands that reach voice number n make of it. -/
inductive VoiceDid (s : State) (n : Nat) (v : Voice) : Instr → Voice → Prop
  | prepared : VoiceDid s n v .prepare (voicePrepared s.draw n)
  | latched (p : Snapshot) : VoiceDid s n v .latch (voiceApply s.cfg s.ctl.fs p v)
  | notedOn (vel note : BitVec 7) {voice : BitVec 4} (f : Number) (hn : voice.toNat = n) :
      VoiceDid s n v (.noteOn vel note voice) (voiceNoteOn s.cfg s.ctl.fs f v)
  | notedOff (vel : BitVec 7) (tail : Bool) {voice : BitVec 4} (hn : voice.toNat = n) :
      VoiceDid s n v (.noteOff vel tail voice) (voiceNoteOff s.cfg.numerics s.ctl.fs tail v)
  | filterWasReset {voice : BitVec 4} (hn : voice.toNat = n) :
      VoiceDid s n v (.filterReset voice) { v with filt := filtReset v.filt }
  | rendered (count : BitVec 16) :
      VoiceDid s n v (.render count) ((voiceSampled s.cfg s.ctl.fs s.snap)^[count.toNat] v)

theorem VoiceDid.selectorReg_eq_none {s : State} {n : Nat} {v u : Voice} {i : Instr}
    (h : VoiceDid s n v i u) : selectorReg i = none := by
  cases h <;> rfl

/-- A voice after a command on the voice numbered m: the command's own voice takes its effect. -/
theorem eq_or_of_modifyAt {f : Voice → Voice} {vs : List Voice} {m n : Nat} {v u : Voice}
    (hv : vs[n]? = some v) (hu : (modifyAt f vs m)[n]? = some u) : u = v ∨ (m = n ∧ u = f v) := by
  rw [modifyAt_getElem?, hv] at hu
  split at hu
  case isTrue h => exact .inr ⟨h.symm, (Option.some.inj hu).symm⟩
  case isFalse => exact .inl (Option.some.inj hu).symm

theorem latchState_latchLanded_voices (p : Snapshot) (s : State) :
    (latchState p (latchLanded s)).voices = s.voices.map (voiceApply s.cfg s.ctl.fs p) := by
  rw [latchState, latchLanded_voices, latchLanded_cfg, latchLanded_ctl]

/-- An instruction keeps a voice, or is one of the commands that reach it. -/
theorem Did.voice {i : Instr} {s t : State} (h : Did i s t) {n : Nat} {v u : Voice}
    (hv : s.voices[n]? = some v) (hu : t.voices[n]? = some u) : u = v ∨ VoiceDid s n v i u := by
  have kept : t.voices = s.voices → u = v := fun e => Option.some.inj (by rw [← hu, ← hv, e])
  cases h with
  | stored => exact .inl (kept rfl)
  | ignored => exact .inl (kept rfl)
  | refused => exact .inl (kept (by simp))
  | latchRefused => exact .inl (kept (by simp))
  | prepared =>
    have hn : n < numVoices s := (List.getElem?_eq_some_iff.1 hv).1
    have hprep : (prepareState s).voices[n]? = some (voicePrepared s.draw n) := by
      simp [prepareState, hn]
    obtain rfl : voicePrepared s.draw n = u := Option.some.inj (hprep.symm.trans hu)
    exact .inr .prepared
  | latched =>
    rw [latchState_latchLanded_voices, List.getElem?_map, hv] at hu
    obtain rfl := Option.some.inj hu
    exact .inr (.latched _)
  | notedOn vel note =>
    exact (eq_or_of_modifyAt hv hu).imp_right fun ⟨hn, e⟩ => e ▸ .notedOn vel note _ hn
  | notedOff vel tail =>
    exact (eq_or_of_modifyAt hv hu).imp_right fun ⟨hn, e⟩ => e ▸ .notedOff vel tail hn
  | filterWasReset =>
    exact (eq_or_of_modifyAt hv hu).imp_right fun ⟨hn, e⟩ => e ▸ .filterWasReset hn
  | @rendered count =>
    rw [renderState_voices, renderLoop_voices, List.getElem?_map, hv] at hu
    obtain rfl := Option.some.inj hu
    exact .inr (.rendered count)
  | flushed => exact .inl (kept (by simp))

/-- A step keeps a voice, or issues one of the commands that reach it. -/
theorem step_voice {s t : State} (h : step s = .next t) {n : Nat} {v u : Voice}
    (hv : s.voices[n]? = some v) (hu : t.voices[n]? = some u) :
    u = v ∨ ∃ i rest, issues s (instrWord i) ∧ VoiceDid { s with host := rest } n v i u := by
  have kept : t.voices = s.voices → u = v := fun e => Option.some.inj (by rw [← hu, ← hv, e])
  cases step_cases h with
  | idle => exact .inl (kept rfl)
  | @read bits a rest =>
    rcases busRead_cases bits a { s with host := rest } with ⟨_, -, e⟩ | e
    · exact .inl (kept (by rw [e]))
    · exact .inl (kept (by rw [e]; simp))
  | refusedWrite => exact .inl (kept (by simp))
  | @plainWrite _ a w rest =>
    rcases busStore_cases a w { s with host := rest } with ⟨_, -, e⟩ | e
    · exact .inl (kept (by rw [e]; simp))
    · exact .inl (kept (by rw [e]))
  | @ran _ _ _ rest i _ hh hw hd hi =>
    rcases hi.voice hv hu with e | hdid
    · exact .inl e
    · exact .inr ⟨i, rest, issues_instrWord_of_decode hh hw hd hdid.selectorReg_eq_none, hdid⟩
  | overlapped => exact .inl (kept rfl)

/-- Settles O10: of the commands that reach a voice, LATCH and FILTER_RESET keep its state, and each other one
changes it in its own way. -/
theorem voicesChangeStateOnlyAsTabled : Obligations.VoicesChangeStateOnlyAsTabled := by
  intro s t n v u hstep hv hu hne
  rcases step_voice hstep hv hu with rfl | ⟨i, rest, hi, hdid⟩
  · exact absurd rfl hne
  cases hdid with
  | prepared => exact .inr (.inr (.inr (.inl ⟨hi, rfl⟩)))
  | latched => exact absurd rfl hne
  | @notedOn vel note voice f hn => exact .inl ⟨vel, note, voice, hi, hn, rfl⟩
  | @notedOff vel tail voice hn =>
    have hact : v.vstate ≠ .idle := fun h => hne (by rw [voiceNoteOff_of_idle _ _ _ h])
    rw [voiceNoteOff_of_active _ _ _ hact]
    cases tail with
    | true => exact .inr (.inl ⟨vel, voice, hi, hn, hact, rfl⟩)
    | false => exact .inr (.inr (.inl ⟨vel, voice, hi, hn, hact, rfl⟩))
  | filterWasReset => exact absurd rfl hne
  | rendered count =>
    rcases voiceSampled_iterate_vstate s.cfg s.ctl.fs s.snap count.toNat v with hkept | hend
    · exact absurd hkept.symm hne
    · exact .inr (.inr (.inr (.inr ⟨count, hi, hend⟩)))

/-- What reaches a voice that is idle and stays so: PREPARE, LATCH, and a FILTER_RESET naming it; NOTE_OFF and
RENDER keep it (44_voice R226, R228). -/
theorem step_idle_voice {s t : State} (h : step s = .next t) {n : Nat} {v u : Voice}
    (hv : s.voices[n]? = some v) (hu : t.voices[n]? = some u) (hvidle : v.vstate = .idle)
    (huidle : u.vstate = .idle) :
    u = v ∨ issues s (instrWord .prepare) ∨
      (issues s (instrWord .latch) ∧ ∃ p, VoiceTakes s.cfg s.ctl.fs p v u) ∨
      ∃ voice, issues s (instrWord (.filterReset voice)) ∧ voice.toNat = n ∧
        u = { v with filt := filtReset v.filt } := by
  rcases step_voice h hv hu with e | ⟨i, rest, hi, hdid⟩
  · exact .inl e
  cases hdid with
  | prepared => exact .inr (.inl hi)
  | latched p => exact .inr (.inr (.inl ⟨hi, p, voiceTakes_voiceApply ..⟩))
  | notedOn => exact nomatch huidle
  | notedOff => exact .inl (voiceNoteOff_of_idle _ _ _ hvidle)
  | @filterWasReset voice hn => exact .inr (.inr (.inr ⟨voice, hi, hn, rfl⟩))
  | rendered => exact .inl (voiceSampled_iterate_of_idle _ _ _ hvidle _)

/-- Settles O11: LATCH writes the parameters `VoiceTakes` names, FILTER_RESET the integrators, and nothing else
reaches the voice. -/
theorem idleVoiceIsFrozen : Obligations.IdleVoiceIsFrozen := by
  intro s t n v u hstep hv hu hvidle huidle hprepare
  rcases step_idle_voice hstep hv hu hvidle huidle with
    rfl | hi | ⟨hi, p, htakes⟩ | ⟨voice, hi, hn, rfl⟩
  · exact ⟨rfl, fun _ => ⟨rfl, rfl, rfl⟩, fun _ => rfl, fun _ => rfl, rfl, .inl rfl⟩
  · exact absurd hi hprepare
  · have hfilt : u.filt = v.filt := by rw [htakes.rest]
    refine ⟨?_, fun hlatch => absurd hi hlatch, fun k => ?_, fun k => ?_, ?_, .inl hfilt⟩
    · rw [hfilt]; exact htakes.rest
    · rw [htakes.osc k]
    · rw [htakes.env k]
    · rw [htakes.envF]
  · exact ⟨rfl, fun _ => ⟨rfl, rfl, rfl⟩, fun _ => rfl, fun _ => rfl, rfl, .inr ⟨rfl, voice, hi, hn⟩⟩

end Sys2Proof.Machine
end

section
/-! What a FLUSH does once its checks have passed: the words of its block, the vocoder's sum element by element,
and the state it leaves (46_commands R285 to R288, R290; 45_vocoder R252, R255, R256). -/

namespace Sys2Proof.Machine

open Sys2Proof

/-! ### The two channels and the block's modulator -/

theorem Two.ext_get {α : Type} {a b : Two α} (h : ∀ c, a.get c = b.get c) : a = b := by
  cases a; cases b
  exact congrArg₂ Two.mk (h .c0) (h .c1)

theorem modulatorOf_length (s : State) : (modulatorOf s).length = blockLen s := by simp [modulatorOf]

/-! ### The checks (46_commands R285) -/

theorem firstUnwritten_eq_none_iff (s : State) :
    firstUnwritten s = none ↔ ∀ n, n < blockLen s → inWritten s .c0 n = true := by
  rw [firstUnwritten, List.find?_eq_none]
  simp

theorem exec_flush_of_ready {s : State} (hr : s.Ready)
    (hin : s.snap.vocEn = true → firstUnwritten s = none) : exec .flush s = .next (flushState s) := by
  have hexec : exec .flush s = execFlush s := rfl
  rw [hexec, execFlush, whenAccepted_of_ready hr.unfaulted hr.prepared]
  rcases flushBody_cases (instrWord .flush) s with ⟨hl, -⟩ | ⟨n, -, hv, hu, -⟩ | ⟨-, -, hok⟩
  · rw [hr.latched] at hl; simp at hl
  · rw [hin hv] at hu; simp at hu
  · rw [hok, settle_ok]

/-- Settles O40: an empty block has no element that could be unwritten, and its FLUSH has no effect. -/
theorem flushOfAnEmptyBlockChangesNothing : Obligations.FlushOfAnEmptyBlockChangesNothing := by
  intro s hr hpos
  have hlen : blockLen s = 0 := by rw [blockLen, hpos]; rfl
  have hin : firstUnwritten s = none := (firstUnwritten_eq_none_iff s).2 (by simp [hlen])
  rw [exec_flush_of_ready hr fun _ => hin, flushState_of_pos_eq_zero hlen]

/-! ### The words of the block (46_commands R286, R287) -/

/-- Element n of OUT[c] after a FLUSH: the output's word. -/
theorem readWord_blockMem_outBase {s : State} (hw : s.mem.wf = true) (hlen : blockLen s ≤ 16384) (c : Chan)
    {n : Nat} (hn : n < ((blockOut s).get c).length) :
    readWord (blockMem s) (outBase c + 4 * n) = ((blockOut s).get c)[n] := by
  cases c with
  | c0 => exact (readWord_blockMem hw hlen hn).1
  | c1 =>
    have hblock : n < blockLen s := hn.trans_eq (blockOut_length s .c1)
    have hw0 := writeWords_wf (blockOut s).c0 (outBase .c0) hw
    have hOut1 : outBase .c1 = 0x40000 := rfl
    have hMon : monBase = 0x50000 := rfl
    rw [blockMem, readWord_writeWords_outside _ _ _ (writeWords_wf _ _ hw0) (by omega)]
    exact readWord_writeWords _ _ _ hw0 hn

/-- What a FLUSH leaves in the memory and the carrier, the output named by its words. -/
structure BlockFlushed (s t : State) (out : Chan → Nat → Word) : Prop where
  outWord : ∀ c n, n < s.ctl.pos.toNat → readWord t.mem (outBase c + 4 * n) = out c n
  monWord : ∀ n, n < s.ctl.pos.toNat →
    readWord t.mem (0x50000 + 4 * n) = readWord t.mem (0x30000 + 4 * n)
  outside : ∀ a, ¬InBlock s.ctl.pos.toNat a → readByte t.mem a = readByte s.mem a
  carrier : ∀ c n, carGet t c n = zero

theorem blockFlushed_flushState {s : State} {out : Chan → Nat → Word} (hinv : s.Inv)
    (hpos : 0 < s.ctl.pos.toNat)
    (hout : ∀ c n, n < blockLen s → ((blockOut s).get c)[n]? = some (out c n)) :
    BlockFlushed s (flushState s) out := by
  have hlen : blockLen s ≤ 16384 := hinv.blockLen_le.trans hinv.blockHw.2
  have hstate := flushState_of_pos_ne_zero (s := s) hpos.ne'
  have hmem : (flushState s).mem = blockMem s := by rw [hstate]
  have hclear : (flushState s).ctl.pos = 0#16 := by rw [hstate]
  refine ⟨fun c n hn => ?_, fun n hn => ?_, fun a ha => ?_, fun c n => ?_⟩
  · obtain ⟨hn', hword⟩ := List.getElem?_eq_some_iff.1 (hout c n hn)
    rw [hmem, readWord_blockMem_outBase hinv.mem hlen c hn', hword]
  · have hwords : (blockOut s).c0.length = blockLen s := blockOut_length s .c0
    obtain ⟨hout0, hmon⟩ := readWord_blockMem hinv.mem hlen (hn.trans_eq hwords.symm)
    rw [hmem]
    exact hmon.trans hout0.symm
  · rw [hmem, readByte_blockMem_outside hinv.mem ha]
  · exact hinv.flushState.carClear c n (by rw [hclear]; exact Nat.zero_le n)

/-! ### The vocoder disabled (45_vocoder R256) -/

section
variable {s : State} (hv : s.snap.vocEn = false)
include hv

theorem blockBands_of_disabled : blockBands s = s.bands := by
  rw [blockBands, hv]; rfl

theorem blockOut_of_disabled (c : Chan) {n : Nat} (hn : n < blockLen s) :
    ((blockOut s).get c)[n]? = some (carGet s c n).toWord := by
  rw [blockOut, hv]
  cases c <;> simp [Two.get, carrierOf, hn]

end

/-- Settles O41: with the vocoder disabled the block's output is the carrier and the bands are kept. -/
theorem flushCopiesTheCarrier : Obligations.FlushCopiesTheCarrier := by
  intro s hr hinv hv hpos
  have hflush : BlockFlushed s (flushState s) fun c n => (carGet s c n).toWord :=
    blockFlushed_flushState hinv hpos fun c n => blockOut_of_disabled hv c
  refine ⟨flushState s, exec_flush_of_ready hr (by simp [hv]), ?_, fun n hn => ?_, hflush.outside,
    hflush.carrier⟩
  · rw [flushState_of_pos_ne_zero hpos.ne', blockBands_of_disabled hv]
  · have hout0 := hflush.outWord .c0 n hn
    exact ⟨hout0, hflush.outWord .c1 n hn, (hflush.monWord n hn).trans hout0⟩

/-! ### The vocoder enabled (45_vocoder R252) -/

theorem vocOut_get (cfg : Cfg) (f : Number) (m : List Number) (car : Two (List Number)) (bands : List Band)
    (out : Two (List Word)) (c : Chan) :
    (vocOut cfg f m car bands out).get c = bands.foldl (fun o b =>
      addBand cfg.numerics (bandGain cfg f m b) (b.fcar.get c) (car.get c) o) (out.get c) := by
  induction bands generalizing out with
  | nil => rfl
  | cons b bs ih =>
    rw [vocOut, ih]
    cases c <;> rfl

/-- A band adds its carrier filter's output n times the gain to element n. -/
theorem addBand_getElem? (nx : Numerics) (gain : Number) (f : Filt) {car : List Number} (out : List Word)
    {n : Nat} (hn : n < car.length) :
    (addBand nx gain f car out)[n]?
      = out[n]?.map fun o => addToOut nx o (nx.mul ((filtOutputs nx f car).getD n zero) gain) := by
  have hf : n < (filtOutputs nx f car).length := hn.trans_eq (filtOutputs_length nx f car).symm
  rw [addBand, List.getElem?_zipWith, List.getElem?_eq_getElem hf, List.getD_eq_getElem _ _ hf]
  cases out[n]? <;> rfl

/-- The sum of the bands at element n, in ascending order from the word that stood there. -/
theorem foldl_addBand_getElem? (nx : Numerics) (gain : Band → Number) (f : Band → Filt) {car : List Number}
    (bands : List Band) (out : List Word) {n : Nat} (hn : n < car.length) :
    (bands.foldl (fun o b => addBand nx (gain b) (f b) car o) out)[n]?
      = out[n]?.map fun w => bands.foldl (fun acc b =>
          addToOut nx acc (nx.mul ((filtOutputs nx (f b) car).getD n zero) (gain b))) w := by
  induction bands generalizing out with
  | nil => simp
  | cons b bs ih =>
    rw [List.foldl_cons, ih, addBand_getElem? nx _ _ out hn, Option.map_map]
    rfl

section
variable {s : State} (hv : s.snap.vocEn = true)
include hv

theorem blockBands_of_enabled : blockBands s
    = s.bands.map (bandAdvance s.cfg.numerics s.snap.vocSmooth (modulatorOf s) (carrierOf s)) := by
  rw [blockBands, if_pos hv, vocBands]

theorem blockOut_of_enabled (c : Chan) {n : Nat} (hn : n < blockLen s) :
    ((blockOut s).get c)[n]? = some (s.bands.foldl (fun acc b =>
      addToOut s.cfg.numerics acc (s.cfg.numerics.mul
        ((filtOutputs s.cfg.numerics (b.fcar.get c) ((carrierOf s).get c)).getD n zero)
        (bandGain s.cfg s.snap.vocSmooth (modulatorOf s) b))) 0#32) := by
  have hcar : n < ((carrierOf s).get c).length := by cases c <;> simpa [Two.get, carrierOf] using hn
  rw [blockOut, if_pos hv, vocProcess, vocOut_get, foldl_addBand_getElem? _ _ _ _ _ hcar]
  cases c <;> simp [Two.get, modulatorOf, hn]

end

/-- Settles O42: with the vocoder enabled and the modulator written, the bands are advanced over the block and
the output is their ascending sum. -/
theorem flushRunsTheVocoder : Obligations.FlushRunsTheVocoder := by
  rintro s m car sm nx hr hinv rfl hv hpos hin rfl hcar hsm
  obtain rfl : car = carrierOf s := Two.ext_get fun c => (hcar c).trans (by cases c <;> rfl)
  have hsmooth : sm = fun b => smooth s.cfg.numerics s.snap.vocSmooth b.sm
      (bandRaw s.cfg.numerics b.fm (modulatorOf s)) := by
    funext b
    rw [hsm, bandRaw, modulatorOf_length]
    rfl
  subst hsmooth
  have hflush := blockFlushed_flushState hinv hpos fun c n => blockOut_of_enabled hv c
  refine ⟨flushState s, exec_flush_of_ready hr fun _ => (firstUnwritten_eq_none_iff s).2 hin, ?_, ?_,
    hflush.outWord, hflush.monWord, hflush.outside, hflush.carrier⟩
  · rw [flushState_of_pos_ne_zero hpos.ne']
  · rw [flushState_of_pos_ne_zero hpos.ne', blockBands_of_enabled hv]
    rfl

end Sys2Proof.Machine
end

section
/-! The two channels stay alike: where the carrier and the bands' carrier filters agree, every step leaves them so
(45_vocoder R254; 46_commands R283). -/

namespace Sys2Proof.Machine

open Sys2Proof

/-- The other fields of the state do not matter. -/
theorem StereoEqual.frame {s t : State} (h : StereoEqual s) (hcar : t.car = s.car) (hbands : t.bands = s.bands) :
    StereoEqual t :=
  ⟨by rw [hcar]; exact h.carrier, by rw [hbands]; exact h.filters⟩

/-- Every active voice adds the same to both sums. -/
theorem mixVoices_stereo (cfg : Cfg) (fs : Number) (p : Snapshot) (vs : List Voice) {acc : Two Number}
    (h : acc.c0 = acc.c1) : (mixVoices cfg fs p vs acc).2.c0 = (mixVoices cfg fs p vs acc).2.c1 := by
  have h0 : (mixVoices cfg fs p vs acc).2.c0 = _ := mixVoices_sum cfg fs p vs acc .c0
  have h1 : (mixVoices cfg fs p vs acc).2.c1 = _ := mixVoices_sum cfg fs p vs acc .c1
  rw [h0, h1, Two.get, Two.get, h]

theorem StereoEqual.carGet {s : State} (h : StereoEqual s) (n : Nat) : carGet s .c0 n = carGet s .c1 n := by
  rw [Machine.carGet, Machine.carGet, Two.get, Two.get, h.carrier]

theorem StereoEqual.renderSample {s : State} (h : StereoEqual s) (i : Nat) :
    StereoEqual (Machine.renderSample i s) where
  carrier := by
    have h0 : (Machine.renderSample i s).car.c0 = _ := renderSample_car i s .c0
    have h1 : (Machine.renderSample i s).car.c1 = _ := renderSample_car i s .c1
    have hsum : (sampleSums i s).c0 = (sampleSums i s).c1 := mixVoices_stereo _ _ _ _ (h.carGet i)
    rw [h0, h1, Two.get, Two.get, Two.get, Two.get, h.carrier, hsum]
  filters := by rw [renderSample_bands]; exact h.filters

theorem StereoEqual.renderLoop (k : Nat) {i : Nat} {s : State} (h : StereoEqual s) :
    StereoEqual (Machine.renderLoop k i s) := by
  induction k generalizing i s with
  | zero => exact h
  | succ k ih => exact ih (h.renderSample i)

theorem bandAdvance_stereo (nx : Numerics) (f : Number) (m : List Number) {car : Two (List Number)} {b : Band}
    (hcar : car.c0 = car.c1) (hb : b.fcar.c0 = b.fcar.c1) :
    (bandAdvance nx f m car b).fcar.c0 = (bandAdvance nx f m car b).fcar.c1 := by
  rw [bandAdvance, hcar, hb]

theorem carrierOf_stereo {s : State} (h : StereoEqual s) : (carrierOf s).c0 = (carrierOf s).c1 :=
  List.map_congr_left fun n _ => h.carGet n

/-- Each channel's carrier is cleared alike, and each band's carrier filters run over equal carriers. -/
theorem StereoEqual.flushState {s : State} (h : StereoEqual s) : StereoEqual (Machine.flushState s) := by
  by_cases hlen : blockLen s = 0
  · rwa [flushState_of_pos_eq_zero hlen]
  rw [flushState_of_pos_ne_zero hlen]
  refine ⟨congrArg (clearCarrier (blockLen s)) h.carrier, fun b hb => ?_⟩
  cases hv : s.snap.vocEn with
  | false => exact h.filters b (blockBands_of_disabled hv ▸ hb)
  | true =>
    have hmem : b ∈ s.bands.map _ := blockBands_of_enabled hv ▸ hb
    obtain ⟨b', hb', rfl⟩ := List.mem_map.1 hmem
    exact bandAdvance_stereo _ _ _ (carrierOf_stereo h) (h.filters b' hb')

theorem stereoEqual_prepareState (s : State) : StereoEqual (prepareState s) where
  carrier := rfl
  filters b hb := by
    obtain ⟨k, -, rfl⟩ := List.mem_map.1 hb
    rfl

/-- Only RENDER, FLUSH and PREPARE write the carrier or the bands, and each treats both channels alike. -/
theorem StereoEqual.did {i : Instr} {s t : State} (h : StereoEqual s) (hd : Did i s t) : StereoEqual t := by
  cases hd with
  | stored => exact h.frame rfl rfl
  | ignored => exact h
  | refused code info => exact h.frame (by simp) (by simp)
  | latchRefused code info => exact h.frame (by simp) (by simp)
  | prepared => exact stereoEqual_prepareState s
  | latched => exact h.frame (by simp) (by simp)
  | notedOn => exact h.frame (by simp) (by simp)
  | notedOff => exact h.frame (by simp) (by simp)
  | filterWasReset => exact h.frame (by simp) (by simp)
  | rendered => exact (h.renderLoop _).frame rfl rfl
  | flushed => exact h.flushState

/-- Settles O14: an access of the host reaches neither the carrier nor the bands but by its command. -/
theorem stereoStaysEqual : Obligations.StereoStaysEqual := by
  intro s t h hstep
  cases step_cases hstep with
  | idle => exact h
  | @read bits a rest =>
    rcases busRead_cases bits a { s with host := rest } with ⟨_, -, e⟩ | e <;> rw [e]
    · exact h.frame rfl rfl
    · exact h.frame (by simp) (by simp)
  | refusedWrite => exact h.frame (by simp) (by simp)
  | @plainWrite _ a w rest =>
    rcases busStore_cases a w { s with host := rest } with ⟨target, -, e⟩ | e <;> rw [e]
    · exact h.frame (by simp) (by simp)
    · exact h.frame rfl rfl
  | @ran _ _ _ rest _ _ _ _ _ hd =>
    have hrest : StereoEqual { s with host := rest } := h.frame rfl rfl
    exact hrest.did hd
  | overlapped => exact h.frame rfl rfl

end Sys2Proof.Machine
end

section
/-! The limits of the envelope's smoothing at binary32 (45_vocoder R252, R257): a product with 0.0 drops out of
the sum, and a product with 1.0 is the number itself. -/

namespace Sys2Proof.Machine

open Sys2Proof

/-- The rank of a finite number is its value rounded. -/
theorem rank_eq_roundRank {a : Word} (ha : isFinite a = true) : rank a = roundRank (sfixOf a) := by
  have hround := roundPat_fixOf ((isFinite_iff a).1 ha)
  have hpos : 0 < magOf a → 0 < fixOf (magOf a) := fixOf_pos
  have hzero : magOf a = 0 → fixOf (magOf a) = 0 := fun h => by rw [h, fixOf_zero]
  rw [roundRank, natAbs_sfixOf, hround, rank, sfixOf]
  cases isNeg a <;> simp only [if_true, if_false, Bool.false_eq_true] <;> split <;> omega

/-- A sum whose exact value a finite number holds is that number, up to the sign of a zero. -/
theorem fadd_equal_of_sfixOf_add {a b c : Word} (ha : isFinite a = true) (hb : isFinite b = true)
    (hc : isFinite c = true) (h : sfixOf a + sfixOf b = sfixOf c) :
    fle (fadd a b) c = true ∧ fle c (fadd a b) = true := by
  obtain ⟨hnan, hrank⟩ := fadd_of_isFinite ha hb
  have heq : rank (fadd a b) = rank c := by rw [hrank, h, rank_eq_roundRank hc]
  have hcnan := isNaN_of_isFinite hc
  exact ⟨(fle_iff _ _).2 ⟨hnan, hcnan, heq.le⟩, (fle_iff _ _).2 ⟨hcnan, hnan, heq.ge⟩⟩

theorem isFinite_of_isZero {x : Word} (h : isZero x = true) : isFinite x = true :=
  (isFinite_iff x).2 (by rw [(isZero_iff x).1 h]; decide)

theorem sfixOf_of_isZero {x : Word} (h : isZero x = true) : sfixOf x = 0 := by
  rw [sfixOf, (isZero_iff x).1 h]; simp

theorem fmul_one_left {x : Word} (hx : isFinite x = true) : fmul one32 x = x := by
  have hone : fixOf (magOf one32) = 2 ^ 149 := by decide +kernel
  have hneg : isNeg one32 = false := by decide
  rw [fmul_of_isFinite (by decide) hx, hone, hneg, Nat.mul_comm,
    roundPat_fixOf_mul ((isFinite_iff x).1 hx) (by positivity), Bool.false_bne, mkNum_magOf]

/-- Settles O43: the factor of the one envelope is 1.0, and the other's product is a zero. -/
theorem smoothingLimits : Obligations.SmoothingLimits := by
  intro previous raw low high hp hr hlow hhigh
  have hsub0 : fsub one32 zero32 = one32 := by decide +kernel
  have hsub1 : fsub one32 one32 = zero32 := by decide +kernel
  have hlow' : low = fadd (fmul zero32 previous) (fmul (fsub one32 zero32) raw) := hlow
  have hhigh' : high = fadd (fmul one32 previous) (fmul (fsub one32 one32) raw) := hhigh
  have hzp := isZero_fmul_zero hp
  have hzr := isZero_fmul_zero hr
  constructor
  · rw [hlow', hsub0, fmul_one_left hr]
    exact fadd_equal_of_sfixOf_add (isFinite_of_isZero hzp) hr hr (by rw [sfixOf_of_isZero hzp, zero_add])
  · rw [hhigh', hsub1, fmul_one_left hp]
    exact fadd_equal_of_sfixOf_add hp (isFinite_of_isZero hzr) hp (by rw [sfixOf_of_isZero hzr, add_zero])

end Sys2Proof.Machine
end

section
/-! The checks of the commands: which fault each raises and where it is recorded, and that a step runs the
instruction its access decodes to (46_commands R291, R295, R297; 60_exceptions R300 to R304). -/

namespace Sys2Proof.Machine

open Sys2Proof

/-! ### Accesses that decode -/

/-- Every write that decodes to an instruction goes to CMD or to a selector register, which take writes. -/
theorem writeAccepted_of_decode {a : Addr} {w : Word} {i : Instr} (h : decode ⟨a, w⟩ = .ok i) (s : State) :
    writeAccepted 32 a s = true := by
  rcases decode_ok_cases h with ha | ⟨r, ha, -, -⟩
  · rw [writeAccepted, ha]; rfl
  · rw [writeAccepted, ← shadowAt_some ha, locate_shadowAddr]; rfl

/-- Settles O5: the access is accepted, and its word decodes to the instruction. -/
theorem stepRunsDecodedInstruction : Obligations.StepRunsDecodedInstruction := by
  intro s a w rest i hhost hd
  have hstep : step s = stepWrite 32 a w { s with host := rest } := by rw [step, hhost]
  rw [hstep, stepWrite, if_pos (writeAccepted_of_decode hd _), hd]

/-! ### Before the first PREPARE (60_exceptions R304) -/

/-- A fault raised while none is recorded is the statements' recorded fault. -/
theorem raiseFault_eq_withFault {s : State} (h : s.ctl.faulted = false) (code : FaultCode) (info : Word) :
    raiseFault code info s = withFault (faultBits code) info s :=
  raiseFault_of_unfaulted h

/-- Every command but PREPARE makes the checks of R291 first, with its own word. -/
theorem exec_eq_whenAccepted {i : Instr} (hs : selectorReg i = none) (hprep : i ≠ .prepare)
    (hill : ∀ w, i ≠ .illegal w) (s : State) :
    ∃ t, exec i s = .next (whenAccepted (instrWord i) s t) := by
  cases i with
  | prepare => exact absurd rfl hprep
  | illegal w => exact absurd rfl (hill w)
  | latch | noteOn | noteOff | render | flush | filterReset => exact ⟨_, rfl⟩
  | _ => exact nomatch hs

theorem whenAccepted_of_unprepared {s : State} (hf : s.ctl.faulted = false) (hp : s.ctl.prepared = false)
    (w : Word) (t : State) : whenAccepted w s t = withFault 2#8 w s := by
  rw [whenAccepted, hf, hp]
  exact raiseFault_eq_withFault hf .notPrepared w

/-- Settles O18: the command's own checks and effects are not reached. -/
theorem commandsBeforePrepareRaiseNotPrepared : Obligations.CommandsBeforePrepareRaiseNotPrepared := by
  intro s i hf hp hs hprep hill
  obtain ⟨t, hexec⟩ := exec_eq_whenAccepted hs hprep hill s
  rw [hexec, whenAccepted_of_unprepared hf hp]

/-! ### Refused commands -/

section
variable {s : State} (hf : s.ctl.faulted = false) (hp : s.ctl.prepared = true)
include hf hp

/-- A command that is accepted and fails one of its own checks records the fault. -/
theorem whenAccepted_settle_error (w : Word) (code : FaultCode) (info : Word) :
    whenAccepted w s (settle s (.error (code, info))) = withFault (faultBits code) info s := by
  rw [whenAccepted_of_ready hf hp, settle_error, raiseFault_eq_withFault hf]

theorem exec_render_of_error {count : BitVec 16} {code : FaultCode} {info : Word}
    (h : renderBody (instrWord (.render count)) count s = .error (code, info)) :
    exec (.render count) s = .next (withFault (faultBits code) info s) := by
  have hexec : exec (.render count) s = execRender count s := rfl
  rw [hexec, execRender, h, whenAccepted_settle_error hf hp]

theorem exec_flush_of_error {code : FaultCode} {info : Word}
    (h : flushBody (instrWord .flush) s = .error (code, info)) :
    exec .flush s = .next (withFault (faultBits code) info s) := by
  have hexec : exec .flush s = execFlush s := rfl
  rw [hexec, execFlush, h, whenAccepted_settle_error hf hp]

end

/-! ### Commands on one voice (46_commands R278, R280, R281) -/

theorem voiceCommand_of_badVoice {w : Word} {voice : BitVec 4} {s : State}
    (h : numVoices s ≤ voice.toNat) (effect : Nat → State) :
    voiceCommand w voice s effect = .error (.badVoice, w) := by
  rw [voiceCommand, checkVoice_of_ge h]

theorem voiceCommand_of_notLatched {w : Word} {voice : BitVec 4} {s : State}
    (h : voice.toNat < numVoices s) (hl : s.ctl.latched = false) (effect : Nat → State) :
    voiceCommand w voice s effect = .error (.notLatched, w) := by
  rw [voiceCommand, checkVoice_of_lt h]
  simp only [checkLatched_of_not hl]

/-- Settles O19: the three commands differ in their effects only. -/
theorem voiceCommandsCheckVoiceThenLatch : Obligations.VoiceCommandsCheckVoiceThenLatch := by
  intro s i voice hf hp hi
  obtain ⟨effect, hexec⟩ : ∃ effect, exec i s = .next (whenAccepted (instrWord i) s
      (settle s (voiceCommand (instrWord i) voice s effect))) := by
    rcases hi with ⟨vel, note, rfl⟩ | ⟨vel, tail, rfl⟩ | rfl <;> exact ⟨_, rfl⟩
  refine ⟨fun hbad => ?_, fun hlt hl => ?_⟩
  · rw [hexec, voiceCommand_of_badVoice hbad, whenAccepted_settle_error hf hp]; rfl
  · rw [hexec, voiceCommand_of_notLatched hlt hl, whenAccepted_settle_error hf hp]; rfl

/-! ### RENDER and FLUSH (46_commands R282, R285) -/

theorem renderBody_of_notLatched {s : State} (hl : s.ctl.latched = false) (w : Word) (count : BitVec 16) :
    renderBody w count s = .error (.notLatched, w) := by
  rw [renderBody, checkLatched_of_not hl]

theorem renderBody_of_overflow {s : State} {count : BitVec 16} (hl : s.ctl.latched = true)
    (h : s.ctl.maxBlock.toNat < s.ctl.pos.toNat + count.toNat) (w : Word) :
    renderBody w count s = .error (.blockOverflow, w) := by
  rw [renderBody, checkLatched_of_latched hl]
  simp only [if_pos h]

theorem flushBody_of_notLatched {s : State} (hl : s.ctl.latched = false) (w : Word) :
    flushBody w s = .error (.notLatched, w) := by
  rw [flushBody, checkLatched_of_not hl]

theorem flushBody_of_firstUnwritten {s : State} {n : Nat} (hl : s.ctl.latched = true)
    (hv : s.snap.vocEn = true) (hu : firstUnwritten s = some n) (w : Word) :
    flushBody w s = .error (.inputUninit, BitVec.ofNat 32 (inBase .c0 + 4 * n)) := by
  rw [flushBody, checkLatched_of_latched hl]
  simp only [if_pos hv, hu]

theorem firstUnwritten_eq_some_iff (s : State) (n : Nat) :
    firstUnwritten s = some n ↔
      n < blockLen s ∧ inWritten s .c0 n = false ∧ ∀ m, m < n → inWritten s .c0 m = true := by
  rw [firstUnwritten, List.find?_range_eq_some]
  simp only [Bool.not_eq_true', Bool.not_not, List.mem_range]
  exact and_left_comm

/-- Settles O20: each check of the two commands in turn. -/
theorem blockCommandsCheckInOrder : Obligations.BlockCommandsCheckInOrder := by
  refine fun s count hf hp => ⟨fun hl => ⟨?_, ?_⟩, fun hl hover => ?_, fun hl hv n hn hbad hlow => ?_⟩
  · exact exec_render_of_error hf hp (renderBody_of_notLatched hl _ count)
  · exact exec_flush_of_error hf hp (flushBody_of_notLatched hl _)
  · exact exec_render_of_error hf hp (renderBody_of_overflow hl hover _)
  · have hfirst : firstUnwritten s = some n := (firstUnwritten_eq_some_iff s n).2 ⟨hn, hbad, hlow⟩
    exact exec_flush_of_error hf hp (flushBody_of_firstUnwritten hl hv hfirst _)

/-! ### LATCH (46_commands R272) -/

theorem latchLanded_of_quiet {s : State} (h : s.ctrl = []) : latchLanded s = s := by
  rw [latchLanded, latchCopy_quiet h, ← h]

/-- A LATCH that no HOST_CTRL write overlaps and whose registers fail the checks records the fault alone. -/
theorem exec_latch_of_error_of_quiet {s : State} {code : FaultCode} {info : Word}
    (hf : s.ctl.faulted = false) (hp : s.ctl.prepared = true) (hq : s.ctrl = [])
    (hc : checkParams s.shadow = .error (code, info)) :
    exec .latch s = .next (withFault (faultBits code) info s) := by
  have hcopy : (latchCopy s).1 = s.shadow := by rw [latchCopy_quiet hq]
  rw [exec_latch_of_error hf hp (hcopy ▸ hc), ← latchLanded_eq, latchLanded_of_quiet hq]

/-- Settles O21: the checks find the register with the lowest address. -/
theorem latchRefusesTheLowestBadRegister : Obligations.LatchRefusesTheLowestBadRegister := by
  refine fun s r hf hp hq => ⟨fun hr hlow => ?_, fun hw hkind hr hlow => ?_⟩
  · exact exec_latch_of_error_of_quiet hf hp hq (checkParams_of_unwritten hr hlow)
  · exact exec_latch_of_error_of_quiet hf hp hq (checkParams_of_nonfinite hw hkind hr hlow)

/-! ### Commands that raise a fault (46_commands R295; 60_exceptions R301) -/

@[simp] theorem flushState_faulted (s : State) : (flushState s).ctl.faulted = s.ctl.faulted := by
  unfold flushState; split <;> rfl

/-- A command that raised a fault recorded it in its own state, or in the one a LATCH's overlapping writes had
landed in. -/
theorem Did.eq_withFault {i : Instr} {s t : State} (h : Did i s t) (hf : s.ctl.faulted = false)
    (ht : t.ctl.faulted = true) :
    ∃ code info, t = withFault code info s ∨ (i = .latch ∧ t = withFault code info (latchLanded s)) := by
  have kept : t.ctl.faulted = s.ctl.faulted → False := fun e => by
    rw [e, hf] at ht; exact nomatch ht
  cases h with
  | stored => exact (kept rfl).elim
  | ignored => exact (kept rfl).elim
  | refused code info => exact ⟨_, _, .inl (raiseFault_eq_withFault hf code info)⟩
  | latchRefused code info =>
    have hland : (latchLanded s).ctl.faulted = false := by rw [latchLanded_ctl, hf]
    exact ⟨_, _, .inr ⟨rfl, raiseFault_eq_withFault hland code info⟩⟩
  | prepared => exact absurd ht (by simp)
  | latched => exact (kept rfl).elim
  | notedOn => exact (kept rfl).elim
  | notedOff => exact (kept rfl).elim
  | filterWasReset => exact (kept rfl).elim
  | rendered => exact (kept (by simp)).elim
  | flushed => exact (kept (by simp)).elim

/-- Settles O22: only the writes landing during a LATCH come besides the record, and a quiet LATCH has none. -/
theorem faultingCommandsHaveNoOtherEffect : Obligations.FaultingCommandsHaveNoOtherEffect := by
  intro i s t hexec hf ht
  obtain ⟨code, info, rfl | ⟨rfl, rfl⟩⟩ := (exec_did hexec).eq_withFault hf ht
  · exact ⟨rfl, fun _ => ⟨rfl, rfl⟩⟩
  · rw [latchLanded_eq]
    refine ⟨rfl, fun h => ?_⟩
    have hquiet : s.ctrl = [] := h.resolve_left (not_not.2 rfl)
    exact ⟨by rw [hquiet]; rfl, hquiet.symm⟩

end Sys2Proof.Machine
end

section
/-! What PREPARE and LATCH leave in the units: every unit reset, and every voice with the snapshot's parameters
(46_commands R270, R271, R275). -/

namespace Sys2Proof.Machine

open Sys2Proof

/-! ### The units after PREPARE -/

theorem envReset_envPrepared (p : EnvParams) : EnvReset (envPrepared p) := ⟨rfl, rfl, rfl⟩

theorem voiceReset_voicePrepared (draw v : Nat) : VoiceReset (voicePrepared draw v) where
  vstate := rfl
  freq := rfl
  osc k := by rw [voicePrepared, Four.get_build]; exact ⟨rfl, rfl, rfl, rfl, rfl⟩
  env k := by rw [voicePrepared, Four.get_build]; exact envReset_envPrepared _
  envF := envReset_envPrepared _
  integrators := ⟨rfl, rfl⟩

theorem bandFilterReset_bandFilter (cfg : Cfg) (fs fc : Number) :
    BandFilterReset cfg fs fc (bandFilter cfg fs fc) where
  mode := rfl
  fc := rfl
  res := by rw [← numOfNat_ten]; rfl
  g := rfl
  r2 := rfl
  h := rfl
  integrators := ⟨rfl, rfl⟩

theorem bandReset_bandPrepared (cfg : Cfg) (fs : Number) (b : Nat) :
    BandReset cfg fs b (bandPrepared cfg fs b) where
  fc := rfl
  sm := rfl
  fm := bandFilterReset_bandFilter ..
  fcar c := by cases c <;> exact bandFilterReset_bandFilter ..

theorem prepareState_bands_getElem? {s : State} {b : Nat} {x : Band}
    (h : (prepareState s).bands[b]? = some x) : x = bandPrepared s.cfg (.single s.prepRate) b := by
  rw [prepareState, List.getElem?_map, Option.map_eq_some_iff] at h
  obtain ⟨k, hk, rfl⟩ := h
  obtain ⟨hlt, rfl⟩ := List.getElem?_eq_some_iff.1 hk
  rw [List.getElem_range]

/-- A successful PREPARE resets every unit (46_commands R271). -/
theorem unitsReset_prepareState (s : State) : UnitsReset s (prepareState s) where
  voiceCount := by simp [prepareState, numVoices]
  voices v hv := by
    obtain ⟨k, -, rfl⟩ := List.mem_map.1 hv
    exact voiceReset_voicePrepared _ _
  bandCount := by simp [prepareState]
  bands b x hx := by
    rw [prepareState_bands_getElem? hx]
    exact bandReset_bandPrepared _ _ _
  block := ⟨rfl, rfl, rfl⟩
  carrier c n := by cases c <;> rfl
  inW c n := by cases c <;> rfl

/-! ### PREPARE (46_commands R270) -/

/-- The only word of PREPARE is 1. -/
theorem decode_cmdWrite_eq_prepare_iff (w : Word) :
    decode (cmdWrite w) = .ok .prepare ↔ w = 0x00000001#32 := by
  rw [decode_cmdWrite, Except.ok.injEq]
  refine ⟨fun h => eq_instrWord_of_decodeCommand h (.inl rfl), ?_⟩
  rintro rfl
  exact decodeCommand_instrWord (i := .prepare) rfl rfl

theorem prepareOk_iff (s : State) :
    prepareOk s = true ↔
      flt 0x471C4000#32 s.prepRate = true ∧ fle s.prepRate 0x48BB8000#32 = true ∧
        1 ≤ s.prepMaxBlock.toNat ∧ s.prepMaxBlock.toNat ≤ s.cfg.maxBlockHw := by
  simp only [prepareOk, Bool.and_eq_true, decide_eq_true_eq, and_assoc]
  exact Iff.rfl

theorem exec_prepare_of_ok {s : State} (h : prepareOk s = true) :
    exec .prepare s = .next (prepareState s) := by
  have hexec : exec .prepare s = execPrepare s := rfl
  rw [hexec, execPrepare, if_pos h, settle_ok]

/-- A PREPARE that fails records BAD_PREPARE, unless a fault stands recorded (60_exceptions R302, R307). -/
theorem exec_prepare_of_not_ok {s : State} (h : ¬prepareOk s = true) :
    exec .prepare s = .next (if s.ctl.faulted then s else withFault 7#8 0x00000001#32 s) := by
  have hexec : exec .prepare s = execPrepare s := rfl
  rw [hexec, execPrepare, if_neg h, settle_error]
  rfl

/-- Settles O24: the parameters decide, and a NaN rate is above no limit. -/
theorem prepareResetsTheBlock : Obligations.PrepareResetsTheBlock := by
  refine ⟨decode_cmdWrite_eq_prepare_iff, fun s => ?_⟩
  rw [← prepareOk_iff]
  refine ⟨fun hok => ?_, exec_prepare_of_not_ok, fun hnan => exec_prepare_of_not_ok fun hok => ?_⟩
  · exact ⟨_, exec_prepare_of_ok hok, rfl, unitsReset_prepareState s, rfl, rfl, rfl, fun _ => rfl, rfl, rfl,
      rfl, rfl⟩
  · obtain ⟨hmin, -⟩ := (prepareOk_iff s).1 hok
    obtain ⟨-, hnum, -⟩ := (flt_iff _ _).1 hmin
    rw [hnan] at hnum
    exact nomatch hnum

/-! ### LATCH (46_commands R275) -/

/-- Settles O27: each voice takes the new snapshot by `voiceApply`. -/
theorem latchUpdatesEveryVoice : Obligations.LatchUpdatesEveryVoice := by
  intro s h
  refine ⟨_, exec_latch_of_latchReady h, List.length_map _, fun n v hv => ⟨_, ?_, voiceTakes_voiceApply ..⟩⟩
  rw [latchState, List.getElem?_map, hv]
  rfl

end Sys2Proof.Machine
end

section
/-! RENDER as a whole: what its samples leave unchanged, idle voices, and RENDER in parts (46_commands R282 to
R284, R289; 60_exceptions R319). -/

namespace Sys2Proof.Machine

open Sys2Proof

/-! ### What the samples leave unchanged -/

/-- The samples write the voices and the carrier only. -/
theorem renderLoop_frame (k i : Nat) (s : State) :
    renderLoop k i s
      = { s with voices := (renderLoop k i s).voices, car := (renderLoop k i s).car } := by
  induction k generalizing i s with
  | zero => rfl
  | succ k ih => exact ih (i + 1) (renderSample i s)

theorem renderState_frame (count : BitVec 16) (s : State) :
    renderState count s = { s with
      voices := (renderState count s).voices
      car := (renderState count s).car
      ctl := { s.ctl with pos := s.ctl.pos + count } } := by
  rw [renderState, renderLoop_frame]

theorem renderSample_car_wf {s : State} (h : ∀ c, sparseWf zero (s.car.get c) = true) (i : Nat) (c : Chan) :
    sparseWf zero ((renderSample i s).car.get c) = true := by
  rw [renderSample_car]; exact sparseSet_wf _ _ (h c)

theorem carGet_renderSample_of_ne {s : State} {c : Chan} (hw : sparseWf zero (s.car.get c) = true)
    {i n : Nat} (hn : n ≠ i) : carGet (renderSample i s) c n = carGet s c n := by
  rw [carGet, renderSample_car, sparseGet_set hw, if_neg hn, carGet]

/-- The samples write the carrier at their own indices only. -/
theorem carGet_renderLoop_outside (k : Nat) {i n : Nat} {s : State}
    (hw : ∀ c, sparseWf zero (s.car.get c) = true) (c : Chan) (hn : n < i ∨ i + k ≤ n) :
    carGet (renderLoop k i s) c n = carGet s c n := by
  induction k generalizing i s with
  | zero => rfl
  | succ k ih =>
    rw [renderLoop, ih (renderSample_car_wf hw i) (by omega), carGet_renderSample_of_ne (hw c) (by omega)]

/-! ### Idle voices (60_exceptions R319) -/

/-- Idle voices are skipped. -/
theorem mixVoices_of_idle (cfg : Cfg) (fs : Number) (p : Snapshot) {vs : List Voice}
    (h : ∀ v ∈ vs, v.vstate = .idle) (acc : Two Number) : mixVoices cfg fs p vs acc = (vs, acc) := by
  induction vs with
  | nil => rfl
  | cons v vs ih =>
    obtain ⟨hv, hvs⟩ := List.forall_mem_cons.1 h
    have hact : voiceIsActive v ≠ true := mt (voiceIsActive_iff v).1 (not_not.2 hv)
    rw [mixVoices, if_neg hact, ih hvs]

section
variable {s : State} (hidle : ∀ v ∈ s.voices, v.vstate = .idle)
  (hw : ∀ c, sparseWf zero (s.car.get c) = true)
include hidle hw

/-- With every voice idle the carrier element is written back as it was. -/
theorem renderSample_of_idle (i : Nat) : renderSample i s = s := by
  have h0 : sparseSet zero s.car.c0 i (carGet s .c0 i) = s.car.c0 := sparseSet_get_self i (hw .c0)
  have h1 : sparseSet zero s.car.c1 i (carGet s .c1 i) = s.car.c1 := sparseSet_get_self i (hw .c1)
  simp only [renderSample, mixVoices_of_idle _ _ _ hidle, h0, h1]

theorem renderLoop_of_idle (k i : Nat) : renderLoop k i s = s := by
  induction k generalizing i with
  | zero => rfl
  | succ k ih => rw [renderLoop, renderSample_of_idle hidle hw, ih]

theorem renderState_of_idle (count : BitVec 16) :
    renderState count s = { s with ctl := { s.ctl with pos := s.ctl.pos + count } } := by
  rw [renderState, renderLoop_of_idle hidle hw]

end

theorem renderState_zero (s : State) : renderState 0#16 s = s := by
  rw [renderState_frame, BitVec.add_zero]
  rfl

/-- A block position that stays within the block does not wrap around (00_scope R12). -/
theorem toNat_pos_add {s : State} {count : BitVec 16}
    (hb : s.ctl.pos.toNat + count.toNat ≤ s.ctl.maxBlock.toNat) :
    (s.ctl.pos + count).toNat = s.ctl.pos.toNat + count.toNat :=
  BitVec.toNat_add_of_lt (hb.trans_lt s.ctl.maxBlock.isLt)

/-- Settles O36: RENDER is `renderState`, whose samples have the block indices from pos on. -/
theorem renderAdvancesTheBlock : Obligations.RenderAdvancesTheBlock := by
  intro s count hr hinv hb
  refine ⟨_, exec_render_of_ready hr hb, ?_, ?_, ?_, fun c n hn => ?_, ?_, fun hidle => ?_, fun a => ?_⟩
  · rw [renderState_ctl]; exact renderState_frame count s
  · rw [renderState_ctl]; exact toNat_pos_add hb
  · rw [renderState_voices, renderLoop_voices_length]
  · exact carGet_renderLoop_outside count.toNat hinv.car c hn
  · rintro rfl; exact renderState_zero s
  · exact renderState_of_idle hidle hinv.car count
  · rw [renderState_mem]

/-! ### RENDER in parts (46_commands R289) -/

theorem renderLoop_add (a b i : Nat) (s : State) :
    renderLoop (a + b) i s = renderLoop b (i + a) (renderLoop a i s) := by
  induction a generalizing i s with
  | zero => rw [Nat.zero_add]; rfl
  | succ a ih => rw [Nat.succ_add, renderLoop, ih, renderLoop, Nat.add_right_comm, Nat.add_assoc]

/-- The samples neither read nor write pos: the index of each is given. -/
theorem renderLoop_setPos (k i : Nat) (s : State) (p : BitVec 16) :
    renderLoop k i { s with ctl := { s.ctl with pos := p } }
      = { renderLoop k i s with ctl := { (renderLoop k i s).ctl with pos := p } } := by
  induction k generalizing i s with
  | zero => rfl
  | succ k ih => exact ih (i + 1) (renderSample i s)

/-- The second part takes up at the index and the state where the first left off. -/
theorem renderState_renderState {s : State} {a b total : BitVec 16} (htotal : total.toNat = a.toNat + b.toNat)
    (hpos : (s.ctl.pos + a).toNat = s.ctl.pos.toNat + a.toNat) :
    renderState b (renderState a s) = renderState total s := by
  have hsum : total = a + b := by
    refine BitVec.eq_of_toNat_eq ?_
    rw [htotal, BitVec.toNat_add_of_lt (htotal ▸ total.isLt)]
  have hloop : renderLoop b.toNat (s.ctl.pos + a).toNat (renderLoop a.toNat s.ctl.pos.toNat s)
      = renderLoop total.toNat s.ctl.pos.toNat s := by
    rw [htotal, renderLoop_add, hpos]
  have hset := renderLoop_setPos b.toNat (s.ctl.pos + a).toNat (renderLoop a.toNat s.ctl.pos.toNat s)
    (s.ctl.pos + a)
  rw [hloop] at hset
  rw [renderState, renderState_ctl]
  dsimp only
  rw [renderState, hset, renderState, hsum, BitVec.add_assoc]

/-- Settles O39: both parts are accepted, as the total is. -/
theorem renderSplitsIntoParts : Obligations.RenderSplitsIntoParts := by
  intro s a b total hr htotal hfits
  have hfitsA : s.ctl.pos.toNat + a.toNat ≤ s.ctl.maxBlock.toNat := by omega
  have hpos := toNat_pos_add hfitsA
  have hreadyA : (renderState a s).Ready := by
    constructor <;> rw [renderState_ctl]
    · exact hr.unfaulted
    · exact hr.prepared
    · exact hr.latched
  have hfitsB : (renderState a s).ctl.pos.toNat + b.toNat ≤ (renderState a s).ctl.maxBlock.toNat := by
    rw [renderState_ctl]
    simpa only [hpos] using hfits
  refine ⟨_, _, exec_render_of_ready hr hfitsA, exec_render_of_ready hreadyA hfitsB, ?_⟩
  rw [renderState_renderState htotal hpos]
  exact exec_render_of_ready hr (by omega)

end Sys2Proof.Machine
end

section
/-! The faulted state: commands are ignored in it, the record stays, and only a PREPARE that succeeds ends it
(60_exceptions R302, R307, R308). -/

namespace Sys2Proof.Machine

open Sys2Proof

theorem whenAccepted_of_faulted {s : State} (h : s.ctl.faulted = true) (w : Word) (t : State) :
    whenAccepted w s t = s := by
  rw [whenAccepted, if_pos h]

/-- Settles O17: an illegal word raises a second fault, which is not recorded, and every other command is
dropped by the check of R291. -/
theorem faultedCommandsAreIgnored : Obligations.FaultedCommandsAreIgnored := by
  intro s i hf hs hprep
  by_cases hill : ∃ w, i = .illegal w
  · obtain ⟨w, rfl⟩ := hill
    have hexec : exec (.illegal w) s = .next (raiseFault .illegalCommand w s) := rfl
    rw [hexec, raiseFault_of_faulted hf]
  · obtain ⟨t, ht⟩ := exec_eq_whenAccepted hs hprep (fun w e => hill ⟨w, e⟩) s
    rw [ht, whenAccepted_of_faulted hf]

theorem busError_of_faulted {s : State} (h : s.ctl.faulted = true) (a : Addr) : busError a s = s :=
  raiseFault_of_faulted h

/-- While faulted an instruction leaves the control fields, unless it is a PREPARE that succeeds. -/
theorem Did.of_faulted {i : Instr} {s t : State} (h : Did i s t) (hf : s.ctl.faulted = true) :
    t.ctl = s.ctl ∨ (i = .prepare ∧ prepareOk s = true ∧ t = prepareState s) := by
  have never {p : Prop} (h0 : s.ctl.faulted = false) : p := by rw [hf] at h0; exact nomatch h0
  cases h with
  | stored => exact .inl rfl
  | ignored => exact .inl rfl
  | refused _ _ _ h0 => exact never h0
  | latchRefused _ _ h0 => exact never h0
  | prepared hok => exact .inr ⟨rfl, hok, rfl⟩
  | latched h0 => exact never h0
  | notedOn _ _ hr => exact never hr.unfaulted
  | notedOff _ _ hr => exact never hr.unfaulted
  | filterWasReset hr => exact never hr.unfaulted
  | rendered hr => exact never hr.unfaulted
  | flushed hr => exact never hr.unfaulted

/-- While faulted a step leaves the control fields, unless it is a PREPARE that succeeds. -/
theorem step_of_faulted {s t : State} (h : step s = .next t) (hf : s.ctl.faulted = true) :
    t.ctl = s.ctl ∨
      (issues s 0x00000001#32 ∧ prepareOk s = true ∧
        ∃ rest, t = prepareState { s with host := rest }) := by
  have hrest (rest : List Access) : ({ s with host := rest } : State).ctl.faulted = true := hf
  cases step_cases h with
  | idle => exact .inl rfl
  | @read bits a rest =>
    rcases busRead_cases bits a { s with host := rest } with ⟨_, -, e⟩ | e <;> rw [e]
    · exact .inl rfl
    · rw [busError_of_faulted (hrest rest)]; exact .inl rfl
  | refusedWrite => rw [busError_of_faulted (hrest _)]; exact .inl rfl
  | @plainWrite _ a w rest =>
    rcases busStore_cases a w { s with host := rest } with ⟨target, -, e⟩ | e <;> rw [e]
    · rw [storeTarget_ctl]; exact .inl rfl
    · exact .inl rfl
  | @ran _ _ _ rest _ _ hh hw hd hi =>
    rcases hi.of_faulted (hrest rest) with e | ⟨rfl, hok, rfl⟩
    · exact .inl e
    · exact .inr ⟨issues_of_decode hh hw hd (.inl rfl), hok, rest, rfl⟩
  | overlapped => exact .inl rfl

/-- A reset of the units does not depend on the host's script. -/
theorem UnitsReset.of_host {s t : State} {rest : List Access} (h : UnitsReset { s with host := rest } t) :
    UnitsReset s t :=
  ⟨h.voiceCount, h.voices, h.bandCount, h.bands, h.block, h.carrier, h.inW⟩

/-- Settles O23: a PREPARE that succeeds clears the record, and anything else keeps it and the fault. -/
theorem faultRecordStaysUntilASuccessfulPrepare :
    Obligations.FaultRecordStaysUntilASuccessfulPrepare := by
  intro s t h hf
  rcases step_of_faulted h hf with e | ⟨hissues, hok, rest, rfl⟩
  · rw [e, hf]
    exact ⟨fun _ => ⟨rfl, rfl⟩, nofun⟩
  · refine ⟨fun hfaulted => absurd hfaulted (by simp), fun _ => ?_⟩
    obtain ⟨hmin, hmax, hblock, hblockHw⟩ := (prepareOk_iff s).1 hok
    exact ⟨hissues, hmin, hmax, hblock, hblockHw, (unitsReset_prepareState _).of_host, rfl, rfl, rfl⟩

end Sys2Proof.Machine
end

section
/-! The address of each target of the map, and the accesses that reach none (20_memory R61 to R65, R69;
46_commands R296, R297; 60_exceptions R305). -/

namespace Sys2Proof.Machine

open Sys2Proof

/-! ### The address of a target -/

/-- The registers that are no shadow register, with their addresses (20_memory R63, R65). -/
def controlRegs : List (Nat × Target) :=
  [(0x100, .cmd), (0x104, .prepRate), (0x108, .prepMaxBlock), (0x10C, .status .status),
   (0x110, .status .faultCode), (0x114, .status .faultInfo), (0x118, .status .voiceActive),
   (0x11C, .status .monFreq), (0x120, .status .monLen), (0x124, .status .cfgNumVoices),
   (0x128, .status .cfgMaxBlock)]

/-- A register is a shadow register at its address or one of the others. -/
theorem registerAt_some {a : Nat} {target : Target} (h : registerAt a = some target) :
    (a, target) ∈ controlRegs ∨ ∃ r, target = .shadow r ∧ a = shadowAddr r := by
  rw [registerAt] at h
  iterate 11
    rcases ite_eq_iff.1 h with ⟨rfl, h⟩ | ⟨-, h⟩
    · injection h with h
      subst h
      exact .inl (by simp [controlRegs, cmdAddr])
  obtain ⟨r, hr, rfl⟩ := Option.map_eq_some_iff.1 h
  exact .inr ⟨r, rfl, (shadowAt_some hr).symm⟩

theorem shadowAddr_range (r : ShadowReg) :
    shadowAddr r ≤ 0x018 ∨ (0x020 ≤ shadowAddr r ∧ shadowAddr r ≤ 0x02C) ∨
      (0x040 ≤ shadowAddr r ∧ shadowAddr r ≤ 0x0BC) := by
  cases r with
  | osc k r => cases k <;> cases r <;> decide
  | _ => decide

theorem controlRegs_range : ∀ p ∈ controlRegs, 0x100 ≤ p.1 ∧ p.1 ≤ 0x128 := by decide

theorem controlRegs_readOnly : ∀ p ∈ controlRegs, 0x10C ≤ p.1 → isWritable p.2 = false := by decide

/-- A buffer element reached by an aligned address is at that address. -/
theorem bufferAt_some {hw a : Nat} {target : Target} (hal : a % 4 = 0)
    (h : bufferAt hw a = some target) :
    ∃ n, n < hw ∧ ((∃ c, a = inBase c + 4 * n ∧ target = .input c n) ∨
      (∃ c, a = outBase c + 4 * n ∧ target = .output c n) ∨
      (a = monBase + 4 * n ∧ target = .monitor n)) := by
  rw [bufferAt] at h
  split at h
  case isFalse => exact nomatch h
  case isTrue hn =>
    refine ⟨_, hn, ?_⟩
    split at h
    case h_1 hk => exact .inl ⟨.c0, by rw [inBase]; omega, (Option.some.inj h).symm⟩
    case h_2 hk => exact .inl ⟨.c1, by rw [inBase]; omega, (Option.some.inj h).symm⟩
    case h_3 hk => exact .inr (.inl ⟨.c0, by rw [outBase]; omega, (Option.some.inj h).symm⟩)
    case h_4 hk => exact .inr (.inl ⟨.c1, by rw [outBase]; omega, (Option.some.inj h).symm⟩)
    case h_5 hk => exact .inr (.inr ⟨by rw [monBase]; omega, (Option.some.inj h).symm⟩)
    case h_6 => exact nomatch h

/-- An access that reaches a target is 32 bits wide and at an address of the map. -/
theorem mapped_of_locate {hw bits a : Nat} {target : Target} (h : locate hw bits a = some target) :
    bits = 32 ∧ Mapped hw a := by
  obtain ⟨hbits, hal, ⟨-, hreg⟩ | ⟨-, hbuf⟩⟩ := locate_some h
  · refine ⟨hbits, hal, ?_⟩
    rcases registerAt_some hreg with hctl | ⟨r, -, rfl⟩
    · have hrange := controlRegs_range _ hctl
      omega
    · have hrange := shadowAddr_range r
      omega
  · refine ⟨hbits, hal, ?_⟩
    obtain ⟨n, hn, ⟨c, rfl, -⟩ | ⟨c, rfl, -⟩ | ⟨rfl, -⟩⟩ := bufferAt_some hal hbuf
    · cases c <;> rw [inBase] <;> omega
    · cases c <;> rw [outBase] <;> omega
    · rw [monBase]; omega

/-- A read-only address has no target that takes writes (20_memory R61). -/
theorem isWritable_of_readOnly {hw bits a : Nat} {target : Target} (hhw : hw ≤ 16384)
    (h : locate hw bits a = some target) (hro : ReadOnly a) : isWritable target = false := by
  rw [ReadOnly] at hro
  obtain ⟨-, hal, ⟨hlt, hreg⟩ | ⟨-, hbuf⟩⟩ := locate_some h
  · rcases registerAt_some hreg with hctl | ⟨r, -, rfl⟩
    · exact controlRegs_readOnly _ hctl (by omega)
    · have hrange := shadowAddr_range r
      omega
  · obtain ⟨n, hn, ⟨c, rfl, -⟩ | ⟨c, -, rfl⟩ | ⟨-, rfl⟩⟩ := bufferAt_some hal hbuf
    · exfalso
      cases c <;> rw [inBase] at hro <;> omega
    · rfl
    · rfl

/-! ### Failed accesses -/

theorem locate_eq_none {hw bits a : Nat} (h : bits ≠ 32 ∨ ¬Mapped hw a) : locate hw bits a = none := by
  rw [Option.eq_none_iff_forall_ne_some]
  intro target hl
  obtain ⟨hbits, hmapped⟩ := mapped_of_locate hl
  exact h.elim (· hbits) (· hmapped)

theorem writeAccepted_eq_false {s : State} {bits : Nat} {a : Addr} (hhw : s.cfg.maxBlockHw ≤ 16384)
    (h : bits ≠ 32 ∨ ¬Mapped s.cfg.maxBlockHw a.toNat ∨ ReadOnly a.toNat) :
    writeAccepted bits a s = false := by
  rw [writeAccepted]
  split
  case h_1 target hl =>
    obtain ⟨hbits, hmapped⟩ := mapped_of_locate hl
    rcases h with h | h | hro
    · exact absurd hbits h
    · exact absurd hmapped h
    · exact isWritable_of_readOnly hhw hl hro
  case h_2 => rfl

/-- BUS_ERROR is code 10, and a fault that stands recorded stays (60_exceptions R305, R307). -/
theorem busError_eq (a : Addr) (s : State) :
    busError a s = if s.ctl.faulted then s else withFault 10#8 (a.setWidth 32) s := rfl

/-- Settles O57: such an access has no target, or one that takes no writes. -/
theorem failedAccessesRaiseBusError : Obligations.FailedAccessesRaiseBusError := by
  intro s bits a w rest e hinv he
  have hfault : busError a { s with host := rest } = e := by rw [he, busError_eq]
  refine ⟨fun hbad => ?_, fun hbad => ?_⟩
  · have hstep : step { s with host := .read bits a :: rest }
        = .next (busRead bits a { s with host := rest }) := rfl
    rw [hstep, busRead, locate_eq_none hbad, hfault]
  · have hstep : step { s with host := .write bits a w :: rest }
        = stepWrite bits a w { s with host := rest } := rfl
    have hrefused : writeAccepted bits a { s with host := rest } = false :=
      writeAccepted_eq_false hinv.blockHw.2 hbad
    rw [hstep, stepWrite, if_neg (by rw [hrefused]; exact Bool.false_ne_true), hfault]

end Sys2Proof.Machine
end

section
/-! The state after power-on: what the bus reads of it, and that it meets the machine's invariant (70_reset
R330). -/

namespace Sys2Proof.Machine

open Sys2Proof

/-! ### What the bus reads -/

theorem Shadow.get_powerOn (r : ShadowReg) : Shadow.powerOn.get r = ShadowCell.powerOn := by
  cases r with
  | osc k r => cases k <;> cases r <;> rfl
  | _ => rfl

theorem inWritten_reset (c : Chan) (n : Nat) : inWritten State.reset c n = false := by
  cases c <;> rfl

theorem readWord_nil (a : Nat) : readWord [] a = 0#32 := by
  have hbyte (b : Nat) : readByte [] b = 0#8 := rfl
  simp only [readWord, hbyte]
  rfl

/-- Below CFG_NUM_VOICES each register that is no shadow register reads 0 after power-on. -/
theorem targetWord_reset_controlRegs :
    ∀ p ∈ controlRegs, p.1 < 0x124 → targetWord State.reset p.2 = 0#32 := by
  decide

theorem targetWord_reset_shadow (r : ShadowReg) : targetWord State.reset (.shadow r) = 0#32 := by
  have hcell : State.reset.shadow.get r = ShadowCell.powerOn := Shadow.get_powerOn r
  rw [targetWord, hcell]
  rfl

/-- Before the first PREPARE an element of IN reads the word stored, and nothing is stored. -/
theorem targetWord_reset_input (c : Chan) (n : Nat) : targetWord State.reset (.input c n) = 0#32 := by
  have hprepared : State.reset.ctl.prepared = false := rfl
  rw [targetWord, hprepared, Bool.not_false, Bool.or_true, if_pos rfl]
  exact readWord_nil _

/-- Settles O16: the target of each such address is a register below CFG_NUM_VOICES or an element of IN. -/
theorem powerOnRegistersReadZero : Obligations.PowerOnRegistersReadZero := by
  refine ⟨fun a t hmapped hrange hstep => ?_, fun r => ?_, inWritten_reset⟩
  · obtain ⟨target, hl⟩ : ∃ target, locate State.reset.cfg.maxBlockHw 32 a.toNat = some target :=
      exists_locate_of_mapped (by decide) hmapped
    have hread := step_read [] hl
    rw [hstep] at hread
    injection hread with hread
    subst hread
    refine ⟨?_, rfl⟩
    obtain ⟨-, hal, ⟨hlt, hreg⟩ | ⟨hge, hbuf⟩⟩ := locate_some hl
    · rcases registerAt_some hreg with hctl | ⟨r, rfl, -⟩
      · exact targetWord_reset_controlRegs _ hctl (by omega)
      · exact targetWord_reset_shadow r
    · obtain ⟨n, -, ⟨c, -, rfl⟩ | ⟨c, ha, -⟩ | ⟨ha, -⟩⟩ := bufferAt_some hal hbuf
      · exact targetWord_reset_input c n
      · exfalso
        cases c <;> rw [outBase] at ha <;> omega
      · exfalso
        rw [monBase] at ha
        omega
  · have hcell : State.reset.shadow.get r = ShadowCell.powerOn := Shadow.get_powerOn r
    rw [hcell]
    rfl

/-! ### The invariant -/

theorem envPowerOn_ok (nx : Numerics) : EnvOk nx false Env.powerOn :=
  ⟨fun _ => inUnit_zero, fun _ => rfl, fun _ => rfl, by simp, fun _ => rfl⟩

theorem voicePowerOn_ok (nx : Numerics) : VoiceOk nx false Voice.powerOn where
  phases _ k := by cases k <;> exact phaseOk_zero
  envs k := by cases k <;> exact envPowerOn_ok nx
  filterEnv := envPowerOn_ok nx
  active h := nomatch h
  unlatched _ := rfl

theorem ctlPowerOn_ok (maxBlockHw : Nat) : CtlOk maxBlockHw Ctl.powerOn where
  pos := le_rfl
  maxBlock := Nat.zero_le _
  rate h := nomatch h
  latched h := nomatch h
  noFault _ := ⟨rfl, rfl⟩
  fault h := nomatch h

/-- Settles O7: nothing is prepared, no voice is active, and the buffers are empty. -/
theorem resetMeetsTheMachineInvariant : Obligations.ResetMeetsTheMachineInvariant where
  voiceCount := by decide
  bandCount := List.length_replicate
  blockHw := by decide
  ctl := ctlPowerOn_ok _
  voices v hv := by
    obtain rfl := List.mem_singleton.1 hv
    exact voicePowerOn_ok _
  mem := rfl
  inW c := by cases c <;> rfl
  car c := by cases c <;> rfl
  carClear c n _ := by cases c <;> rfl
  outLen := Nat.zero_le _
  monLen := Nat.zero_le _

end Sys2Proof.Machine
end
